-- ==== Sys2Proof/Word.lean ====
section
/-! DEFINITION. The word types of the machine: the byte and the 32-bit command word. -/

namespace Sys2Proof

/-- A byte, `0..255` (00_scope.md R16). -/
abbrev Byte := BitVec 8

/-- A finite sequence of bytes, `Bytes` of 00_scope.md R16. -/
abbrev Bytes := List Byte

/-- A finite sequence of bits, element 0 first in stream order, `Bits` of 00_scope.md R16. -/
abbrev Bits := List Bool

/-- A command word, 32 bits (30_encoding.md R100). -/
abbrev CmdWord := BitVec 32

end Sys2Proof
end

