-- ==== Sys2Proof/Syntax.lean ====
section
/-! DEFINITION. The command set: one constructor for each of the 21 rows of the opcode table (30_encoding.md R104),
and the answers of the decoder. -/

namespace Sys2Proof

/-- The commands of 30_encoding.md R104. `rdBits` and `wrBits` carry the WIDTH field, `0..63` (R101). -/
inductive Instr where
  /-- NOP, 45_control.md R350 -/
  | nop
  /-- RD_OPEN, 40_reader.md R153 -/
  | rdOpen
  /-- RD_BIT, 40_reader.md R154 -/
  | rdBit
  /-- RD_BYTE, 40_reader.md R155 -/
  | rdByte
  /-- RD_INT32, 40_reader.md R156 -/
  | rdInt32
  /-- RD_INT64, 40_reader.md R157 -/
  | rdInt64
  /-- RD_BITS, 40_reader.md R158 -/
  | rdBits (width : Nat)
  /-- RD_EXHAUSTED, 40_reader.md R159 -/
  | rdExhausted
  /-- WR_OPEN, 41_writer.md R183 -/
  | wrOpen
  /-- WR_BIT, 41_writer.md R184 -/
  | wrBit
  /-- WR_BYTE, 41_writer.md R185 -/
  | wrByte
  /-- WR_INT32, 41_writer.md R186 -/
  | wrInt32
  /-- WR_INT64, 41_writer.md R187 -/
  | wrInt64
  /-- WR_BITS, 41_writer.md R188 -/
  | wrBits (width : Nat)
  /-- WR_FLUSH, 41_writer.md R189 -/
  | wrFlush
  /-- HUF_COMPRESS, 42_huffman.md R211 -/
  | hufCompress
  /-- HUF_DECOMPRESS, 42_huffman.md R230 -/
  | hufDecompress
  /-- LZW_COMPRESS, 43_lzw.md R263 -/
  | lzwCompress
  /-- LZW_DECOMPRESS, 43_lzw.md R270 -/
  | lzwDecompress
  /-- ARC_PACK, 44_archive.md R311 -/
  | arcPack
  /-- ARC_UNPACK, 44_archive.md R320 -/
  | arcUnpack
deriving DecidableEq, Repr

/-- Why a command word is illegal (30_encoding.md R106), in the order in which R103 checks. -/
inductive IllegalWord where
  /-- RSV, bits 23:6, is not zero -/
  | reservedBits
  /-- OPCODE, bits 31:24, is not in the map of R104 -/
  | unknownOpcode
  /-- WIDTH, bits 5:0, is not zero on a command other than RD_BITS and WR_BITS -/
  | widthNotZero
deriving DecidableEq, Repr

/-- What the decoder answers for a word (30_encoding.md R103: decoding is total). -/
inductive Decoded where
  | instr (i : Instr)
  | illegal (why : IllegalWord)
deriving DecidableEq, Repr

/-- The mnemonic of a command, as the assembler syntax of 30_encoding.md R108 writes it. -/
def Instr.mnemonic : Instr → String
  | .nop => "NOP"
  | .rdOpen => "RD_OPEN"
  | .rdBit => "RD_BIT"
  | .rdByte => "RD_BYTE"
  | .rdInt32 => "RD_INT32"
  | .rdInt64 => "RD_INT64"
  | .rdBits _ => "RD_BITS"
  | .rdExhausted => "RD_EXHAUSTED"
  | .wrOpen => "WR_OPEN"
  | .wrBit => "WR_BIT"
  | .wrByte => "WR_BYTE"
  | .wrInt32 => "WR_INT32"
  | .wrInt64 => "WR_INT64"
  | .wrBits _ => "WR_BITS"
  | .wrFlush => "WR_FLUSH"
  | .hufCompress => "HUF_COMPRESS"
  | .hufDecompress => "HUF_DECOMPRESS"
  | .lzwCompress => "LZW_COMPRESS"
  | .lzwDecompress => "LZW_DECOMPRESS"
  | .arcPack => "ARC_PACK"
  | .arcUnpack => "ARC_UNPACK"

end Sys2Proof
end

