-- ==== Sys2Proof/WellFormed.lean ====
section
/-! DEFINITION. Which commands a command word can hold. -/

namespace Sys2Proof

/-- A command is well formed when its width operand fits the 6-bit WIDTH field (30_encoding.md R101). A width of 0 or
of 33 to 63 IS well formed: it is decoded as the command, which then fails with `InvalidArgument`. -/
def Instr.wellFormed : Instr → Bool
  | .rdBits w => decide (w < 64)
  | .wrBits w => decide (w < 64)
  | .nop | .rdOpen | .rdBit | .rdByte | .rdInt32 | .rdInt64 | .rdExhausted => true
  | .wrOpen | .wrBit | .wrByte | .wrInt32 | .wrInt64 | .wrFlush => true
  | .hufCompress | .hufDecompress | .lzwCompress | .lzwDecompress | .arcPack | .arcUnpack => true

/-- The proposition of `Instr.wellFormed`. -/
abbrev Instr.WellFormed (i : Instr) : Prop := i.wellFormed = true

end Sys2Proof
end

