-- ==== Sys2Proof/Decode.lean ====
section
/-! DEFINITION. The decoder of command words (30_encoding.md R100 to R107), total, rejecting by name; and the encoder. -/

namespace Sys2Proof

/-- The OPCODE field, bits 31:24 (30_encoding.md R100). -/
def opcodeField (c : CmdWord) : Nat := (c.extractLsb' 24 8).toNat

/-- The RSV field, bits 23:6 (30_encoding.md R100). -/
def reservedField (c : CmdWord) : Nat := (c.extractLsb' 6 18).toNat

/-- The WIDTH field, bits 5:0, read unsigned (30_encoding.md R100, R101). -/
def widthField (c : CmdWord) : Nat := (c.extractLsb' 0 6).toNat

/-- A command that takes no width: its WIDTH field must be 0 (30_encoding.md R103). -/
def decodePlain (i : Instr) (width : Nat) : Decoded :=
  if width = 0 then .instr i else .illegal .widthNotZero

/-- The opcode map (30_encoding.md R104), with the width rule of R103. -/
def decodeOpcode (op width : Nat) : Decoded :=
  match op with
  | 0x00 => decodePlain .nop width
  | 0x01 => decodePlain .rdOpen width
  | 0x02 => decodePlain .rdBit width
  | 0x03 => decodePlain .rdByte width
  | 0x04 => decodePlain .rdInt32 width
  | 0x05 => decodePlain .rdInt64 width
  | 0x06 => .instr (.rdBits width)
  | 0x07 => decodePlain .rdExhausted width
  | 0x10 => decodePlain .wrOpen width
  | 0x11 => decodePlain .wrBit width
  | 0x12 => decodePlain .wrByte width
  | 0x13 => decodePlain .wrInt32 width
  | 0x14 => decodePlain .wrInt64 width
  | 0x15 => .instr (.wrBits width)
  | 0x16 => decodePlain .wrFlush width
  | 0x20 => decodePlain .hufCompress width
  | 0x21 => decodePlain .hufDecompress width
  | 0x30 => decodePlain .lzwCompress width
  | 0x31 => decodePlain .lzwDecompress width
  | 0x40 => decodePlain .arcPack width
  | 0x41 => decodePlain .arcUnpack width
  | _ => .illegal .unknownOpcode

/-- Decoding a command word (30_encoding.md R103): every word is one command or illegal, and no mode changes it (R100). -/
def decode (c : CmdWord) : Decoded :=
  if reservedField c ≠ 0 then .illegal .reservedBits else decodeOpcode (opcodeField c) (widthField c)

/-- The decoder on an instruction numbered as the opcode table numbers it: bit 0 the least significant bit of the one
32-bit word; of `w` the low `nbits` bits count and the bits above them are 0. No command is longer than one word (R107). -/
def decodeTableWord (nbits w : Nat) : Option Instr :=
  if 2 ^ 32 ≤ w % 2 ^ nbits then none
  else
    match decode (BitVec.ofNat 32 (w % 2 ^ nbits)) with
    | .instr i => some i
    | .illegal _ => none

/-- The OPCODE of a command (30_encoding.md R104). -/
def opcodeOf : Instr → Nat
  | .nop => 0x00
  | .rdOpen => 0x01
  | .rdBit => 0x02
  | .rdByte => 0x03
  | .rdInt32 => 0x04
  | .rdInt64 => 0x05
  | .rdBits _ => 0x06
  | .rdExhausted => 0x07
  | .wrOpen => 0x10
  | .wrBit => 0x11
  | .wrByte => 0x12
  | .wrInt32 => 0x13
  | .wrInt64 => 0x14
  | .wrBits _ => 0x15
  | .wrFlush => 0x16
  | .hufCompress => 0x20
  | .hufDecompress => 0x21
  | .lzwCompress => 0x30
  | .lzwDecompress => 0x31
  | .arcPack => 0x40
  | .arcUnpack => 0x41

/-- The WIDTH of a command, 0 for every command but RD_BITS and WR_BITS (30_encoding.md R100). -/
def widthOf : Instr → Nat
  | .rdBits w => w
  | .wrBits w => w
  | .nop | .rdOpen | .rdBit | .rdByte | .rdInt32 | .rdInt64 | .rdExhausted => 0
  | .wrOpen | .wrBit | .wrByte | .wrInt32 | .wrInt64 | .wrFlush => 0
  | .hufCompress | .hufDecompress | .lzwCompress | .lzwDecompress | .arcPack | .arcUnpack => 0

/-- The word of a command: `OPCODE·2^24 + WIDTH` (30_encoding.md R104), for a well-formed command. -/
def encode (i : Instr) : CmdWord := BitVec.ofNat 32 (opcodeOf i * 2 ^ 24 + widthOf i)

end Sys2Proof
end

