-- ==== Sys2Proof/Config.lean ====
section
/-! DEFINITION. What an instance of the hardware fixes (00_scope.md R10, R11) and the values the spec does not state. -/

namespace Sys2Proof

/-- The configuration triple `(R, L, W)` of 00_scope.md R10: alphabet size, table capacity and codeword width,
fixed for an instance of the hardware. A triple that breaks R11 is no value of this type: R11 and
93_implementation_defined.md I10 say that no instance has it. -/
structure Config where
  /-- the alphabet size `R` -/
  R : Nat
  /-- the table capacity `L` -/
  L : Nat
  /-- the codeword width `W` -/
  W : Nat
  /-- the bounds of 00_scope.md R11 -/
  legal : (1 ≤ R ∧ R ≤ 256) ∧ (R + 1 ≤ L ∧ L ≤ 2 ^ W) ∧ (1 ≤ W ∧ W ≤ 32)
deriving DecidableEq, Repr

/-- The default instance, `(256, 4096, 12)` (00_scope.md R2, R10). -/
def Config.standard : Config := ⟨256, 4096, 12, by decide⟩

/-- The configuration of a triple, or nothing where 00_scope.md R11 refuses it. -/
def Config.ofTriple (R L W : Nat) : Option Config :=
  if h : (1 ≤ R ∧ R ≤ 256) ∧ (R + 1 ≤ L ∧ L ≤ 2 ^ W) ∧ (1 ≤ W ∧ W ≤ 32) then some ⟨R, L, W, h⟩ else none

/-- FREE VALUE (log 5). What the 64-bit RES holds after a command whose output length, the argument, is
`2^64` or more: 30_encoding.md R105 gives RES the length and states no value for a length that does not fit. -/
opaque Config.resOfLongLength : Nat → BitVec 64

/-- FREE VALUE (log 6). What the 32-bit CFG_L reads as when `L = 2^32`: 10_state.md R37 gives it `L` zero-extended
to 32 bits and states no value for an `L` that does not fit. The argument is `L`. -/
opaque Config.cfgOfLongCapacity : Nat → BitVec 32

end Sys2Proof
end

