-- ==== Sys2Proof/Machine/State.lean ====
section
/-! DEFINITION. The state of the machine: the registers, buffers and cursors of 10_state.md, the host's pending actions,
and the state after reset. -/

namespace Sys2Proof.Machine

/-- The result codes of STATUS.CODE (60_exceptions.md R401). The codes 9 to 15 are not used and are never written, so
no value of this type stands for them (93_implementation_defined.md I12). -/
inductive ResultCode where
  /-- 0: success -/
  | ok
  /-- 1: host-side only, never written by the engine (R403) -/
  | notFound
  /-- 2: host-side only, never written by the engine (R403) -/
  | alreadyExists
  /-- 3: host-side only, never written by the engine (R403) -/
  | isADirectory
  /-- 4: a width, a value or an input length out of range -/
  | invalidArgument
  /-- 5: a raw read past the available bits -/
  | endOfStream
  /-- 6: a structurally invalid stream met by a decompress command -/
  | corruptData
  /-- 7: host-side only, never written by the engine (R403) -/
  | ioError
  /-- 8: an illegal command word -/
  | illegalCommand
deriving DecidableEq, Repr

/-- An archive entry `(name, content)` (10_state.md R43); its size is the length of the content. -/
structure Entry where
  name : Bytes
  content : Bytes
deriving DecidableEq, Repr

/-- The seven host-visible registers (10_state.md R31). -/
inductive HostReg where
  | cmd | arg | res | status | cfgR | cfgL | cfgW
deriving DecidableEq, Repr

/-- The registers a host write to which is ignored (10_state.md R38). -/
inductive ReadOnlyReg where
  | res | status | cfgR | cfgL | cfgW
deriving DecidableEq, Repr

/-- The host actions of 70_reset_and_hazards.md R461, and the ignored write of 10_state.md R38. -/
inductive HostAction where
  /-- `RESET` (R450) -/
  | reset
  /-- `SETARG v` -/
  | setArg (v : BitVec 64)
  /-- `LOAD_SRC bytes` -/
  | loadSrc (bytes : Bytes)
  /-- `LOAD_SRC DST` -/
  | loadSrcDst
  /-- `LOAD_EIN entries` -/
  | loadEin (entries : List Entry)
  /-- a write of the word `c` to CMD: a command by its mnemonic, or `CMD c` (10_state.md R32) -/
  | writeCmd (c : CmdWord)
  /-- a host write to a read-only register: no effect (10_state.md R38) -/
  | writeReadOnly (r : ReadOnlyReg) (v : BitVec 64)
  /-- `READ` of a register -/
  | readReg (r : HostReg)
  /-- `READ DST` -/
  | readDst
  /-- `READ EOUT` -/
  | readEout
deriving DecidableEq, Repr

/-- What a READ action gives the host (70_reset_and_hazards.md R461). -/
inductive HostValue where
  /-- a register's value; the 32-bit registers zero-extended -/
  | reg (r : HostReg) (v : BitVec 64)
  | dst (bytes : Bytes)
  | eout (entries : List Entry)
deriving DecidableEq, Repr

/-- Why the machine would stop. It has no constructor, because this machine has no fault: every failure is a result
code in STATUS.CODE, after which the engine accepts the next command (60_exceptions.md R400, R421). -/
inductive Fault where
deriving DecidableEq, Repr

/-- Why the model gives an instruction no meaning. -/
inductive Refusal where
  /-- Raised by `exec` for an instruction that has no meaning yet; safe. No instruction of this model is left so. -/
  | notModelled (mnemonic : String)
deriving DecidableEq, Repr

/-- The state of the engine, and, in the last two fields, the model's own record of the host. -/
structure State where
  /-- CMD, the last command word written (10_state.md R32) -/
  cmd : CmdWord
  /-- ARG, the operand of the write commands (R34) -/
  arg : BitVec 64
  /-- RES, the result of the last command that gives one (R35) -/
  res : BitVec 64
  /-- STATUS.CODE (R36); the other fields of STATUS are live views, `State.statusWord` -/
  code : ResultCode
  /-- the configuration CFG_R, CFG_L and CFG_W show (R37) -/
  cfg : Config
  /-- SRC, the input bytes (R39) -/
  src : Bytes
  /-- RPOS, the number of bits of SRC already consumed (R40) -/
  rpos : Nat
  /-- DST, the output bytes (R41) -/
  dst : Bytes
  /-- WACC, the writer accumulator (R42) -/
  wacc : BitVec 8
  /-- WCNT, the number of bits pending in WACC, `0..7` between commands (R42) -/
  wcnt : Nat
  /-- EIN, the input entry list (R43) -/
  ein : List Entry
  /-- EOUT, the output entry list (R44) -/
  eout : List Entry
  /-- MODEL'S OWN (log 1): the host actions not yet taken, the next one first -/
  host : List HostAction
  /-- MODEL'S OWN (log 2): what the READ actions have given the host, oldest first -/
  returned : List HostValue
deriving DecidableEq, Repr

/-- The writer's part of the state (10_state.md R41, R42). -/
structure Writer where
  dst : Bytes
  wacc : BitVec 8
  wcnt : Nat
deriving DecidableEq, Repr

/-- The state after reset of an instance with configuration `cfg` (10_state.md R60; 70_reset_and_hazards.md R450),
with no host action pending. -/
def State.resetOf (cfg : Config) : State where
  cmd := 0
  arg := 0
  res := 0
  code := .ok
  cfg := cfg
  src := []
  rpos := 0
  dst := []
  wacc := 0
  wcnt := 0
  ein := []
  eout := []
  host := []
  returned := []

/-- The state after reset of the default instance `(256, 4096, 12)` (00_scope.md R2). -/
def State.reset : State := State.resetOf Config.standard

/-! The updates of single registers. -/

/-- `CMD <- c` -/
def State.withCmd (c : CmdWord) (s : State) : State := { s with cmd := c }
/-- `ARG <- v` -/
def State.withArg (v : BitVec 64) (s : State) : State := { s with arg := v }
/-- `RES <- v` -/
def State.withRes (v : BitVec 64) (s : State) : State := { s with res := v }
/-- `STATUS.CODE <- e` -/
def State.withCode (e : ResultCode) (s : State) : State := { s with code := e }
/-- `SRC <- b` -/
def State.withSrc (b : Bytes) (s : State) : State := { s with src := b }
/-- `RPOS <- n` -/
def State.withRpos (n : Nat) (s : State) : State := { s with rpos := n }
/-- DST, WACC and WCNT -/
def State.withWriter (w : Writer) (s : State) : State := { s with dst := w.dst, wacc := w.wacc, wcnt := w.wcnt }
/-- `EIN <- e` -/
def State.withEin (e : List Entry) (s : State) : State := { s with ein := e }
/-- `EOUT <- e` -/
def State.withEout (e : List Entry) (s : State) : State := { s with eout := e }
/-- the host's pending actions -/
def State.withHost (h : List HostAction) (s : State) : State := { s with host := h }
/-- what the host has read -/
def State.withReturned (r : List HostValue) (s : State) : State := { s with returned := r }

/-- The writer registers of a state. -/
def State.writer (s : State) : Writer := ⟨s.dst, s.wacc, s.wcnt⟩

end Sys2Proof.Machine
end

