-- ==== Sys2Proof/Machine/Bits.lean ====
section
/-! DEFINITION. Bits, bytes and fields of a stream: most significant bit first, big-endian, unsigned
(00_scope.md R16; 20_memory.md R70, R71, R73). -/

namespace Sys2Proof.Machine

/-- `bitsOf_w(v)`: the `w` low bits of `v`, most significant first (00_scope.md R16). -/
def bitsOf : Nat → Nat → Bits
  | 0, _ => []
  | w + 1, v => v.testBit w :: bitsOf w v

/-- `val(bs)`: the unsigned value of a list of bits, most significant first (00_scope.md R16; 20_memory.md R73). -/
def bitsVal (bs : Bits) : Nat := bs.foldl (fun v b => 2 * v + b.toNat) 0

/-- The bits of one byte, bit 7 first (20_memory.md R71). -/
def byteBits (b : Byte) : Bits := bitsOf 8 b.toNat

/-- `streamBits(B)`: the bits of a byte sequence in stream order (00_scope.md R16). -/
def streamBits (bytes : Bytes) : Bits := bytes.flatMap byteBits

/-- `bytesOf_w(v)` for `w = 8·k`: the `k` bytes of `v`, most significant first (30_encoding.md R116; 20_memory.md R70). -/
def bytesOf : Nat → Nat → Bytes
  | 0, _ => []
  | k + 1, v => BitVec.ofNat 8 (v / 256 ^ k) :: bytesOf k v

/-- The unsigned big-endian value of a byte sequence (20_memory.md R70, R73). -/
def bytesVal (bytes : Bytes) : Nat := bytes.foldl (fun v b => 256 * v + b.toNat) 0

end Sys2Proof.Machine
end

