-- ==== Sys2Proof/Machine/Operands.lean ====
section
/-! DEFINITION. The operands of the commands (WIDTH and ARG, 30_encoding.md R101, R102), the derived constants of the
configuration (00_scope.md R12, R14), and how a length becomes a register's value. -/

namespace Sys2Proof.Machine

/-- The legal widths of RD_BITS and WR_BITS, `1..32` (30_encoding.md R101). -/
def widthLegal (w : Nat) : Bool := decide (1 ≤ w ∧ w ≤ 32)

/-- ARG fits a field of `w` bits (30_encoding.md R102). -/
def State.argFits (s : State) (w : Nat) : Bool := decide (s.arg.toNat < 2 ^ w)

/-- `SENTINEL = R`, the LZW end-of-stream code (00_scope.md R12). -/
def sentinel (cfg : Config) : Nat := cfg.R

/-- `FIRST_FREE = R + 1`, the first code of a new dictionary entry (00_scope.md R12; 90_conflicts.md C1). -/
def firstFree (cfg : Config) : Nat := cfg.R + 1

/-- `SEP = R - 1`, the archive separator byte (00_scope.md R12). -/
def separator (cfg : Config) : Byte := BitVec.ofNat 8 (cfg.R - 1)

/-- `HUF_MAX_LEN = 2^32 - 1`, the longest input of HUF_COMPRESS (00_scope.md R14). -/
def hufMaxLen : Nat := 2 ^ 32 - 1

/-- `HUF_MAX_NODES = 511`, the most trie nodes HUF_DECOMPRESS accepts (00_scope.md R14). -/
def hufMaxNodes : Nat := 511

/-- The value of RES for an output length (30_encoding.md R105). A length of `2^64` or more does not fit RES and the
spec states no value for it: a free value (log 5). -/
def lengthValue (n : Nat) : BitVec 64 := if n < 2 ^ 64 then BitVec.ofNat 64 n else Config.resOfLongLength n

/-- CFG_R: `R` zero-extended to 32 bits (10_state.md R37). -/
def cfgRValue (cfg : Config) : BitVec 32 := BitVec.ofNat 32 cfg.R

/-- CFG_L: `L` zero-extended to 32 bits (10_state.md R37). The one legal `L` that does not fit, `2^32`, reads as a free
value (log 6). -/
def cfgLValue (cfg : Config) : BitVec 32 :=
  if cfg.L < 2 ^ 32 then BitVec.ofNat 32 cfg.L else Config.cfgOfLongCapacity cfg.L

/-- CFG_W: `W` zero-extended to 32 bits (10_state.md R37). -/
def cfgWValue (cfg : Config) : BitVec 32 := BitVec.ofNat 32 cfg.W

end Sys2Proof.Machine
end

