-- ==== Sys2Proof/Machine/Flags.lean ====
section
/-! DEFINITION. The STATUS register: the result code and the live flags (10_state.md R36, R45). -/

namespace Sys2Proof.Machine

/-- The number of a result code in STATUS.CODE (60_exceptions.md R401). -/
def ResultCode.toBits : ResultCode → BitVec 4
  | .ok => 0
  | .notFound => 1
  | .alreadyExists => 2
  | .isADirectory => 3
  | .invalidArgument => 4
  | .endOfStream => 5
  | .corruptData => 6
  | .ioError => 7
  | .illegalCommand => 8

/-- `Exhausted()`: no bit of SRC remains unread; padding bits count as readable (40_reader.md R152). It answers with the
cursor at or past the last bit; past it stands only in a state no run reaches (log 11). -/
def State.exhausted (s : State) : Bool := decide (8 * s.src.length ≤ s.rpos)

/-- STATUS as the host reads it (10_state.md R36): BUSY (bit 31, never seen as 1, 60_exceptions.md R430), 23 reserved
bits that read 0, RDEXH (bit 7), WCNT (bits 6:4), CODE (bits 3:0). -/
def State.statusWord (s : State) : BitVec 32 :=
  (0#1 ++ 0#23 ++ BitVec.ofBool s.exhausted ++ BitVec.ofNat 3 s.wcnt ++ s.code.toBits : BitVec 32)

end Sys2Proof.Machine
end

