-- ==== Sys2Proof/Machine/Ops.lean ====
section
/-! DEFINITION. The shared operations of the commands: reading and writing bits, flushing, opening the streams, and how a
command ends, with success or by raising a failure. -/

namespace Sys2Proof.Machine

/-! ## Reading -/

/-- What a read from a list of unread bits gives: a value and the bits that remain, or a failure and the bits that
remain. Inside a command the reader's cursor is the list of the bits not yet read (10_state.md R40). -/
inductive Parse (α : Type) where
  | ok (a : α) (rest : Bits)
  | fail (e : ResultCode) (rest : Bits)
deriving DecidableEq, Repr

/-- Go on with what was read; a failure ends the reading at once (00_scope.md R19). -/
def Parse.andThen {α β : Type} (p : Parse α) (f : α → Bits → Parse β) : Parse β :=
  match p with
  | .ok a rest => f a rest
  | .fail e rest => .fail e rest

/-- `ReadBits(n)` on the unread bits (40_reader.md R151): the next `n` of them as an unsigned value, most significant
first. With fewer than `n` unread the read fails with `EndOfStream` and consumes every bit. -/
def takeBits (n : Nat) (bits : Bits) : Parse Nat :=
  if (bits.take n).length < n then .fail .endOfStream [] else .ok (bitsVal (bits.take n)) (bits.drop n)

/-- The bits of SRC not yet consumed (10_state.md R40). -/
def State.unread (s : State) : Bits := (streamBits s.src).drop s.rpos

/-- `ReadBits(n)` as a reader command does it (40_reader.md R151): the value, or none for `EndOfStream`, and the state
with RPOS moved past the bits read, or to the end after a failure. -/
def State.readBits (n : Nat) (s : State) : Option Nat × State :=
  match takeBits n s.unread with
  | .ok v _ => (some v, s.withRpos (s.rpos + n))
  | .fail _ _ => (none, s.withRpos (8 * s.src.length))

/-- The reader left where only `rest` is unread: RPOS as 10_state.md R40 counts it. -/
def State.leaveReader (rest : Bits) (s : State) : State := s.withRpos (8 * s.src.length - rest.length)

/-- The reader opened at bit 0 of SRC (40_reader.md R153; 42_huffman.md R210). -/
def State.openReader (s : State) : State := s.withRpos 0

/-- The reader after the whole of SRC has been read (42_huffman.md R221; 43_lzw.md R266). -/
def State.readAll (s : State) : State := s.withRpos (8 * s.src.length)

/-! ## Writing -/

/-- One pass of the loop of `WriteBits` (41_writer.md R181): the bit enters WACC from the right, and a byte that is
complete goes to DST at once. -/
def Writer.push (w : Writer) (b : Bool) : Writer :=
  let acc : BitVec 8 := BitVec.ofNat 8 (2 * w.wacc.toNat + b.toNat)
  if w.wcnt + 1 = 8 then ⟨w.dst ++ [acc], 0, 0⟩ else ⟨w.dst, acc, w.wcnt + 1⟩

/-- Bits written one after the other, the first of the list first. -/
def Writer.pushBits (w : Writer) (bits : Bits) : Writer := bits.foldl Writer.push w

/-- `Flush()` (41_writer.md R182): the pending bits, padded with zeros on the low end, become a byte of DST; with
nothing pending nothing is written. -/
def Writer.flush (w : Writer) : Writer :=
  if 0 < w.wcnt then ⟨w.dst ++ [BitVec.ofNat 8 (w.wacc.toNat * 2 ^ (8 - w.wcnt))], 0, 0⟩ else w

/-- A run of `WriteBits`: the bits of a list appended to the output stream. -/
def State.writeBitList (bits : Bits) (s : State) : State := s.withWriter (s.writer.pushBits bits)

/-- `WriteBits(v, n)` (41_writer.md R181): `bitsOf_n(v)` appended to the output stream, most significant first. -/
def State.writeBits (v n : Nat) (s : State) : State := s.writeBitList (bitsOf n v)

/-- `WriteBits(b, 8)` for each byte of a sequence in order. -/
def State.writeBytes (bytes : Bytes) (s : State) : State := s.writeBitList (streamBits bytes)

/-- `Flush()` (41_writer.md R182). -/
def State.flush (s : State) : State := s.withWriter s.writer.flush

/-- The writer opened on an empty DST, pending bits discarded (41_writer.md R183; 42_huffman.md R210). -/
def State.openWriter (s : State) : State := s.withWriter ⟨[], 0, 0⟩

/-! ## How a command ends -/

/-- `raise E` (60_exceptions.md R410): STATUS.CODE <- E. This is how this machine takes an exception: there is no vector, no
saved state and no mode change (R400), and so no return from one (R420). What was changed before the raise stays (R411). -/
def State.raise (e : ResultCode) (s : State) : State := s.withCode e

/-- A command's pseudocode ends without `raise`: STATUS.CODE <- OK (40_reader.md R150; 41_writer.md R180). -/
def State.done (s : State) : State := s.withCode .ok

/-- A reader command's end: the value read, zero-extended, in RES (10_state.md R35), or `EndOfStream` with RES unchanged. -/
def State.readToRes (n : Nat) (s : State) : State :=
  match s.readBits n with
  | (some v, t) => (t.withRes (BitVec.ofNat 64 v)).done
  | (none, t) => t.raise .endOfStream

/-- A writer command's end: ARG written as `w` bits when it fits, else `InvalidArgument` before any bit is written
(30_encoding.md R102; 41_writer.md R180). -/
def State.writeArg (w : Nat) (s : State) : State :=
  if s.argFits w then (s.writeBits s.arg.toNat w).done else s.raise .invalidArgument

/-- A codec command fails: it flushes and raises (60_exceptions.md R410, R412). -/
def State.codecRaise (e : ResultCode) (s : State) : State := s.flush.raise e

/-- A codec command whose result is `|DST|` succeeds: it flushes and writes RES (60_exceptions.md R412; 30_encoding.md R105). -/
def State.codecDone (s : State) : State := (s.flush.withRes (lengthValue s.flush.dst.length)).done

/-- Inside a decompress command an `EndOfStream` is reported as `CorruptData` (60_exceptions.md R402; decision D15). -/
def asCorrupt : ResultCode → ResultCode
  | .endOfStream => .corruptData
  | .ok => .ok
  | .notFound => .notFound
  | .alreadyExists => .alreadyExists
  | .isADirectory => .isADirectory
  | .invalidArgument => .invalidArgument
  | .corruptData => .corruptData
  | .ioError => .ioError
  | .illegalCommand => .illegalCommand

/-- What a decoder makes of a stream: the bytes it emitted, the bits it left unread, and its failure if it failed. The
bytes emitted before a failure count (60_exceptions.md R411). -/
structure DecodeResult where
  out : Bytes
  rest : Bits
  err : Option ResultCode
deriving DecidableEq, Repr

/-- One more byte string emitted before what a decoder went on to emit. -/
def DecodeResult.emit (s : Bytes) (r : DecodeResult) : DecodeResult := { r with out := s ++ r.out }

/-- A decompress command's end (42_huffman.md R230, R235, R236; 43_lzw.md R270, R274, R275): the bytes emitted go to DST, the
reader stands after the last bit read, and the command succeeds or raises `CorruptData`. -/
def State.finishDecode (r : DecodeResult) (s : State) : State :=
  match r.err with
  | none => ((s.leaveReader r.rest).writeBytes r.out).codecDone
  | some e => ((s.leaveReader r.rest).writeBytes r.out).codecRaise (asCorrupt e)

end Sys2Proof.Machine
end

