-- ==== Sys2Proof/Machine/Lzw.lean ====
section
/-! DEFINITION. The LZW encoder and decoder (43_lzw.md; the stream, 30_encoding.md R114, R115). -/

namespace Sys2Proof.Machine

/-- The dictionary, a map between codes and non-empty byte strings, and NEXT, the next free code (10_state.md R47).
The entries stand in the order of their codes. -/
structure Dict where
  entries : List (Nat × Bytes)
  next : Nat
deriving DecidableEq, Repr

/-- `Seed()` (43_lzw.md R260): the `R` single-byte strings, and NEXT at `R + 1`. -/
def seedDict (cfg : Config) : Dict :=
  ⟨(List.range cfg.R).map fun c => (c, [BitVec.ofNat 8 c]), firstFree cfg⟩

/-- A new entry at code NEXT, after which NEXT is one more (43_lzw.md R261). -/
def Dict.add (d : Dict) (s : Bytes) : Dict := ⟨d.entries ++ [(d.next, s)], d.next + 1⟩

/-- The table is not full: entries are added only while `NEXT < L` (43_lzw.md R261). -/
def Dict.hasRoom (cfg : Config) (d : Dict) : Bool := decide (d.next < cfg.L)

/-- The code-to-string direction, the decoder's. -/
def Dict.stringOf (d : Dict) (code : Nat) : Option Bytes := d.entries.lookup code

/-! ## Encoding -/

/-- The entry whose string is the longest dictionary string that begins `x` (43_lzw.md R262): its length is
`LongestPrefix(x)` and its code is what the encoder emits. -/
def longestMatch : List (Nat × Bytes) → Bytes → Option (Nat × Bytes)
  | [], _ => none
  | e :: es, x =>
    if e.2.isPrefixOf x then
      match longestMatch es x with
      | none => some e
      | some m => if e.2.length < m.2.length then some m else some e
    else longestMatch es x

/-- The insertion of the encoder (43_lzw.md R264): the match plus the next input byte, when the match is shorter than the
remaining input and the table is not full. -/
def encoderInsert (cfg : Config) (d : Dict) (data : Bytes) (t : Nat) : Dict :=
  if decide (t < data.length) && d.hasRoom cfg then d.add (data.take (t + 1)) else d

/-- The loop of `LzwEncode` (43_lzw.md R263): the codes of the longest matches. Each pass consumes at least one byte, so
as many passes as there are bytes are enough (R265). A match always exists: every byte of the input is a seed (R262). -/
def lzwCodes (cfg : Config) : Nat → Dict → Bytes → List Nat
  | 0, _, _ => []
  | _ + 1, _, [] => []
  | fuel + 1, d, b :: bs =>
    match longestMatch d.entries (b :: bs) with
    | none => []
    | some m =>
      m.1 :: lzwCodes cfg fuel (encoderInsert cfg d (b :: bs) m.2.length) ((b :: bs).drop m.2.length)

/-- The codewords of an input, the sentinel last (43_lzw.md R263, R265). -/
def lzwCodewords (cfg : Config) (data : Bytes) : List Nat :=
  lzwCodes cfg data.length (seedDict cfg) data ++ [sentinel cfg]

/-- The bits `LzwEncode` writes: each codeword as `W` bits (30_encoding.md R114). -/
def lzwEncode (cfg : Config) (data : Bytes) : Bits := (lzwCodewords cfg data).flatMap (bitsOf cfg.W)

/-- Every byte is in the alphabet, `< R` (43_lzw.md R266). -/
def inAlphabet (cfg : Config) (data : Bytes) : Bool := data.all fun b => decide (b.toNat < cfg.R)

/-- LZW_COMPRESS (43_lzw.md R263, R266). -/
def execLzwCompress (s : State) : Host.Outcome State Fault Refusal :=
  if inAlphabet s.cfg s.src then
    .next (s.openReader.openWriter.readAll.writeBitList (lzwEncode s.cfg s.src)).codecDone
  else .next (s.openReader.openWriter.readAll.codecRaise .invalidArgument)

/-! ## Decoding -/

/-- The string of the self-reference case (43_lzw.md R272): the previous string and its own first byte. -/
def selfReference (prev : Bytes) : Bytes := prev ++ prev.take 1

/-- `Resolve(cw)` (43_lzw.md R270 to R272): an assigned entry, or the self-reference case, or unassigned. -/
def resolveCode (cfg : Config) (d : Dict) (prev : Option Bytes) (cw : Nat) : Option Bytes :=
  if cw < cfg.R ∨ (cfg.R < cw ∧ cw < d.next) then d.stringOf cw
  else if decide (cw = d.next) && d.hasRoom cfg then prev.map selfReference
  else none

/-- The insertion of the decoder (43_lzw.md R273): the previous string and the first byte of the current one, when there
is a previous string and the table is not full. -/
def decoderInsert (cfg : Config) (d : Dict) (prev : Option Bytes) (s : Bytes) : Dict :=
  match prev with
  | none => d
  | some p => if d.hasRoom cfg then d.add (p ++ s.take 1) else d

/-- The loop of `LzwDecode` (43_lzw.md R270, R274), at the codeword just read. It ends at the sentinel, or when the
stream is exhausted; else it resolves and emits the codeword and reads the next. Each pass reads `W ≥ 1` bits, so the
bound, one more than the bits unread, is never what ends the loop. -/
def lzwLoop (cfg : Config) : Nat → Dict → Option Bytes → Nat → Bits → DecodeResult
  | 0, _, _, _, bits => ⟨[], bits, none⟩
  | fuel + 1, d, prev, cw, bits =>
    if cw = sentinel cfg ∨ bits = [] then ⟨[], bits, none⟩
    else
      match resolveCode cfg d prev cw with
      | none => ⟨[], bits, some .corruptData⟩
      | some s =>
        match takeBits cfg.W bits with
        | .fail e rest => ⟨s, rest, some e⟩
        | .ok cw' rest => (lzwLoop cfg fuel (decoderInsert cfg d prev s) (some s) cw' rest).emit s

/-- `LzwDecode` (43_lzw.md R270): the first codeword, then the loop. -/
def lzwDecode (cfg : Config) (bits : Bits) : DecodeResult :=
  match takeBits cfg.W bits with
  | .fail e rest => ⟨[], rest, some e⟩
  | .ok cw rest => lzwLoop cfg (rest.length + 1) (seedDict cfg) none cw rest

/-- LZW_DECOMPRESS (43_lzw.md R270, R274, R275). -/
def execLzwDecompress (s : State) : Host.Outcome State Fault Refusal :=
  .next (s.openReader.openWriter.finishDecode (lzwDecode s.cfg (streamBits s.src)))

end Sys2Proof.Machine
end

