-- ==== Sys2Proof/Machine/Archive.lean ====
section
/-! DEFINITION. Archive pack and unpack (44_archive.md; the blob, 30_encoding.md R116 to R118). -/

namespace Sys2Proof.Machine

/-! ## ARC_PACK -/

/-- `frame(name, content)` (30_encoding.md R116; 44_archive.md R312). -/
def frameOf (cfg : Config) (e : Entry) : Bytes :=
  bytesOf 4 e.name.length ++ [separator cfg] ++ e.name ++ [separator cfg]
    ++ bytesOf 8 e.content.length ++ [separator cfg] ++ e.content

/-- The blob of an entry list: the frames in order, a separator between successive ones (44_archive.md R312, R313). -/
def blobOf (cfg : Config) : List Entry → Bytes
  | [] => []
  | [e] => frameOf cfg e
  | e :: e' :: es => frameOf cfg e ++ [separator cfg] ++ blobOf cfg (e' :: es)

/-- The name and the content fit their length fields (44_archive.md R314). -/
def entryFits (e : Entry) : Bool := decide (e.name.length < 2 ^ 32 ∧ e.content.length < 2 ^ 64)

/-- ARC_PACK (44_archive.md R311, R314, R315): SRC and RPOS are untouched. -/
def execArcPack (s : State) : Host.Outcome State Fault Refusal :=
  if s.ein.all entryFits && inAlphabet s.cfg (blobOf s.cfg s.ein) then
    .next (s.openWriter.writeBitList (lzwEncode s.cfg (blobOf s.cfg s.ein))).codecDone
  else .next (s.openWriter.codecRaise .invalidArgument)

/-! ## ARC_UNPACK -/

/-- `TakeBytes(k)` (44_archive.md R320, R322) on the bytes of the blob not yet parsed: none for `CorruptData`. -/
def takeBytes (k : Nat) (blob : Bytes) : Option (Bytes × Bytes) :=
  if blob.length < k then none else some (blob.take k, blob.drop k)

/-- `Expect(SEP)` (44_archive.md R320, R323): the bytes after a separator, or none for `CorruptData`. -/
def expectSep (cfg : Config) (blob : Bytes) : Option Bytes :=
  match takeBytes 1 blob with
  | none => none
  | some (b, rest) => if b = [separator cfg] then some rest else none

/-- One entry of the blob (44_archive.md R320): name length, name, size, content, with the separators between them;
and the bytes after it. -/
def parseEntry (cfg : Config) (blob : Bytes) : Option (Entry × Bytes) :=
  (takeBytes 4 blob).bind fun n =>
    (expectSep cfg n.2).bind fun b =>
      (takeBytes (bytesVal n.1) b).bind fun name =>
        (expectSep cfg name.2).bind fun b =>
          (takeBytes 8 b).bind fun size =>
            (expectSep cfg size.2).bind fun b =>
              (takeBytes (bytesVal size.1) b).map fun content => (⟨name.1, content.1⟩, content.2)

/-- What parsing gives: the entries completed, and whether the blob was well formed to its end (44_archive.md R325). -/
structure ParseResult where
  entries : List Entry
  complete : Bool
deriving DecidableEq, Repr

/-- The loop of `ParseBlob` (44_archive.md R320, R324). Each entry takes at least one byte, so the bound, the number of bytes
and one more, is never what ends the loop. -/
def parseLoop (cfg : Config) : Nat → Bytes → ParseResult
  | 0, _ => ⟨[], false⟩
  | fuel + 1, blob =>
    match parseEntry cfg blob with
    | none => ⟨[], false⟩
    | some (e, rest) =>
      if rest = [] then ⟨[e], true⟩
      else
        match expectSep cfg rest with
        | none => ⟨[e], false⟩
        | some rest =>
          let r := parseLoop cfg fuel rest
          ⟨e :: r.entries, r.complete⟩

/-- `ParseBlob()` (44_archive.md R320): an empty blob has no entries (R326). -/
def parseBlob (cfg : Config) (blob : Bytes) : ParseResult :=
  if blob = [] then ⟨[], true⟩ else parseLoop cfg (blob.length + 1) blob

/-- The end of a successful ARC_UNPACK: flush, and RES <- |EOUT| (44_archive.md R320; 30_encoding.md R105). -/
def State.unpackDone (s : State) : State := (s.flush.withRes (lengthValue s.eout.length)).done

/-- The parsing stage of ARC_UNPACK: the entries completed go to EOUT, on success and on failure (44_archive.md R325). -/
def State.finishUnpack (r : ParseResult) (s : State) : State :=
  if r.complete then (s.withEout r.entries).unpackDone else (s.withEout r.entries).codecRaise .corruptData

/-- ARC_UNPACK (44_archive.md R320, R321, R325): the whole blob is decoded before any entry is parsed. -/
def execArcUnpack (s : State) : Host.Outcome State Fault Refusal :=
  let t := (s.openReader.openWriter.withEout []).leaveReader (lzwDecode s.cfg (streamBits s.src)).rest
  match (lzwDecode s.cfg (streamBits s.src)).err with
  | some e => .next (t.codecRaise (asCorrupt e))
  | none => .next (t.finishUnpack (parseBlob s.cfg (lzwDecode s.cfg (streamBits s.src)).out))

end Sys2Proof.Machine
end

