-- ==== Sys2Proof/Machine/Control.lean ====
section
/-! DEFINITION. NOP and the response to an illegal command word (45_control.md). -/

namespace Sys2Proof.Machine

/-- NOP (45_control.md R350): it writes STATUS.CODE and nothing else. -/
def execNop (s : State) : Host.Outcome State Fault Refusal := .next s.done

/-- The response to an illegal command word (45_control.md R351): STATUS.CODE <- IllegalCommand and nothing else. -/
def illegalResponse (s : State) : State := s.raise .illegalCommand

end Sys2Proof.Machine
end

