-- ==== Sys2Proof/Machine/Huffman.lean ====
section
/-! DEFINITION. The Huffman encoder and decoder (42_huffman.md; the stream, 30_encoding.md R110 to R113). -/

namespace Sys2Proof.Machine

/-- A node of the encoder's trie, with its weight (10_state.md R46). Weights are exact naturals: they are at most the
input length, so the 32 bits of the hardware never overflow (42_huffman.md R212; log 8). -/
inductive WTrie where
  | leaf (symbol : Byte) (weight : Nat)
  | internal (weight : Nat) (left right : WTrie)
deriving DecidableEq, Repr

/-- A node of the decoder's trie: it holds no weights (10_state.md R46). -/
inductive Trie where
  | leaf (symbol : Byte)
  | internal (left right : Trie)
deriving DecidableEq, Repr

/-! ## HUF_COMPRESS -/

/-- The weight of a node. -/
def WTrie.weight : WTrie → Nat
  | .leaf _ w => w
  | .internal w _ _ => w

/-- The shape and symbols of a trie, without its weights: what the preamble describes (30_encoding.md R111). -/
def WTrie.shape : WTrie → Trie
  | .leaf s _ => .leaf s
  | .internal _ l r => .internal l.shape r.shape

/-- `Tally(data)`: how often a symbol occurs (42_huffman.md R212). -/
def tally (data : Bytes) (s : Byte) : Nat := data.count s

/-- The leaves of the symbols that occur, in ascending symbol order, numbered from 0 (42_huffman.md R214). -/
def leafQueue (data : Bytes) : List (WTrie × Nat) :=
  ((((List.range 256).map (BitVec.ofNat 8)).filter fun s => decide (0 < tally data s)).map fun s =>
    WTrie.leaf s (tally data s)).zipIdx

/-- `(weight, seq)` of one pair is less than that of another, lexicographically (42_huffman.md R214). -/
def pairBefore (x y : WTrie × Nat) : Bool :=
  decide (x.1.weight < y.1.weight ∨ (x.1.weight = y.1.weight ∧ x.2 < y.2))

/-- `ExtractMin` (42_huffman.md R214): the pair with the least `(weight, seq)`, and the others in their order. -/
def extractMin : List (WTrie × Nat) → Option ((WTrie × Nat) × List (WTrie × Nat))
  | [] => none
  | x :: pq =>
    match extractMin pq with
    | none => some (x, pq)
    | some (m, others) => if pairBefore m x then some (m, x :: others) else some (x, pq)

/-- The merge loop of `BuildTrie` (42_huffman.md R214, HUF_ORDER = stable-fifo): the first extracted node becomes the
left child, and the merged node takes the next `seq`. Each pass leaves one pair fewer, so as many passes as there are
pairs are enough. -/
def mergeLoop : Nat → Nat → List (WTrie × Nat) → Option WTrie
  | 0, _, pq => pq.head?.map Prod.fst
  | fuel + 1, seq, pq =>
    match extractMin pq with
    | none => none
    | some (x, rest) =>
      match extractMin rest with
      | none => some x.1
      | some (y, rest) => mergeLoop fuel (seq + 1) (rest ++ [(.internal (x.1.weight + y.1.weight) x.1 y.1, seq)])

/-- `BuildTrie` (42_huffman.md R213, R214). The queue is empty exactly for the empty input, for which the trie is the
one leaf of symbol 0 and weight 0. -/
def buildTrie (data : Bytes) : WTrie :=
  (mergeLoop (leafQueue data).length (leafQueue data).length (leafQueue data)).getD (.leaf 0 0)

/-- `Walk(node, p)` (42_huffman.md R216): each leaf's symbol with its path, 0 to the left and 1 to the right. -/
def codeWalk : WTrie → Bits → List (Byte × Bits)
  | .leaf s _, p => [(s, p)]
  | .internal _ l r, p => codeWalk l (p ++ [false]) ++ codeWalk r (p ++ [true])

/-- `CodeTable(root)` (42_huffman.md R216, R217). -/
def codeTable (root : WTrie) : List (Byte × Bits) := codeWalk root []

/-- The code of a symbol. A symbol without a leaf has no code and is never looked up (42_huffman.md R216). -/
def codeOf (table : List (Byte × Bits)) (s : Byte) : Bits := (table.lookup s).getD []

/-- `WriteTrie(root)`, the preamble (42_huffman.md R218; 30_encoding.md R111). -/
def serialize : WTrie → Bits
  | .leaf s _ => true :: byteBits s
  | .internal _ l r => false :: (serialize l ++ serialize r)

/-- The payload: the code of each input byte in order (42_huffman.md R220; 30_encoding.md R112). -/
def payload (table : List (Byte × Bits)) (data : Bytes) : Bits := data.flatMap (codeOf table)

/-- The bits HUF_COMPRESS writes for an input: preamble, 32-bit length, payload (30_encoding.md R110). -/
def hufEncode (data : Bytes) : Bits :=
  serialize (buildTrie data) ++ bitsOf 32 data.length ++ payload (codeTable (buildTrie data)) data

/-- `HufBegin()` (42_huffman.md R210): the reader reopened at bit 0, the writer on an empty DST. -/
def State.hufBegin (s : State) : State := s.openReader.openWriter

/-- HUF_COMPRESS (42_huffman.md R211, R221, R222). -/
def execHufCompress (s : State) : Host.Outcome State Fault Refusal :=
  if hufMaxLen < s.src.length then .next (s.hufBegin.readAll.codecRaise .invalidArgument)
  else .next (s.hufBegin.readAll.writeBitList (hufEncode s.src)).codecDone

/-! ## HUF_DECOMPRESS -/

/-- `ReadTrie()` (42_huffman.md R231, R232), with the number of nodes started so far. The first argument bounds the depth of
the recursion; a trie node stands at most as deep as there are nodes, so with `hufMaxNodes + 1` the bound is never what
ends the reading. -/
def readTrie : Nat → Nat → Bits → Parse (Trie × Nat)
  | 0, _, bits => .fail .corruptData bits
  | fuel + 1, nodes, bits =>
    if hufMaxNodes < nodes + 1 then .fail .corruptData bits
    else
      (takeBits 1 bits).andThen fun tag bits =>
        if tag = 1 then (takeBits 8 bits).andThen fun sym bits => .ok (.leaf (BitVec.ofNat 8 sym), nodes + 1) bits
        else
          (readTrie fuel (nodes + 1) bits).andThen fun l bits =>
            (readTrie fuel l.2 bits).andThen fun r bits => .ok (.internal l.1 r.1, r.2) bits

/-- The walk of one symbol (42_huffman.md R234): one bit per internal node, 1 to the right and 0 to the left. -/
def walkSymbol : Trie → Bits → Parse Byte
  | .leaf s, bits => .ok s bits
  | .internal l r, bits =>
    (takeBits 1 bits).andThen fun bit bits => if bit = 1 then walkSymbol r bits else walkSymbol l bits

/-- The symbols of the payload, as many as the length field says (42_huffman.md R234). -/
def decodeSymbols (root : Trie) : Nat → Bits → DecodeResult
  | 0, bits => ⟨[], bits, none⟩
  | n + 1, bits =>
    match walkSymbol root bits with
    | .fail e rest => ⟨[], rest, some e⟩
    | .ok s rest => (decodeSymbols root n rest).emit [s]

/-- The decoding of a Huffman stream (42_huffman.md R230): preamble, 32-bit unsigned length (R233), symbols. -/
def hufDecode (bits : Bits) : DecodeResult :=
  match readTrie (hufMaxNodes + 1) 0 bits with
  | .fail e rest => ⟨[], rest, some e⟩
  | .ok root rest =>
    match takeBits 32 rest with
    | .fail e rest => ⟨[], rest, some e⟩
    | .ok n rest => decodeSymbols root.1 n rest

/-- HUF_DECOMPRESS (42_huffman.md R230, R235, R236). -/
def execHufDecompress (s : State) : Host.Outcome State Fault Refusal :=
  .next (s.hufBegin.finishDecode (hufDecode (streamBits s.src)))

end Sys2Proof.Machine
end

