-- ==== Sys2Proof/Machine/Reader.lean ====
section
/-! DEFINITION. The stream reader commands (40_reader.md). -/

namespace Sys2Proof.Machine

/-- RD_OPEN (40_reader.md R153). -/
def execRdOpen (s : State) : Host.Outcome State Fault Refusal := .next s.openReader.done

/-- RD_BIT (40_reader.md R154). -/
def execRdBit (s : State) : Host.Outcome State Fault Refusal := .next (s.readToRes 1)

/-- RD_BYTE (40_reader.md R155). -/
def execRdByte (s : State) : Host.Outcome State Fault Refusal := .next (s.readToRes 8)

/-- RD_INT32 (40_reader.md R156). -/
def execRdInt32 (s : State) : Host.Outcome State Fault Refusal := .next (s.readToRes 32)

/-- RD_INT64 (40_reader.md R157). -/
def execRdInt64 (s : State) : Host.Outcome State Fault Refusal := .next (s.readToRes 64)

/-- RD_BITS (40_reader.md R158): the width is checked before any bit is read (60_exceptions.md R413). -/
def execRdBits (w : Nat) (s : State) : Host.Outcome State Fault Refusal :=
  if widthLegal w then .next (s.readToRes w) else .next (s.raise .invalidArgument)

/-- RD_EXHAUSTED (40_reader.md R159): it never fails and has no side effect on RPOS. -/
def execRdExhausted (s : State) : Host.Outcome State Fault Refusal :=
  .next (s.withRes (if s.exhausted then 1 else 0)).done

end Sys2Proof.Machine
end

