-- ==== Sys2Proof/Machine/Writer.lean ====
section
/-! DEFINITION. The stream writer commands (41_writer.md). -/

namespace Sys2Proof.Machine

/-- WR_OPEN (41_writer.md R183): pending bits are discarded, not flushed. -/
def execWrOpen (s : State) : Host.Outcome State Fault Refusal := .next s.openWriter.done

/-- WR_BIT (41_writer.md R184). -/
def execWrBit (s : State) : Host.Outcome State Fault Refusal := .next (s.writeArg 1)

/-- WR_BYTE (41_writer.md R185). -/
def execWrByte (s : State) : Host.Outcome State Fault Refusal := .next (s.writeArg 8)

/-- WR_INT32 (41_writer.md R186). -/
def execWrInt32 (s : State) : Host.Outcome State Fault Refusal := .next (s.writeArg 32)

/-- WR_INT64 (41_writer.md R187): every ARG fits. -/
def execWrInt64 (s : State) : Host.Outcome State Fault Refusal := .next (s.writeBits s.arg.toNat 64).done

/-- WR_BITS (41_writer.md R188): the width is checked first, then the value (60_exceptions.md R413). -/
def execWrBits (w : Nat) (s : State) : Host.Outcome State Fault Refusal :=
  if widthLegal w then .next (s.writeArg w) else .next (s.raise .invalidArgument)

/-- WR_FLUSH (41_writer.md R189). -/
def execWrFlush (s : State) : Host.Outcome State Fault Refusal := .next s.flush.done

end Sys2Proof.Machine
end

