-- ==== Sys2Proof/Machine/Dispatch.lean ====
section
/-! DEFINITION. The meaning of every command, one arm per constructor. -/

namespace Sys2Proof.Machine

def exec (i : Instr) (s : State) : Host.Outcome State Fault Refusal :=
  match i with
  | .nop => Sys2Proof.Machine.execNop s
  | .rdOpen => Sys2Proof.Machine.execRdOpen s
  | .rdBit => Sys2Proof.Machine.execRdBit s
  | .rdByte => Sys2Proof.Machine.execRdByte s
  | .rdInt32 => Sys2Proof.Machine.execRdInt32 s
  | .rdInt64 => Sys2Proof.Machine.execRdInt64 s
  | .rdBits w => Sys2Proof.Machine.execRdBits w s
  | .rdExhausted => Sys2Proof.Machine.execRdExhausted s
  | .wrOpen => Sys2Proof.Machine.execWrOpen s
  | .wrBit => Sys2Proof.Machine.execWrBit s
  | .wrByte => Sys2Proof.Machine.execWrByte s
  | .wrInt32 => Sys2Proof.Machine.execWrInt32 s
  | .wrInt64 => Sys2Proof.Machine.execWrInt64 s
  | .wrBits w => Sys2Proof.Machine.execWrBits w s
  | .wrFlush => Sys2Proof.Machine.execWrFlush s
  | .hufCompress => Sys2Proof.Machine.execHufCompress s
  | .hufDecompress => Sys2Proof.Machine.execHufDecompress s
  | .lzwCompress => Sys2Proof.Machine.execLzwCompress s
  | .lzwDecompress => Sys2Proof.Machine.execLzwDecompress s
  | .arcPack => Sys2Proof.Machine.execArcPack s
  | .arcUnpack => Sys2Proof.Machine.execArcUnpack s

end Sys2Proof.Machine
end

