-- ==== Sys2Proof/Machine/HostActions.lean ====
section
/-! DEFINITION. The host actions (70_reset_and_hazards.md R461), the write of a command word among them, and the
pseudo-commands (30_encoding.md R109). -/

namespace Sys2Proof.Machine

/-- The value of a register as the host reads it, the 32-bit ones zero-extended (10_state.md R31, R36 to R38). -/
def State.readReg (s : State) : HostReg → BitVec 64
  | .cmd => s.cmd.setWidth 64
  | .arg => s.arg
  | .res => s.res
  | .status => s.statusWord.setWidth 64
  | .cfgR => (cfgRValue s.cfg).setWidth 64
  | .cfgL => (cfgLValue s.cfg).setWidth 64
  | .cfgW => (cfgWValue s.cfg).setWidth 64

/-- A READ gives the host a value and changes nothing of the engine (10_state.md R38; 20_memory.md R80). -/
def State.giveHost (v : HostValue) (s : State) : State := s.withReturned (s.returned ++ [v])

/-- `RESET` (70_reset_and_hazards.md R450): every element at its reset value; the configuration stays, and so does the
host's own record. Bits pending in WACC are discarded, not flushed (R452), and no command runs (R451). -/
def State.resetAction (s : State) : State := ((State.resetOf s.cfg).withHost s.host).withReturned s.returned

/-- `LOAD_SRC bytes` (70_reset_and_hazards.md R461; 10_state.md R39). -/
def State.loadSrc (bytes : Bytes) (s : State) : State := (s.withSrc bytes).withRpos 0

/-- A host write of the word `c` to CMD (10_state.md R32): CMD <- c, then the command `c` encodes, or the
illegal-command response. -/
def runCommand (c : CmdWord) (s : State) : Host.Outcome State Fault Refusal :=
  match decode c with
  | .instr i => exec i (s.withCmd c)
  | .illegal _ => .next (illegalResponse (s.withCmd c))

/-- One host action, run to completion (70_reset_and_hazards.md R461). -/
def hostAct (a : HostAction) (s : State) : Host.Outcome State Fault Refusal :=
  match a with
  | .reset => .next s.resetAction
  | .setArg v => .next (s.withArg v)
  | .loadSrc bytes => .next (s.loadSrc bytes)
  | .loadSrcDst => .next (s.loadSrc s.dst)
  | .loadEin entries => .next (s.withEin entries)
  | .writeCmd c => runCommand c s
  | .writeReadOnly _ _ => .next s
  | .readReg r => .next (s.giveHost (.reg r (s.readReg r)))
  | .readDst => .next (s.giveHost (.dst s.dst))
  | .readEout => .next (s.giveHost (.eout s.eout))

/-- The next host action, or, with none pending, the idle engine, whose state does not change
(60_exceptions.md R435; 70_reset_and_hazards.md R472). -/
def takeHostAction (s : State) : Host.Outcome State Fault Refusal :=
  match s.host with
  | [] => .next s
  | a :: rest => hostAct a (s.withHost rest)

/-! ## Pseudo-commands (30_encoding.md R109) -/

/-- A command by its mnemonic: a write of its word to CMD (30_encoding.md R108). -/
def command (i : Instr) : HostAction := .writeCmd (encode i)

/-- `WR v, w` -/
def pseudoWr (v : BitVec 64) (w : Nat) : List HostAction := [.setArg v, command (.wrBits w)]

/-- `WR8 v` -/
def pseudoWr8 (v : BitVec 64) : List HostAction := [.setArg v, command .wrByte]

/-- `WR32 v` -/
def pseudoWr32 (v : BitVec 64) : List HostAction := [.setArg v, command .wrInt32]

/-- `WR64 v` -/
def pseudoWr64 (v : BitVec 64) : List HostAction := [.setArg v, command .wrInt64]

/-- `WRB b` -/
def pseudoWrb (b : BitVec 64) : List HostAction := [.setArg b, command .wrBit]

/-- `RD8` -/
def pseudoRd8 : List HostAction := [command .rdByte]

/-- `RD32` -/
def pseudoRd32 : List HostAction := [command .rdInt32]

/-- `RD1` -/
def pseudoRd1 : List HostAction := [command .rdBit]

/-- `ROUNDTRIP_HUF` -/
def pseudoRoundtripHuf : List HostAction := [command .hufCompress, .loadSrcDst, command .hufDecompress]

/-- `ROUNDTRIP_LZW` -/
def pseudoRoundtripLzw : List HostAction := [command .lzwCompress, .loadSrcDst, command .lzwDecompress]

/-- The state in which the very next host action is a write to CMD of the table word `w` of `nbits` bits. -/
def State.withNextCommand (s : State) (nbits w : Nat) : State :=
  s.withHost (.writeCmd (BitVec.ofNat 32 (w % 2 ^ nbits)) :: s.host)

end Sys2Proof.Machine
end

