-- ==== Sys2Proof/Machine/Step.lean ====
section
/-! DEFINITION. One step of the machine: the next host action, with the command it starts run to completion
(10_state.md R30; 70_reset_and_hazards.md R463). -/

namespace Sys2Proof.Machine

/-- One step (00_scope.md R9): the next host action, or the idle engine. -/
def step (s : State) : Host.Outcome State Fault Refusal := takeHostAction s

/-- `s` with the instruction `w` of `nbits` bits as the next word the host writes to CMD, ahead of what was pending: the
machine fetches nothing, a command is the word written to CMD (10_state.md R33; log 1). -/
def State.withFetchWord (s : State) (nbits w : Nat) : State := s.withNextCommand nbits w

end Sys2Proof.Machine
end

