-- ==== Sys2Proof/Safety.lean ====
section
/-! DEFINITION. What holds of a machine that runs as the spec says: the invariant of its state and the codes its engine
writes. -/

namespace Sys2Proof.Machine

/-- The invariant of the state between host actions: `0 ≤ RPOS ≤ 8·|SRC|` (10_state.md R40), `WCNT < 8`, and the bits of
WACC above bit `WCNT - 1` are 0 (R42). -/
def State.Inv (s : State) : Prop :=
  s.rpos ≤ 8 * s.src.length ∧ s.wcnt < 8 ∧ s.wacc.toNat < 2 ^ s.wcnt

/-- The codes the engine writes (60_exceptions.md R401, R403). -/
def ResultCode.byEngine : ResultCode → Bool
  | .ok | .invalidArgument | .endOfStream | .corruptData | .illegalCommand => true
  | .notFound | .alreadyExists | .isADirectory | .ioError => false

/-- A codec command (60_exceptions.md R412). -/
def isCodec : Instr → Bool
  | .hufCompress | .hufDecompress | .lzwCompress | .lzwDecompress | .arcPack | .arcUnpack => true
  | .nop | .rdOpen | .rdBit | .rdByte | .rdInt32 | .rdInt64 | .rdBits _ | .rdExhausted => false
  | .wrOpen | .wrBit | .wrByte | .wrInt32 | .wrInt64 | .wrBits _ | .wrFlush => false

/-- The result codes a decoded command can end with (60_exceptions.md R402). -/
def commandCodes : Instr → List ResultCode
  | .nop | .rdOpen | .rdExhausted | .wrOpen | .wrInt64 | .wrFlush => [.ok]
  | .rdBit | .rdByte | .rdInt32 | .rdInt64 => [.ok, .endOfStream]
  | .rdBits _ => [.ok, .invalidArgument, .endOfStream]
  | .wrBit | .wrByte | .wrInt32 | .wrBits _ => [.ok, .invalidArgument]
  | .hufCompress | .lzwCompress | .arcPack => [.ok, .invalidArgument]
  | .hufDecompress | .lzwDecompress | .arcUnpack => [.ok, .corruptData]

/-! ## Terms of the statements, said without the operations they speak of -/

/-- Bit `i` of a byte sequence in stream order: bit `7 - i mod 8` of byte `i / 8` (20_memory.md R71). -/
def streamBit (bytes : Bytes) (i : Nat) : Bool := (bytes.getD (i / 8) 0).getLsbD (7 - i % 8)

/-- The bits of a byte sequence in stream order (00_scope.md R16; 20_memory.md R71). -/
def streamOf (bytes : Bytes) : Bits := (List.range (8 * bytes.length)).map (streamBit bytes)

/-- A field of `n` bits holding `v`, the bit of weight `2^(n-1)` first (00_scope.md R16; 20_memory.md R71). -/
def fieldOf (n v : Nat) : Bits := (List.range n).map fun k => v.testBit (n - 1 - k)

/-- The pending output stream (10_state.md R42): the bits of DST, then the WCNT bits pending in WACC. -/
def State.pendingOut (s : State) : Bits := streamOf s.dst ++ fieldOf s.wcnt s.wacc.toNat

/-- The width a reader command reads, where its width is legal (20_memory.md R78). -/
def readWidth : Instr → Option Nat
  | .rdBit => some 1
  | .rdByte => some 8
  | .rdInt32 => some 32
  | .rdInt64 => some 64
  | .rdBits w => if 1 ≤ w ∧ w ≤ 32 then some w else none
  | .nop | .rdOpen | .rdExhausted => none
  | .wrOpen | .wrBit | .wrByte | .wrInt32 | .wrInt64 | .wrBits _ | .wrFlush => none
  | .hufCompress | .hufDecompress | .lzwCompress | .lzwDecompress | .arcPack | .arcUnpack => none

/-- The width a writer command writes, where its width is legal (20_memory.md R78). -/
def writeWidth : Instr → Option Nat
  | .wrBit => some 1
  | .wrByte => some 8
  | .wrInt32 => some 32
  | .wrInt64 => some 64
  | .wrBits w => if 1 ≤ w ∧ w ≤ 32 then some w else none
  | .nop | .rdOpen | .rdBit | .rdByte | .rdInt32 | .rdInt64 | .rdBits _ | .rdExhausted => none
  | .wrOpen | .wrFlush => none
  | .hufCompress | .hufDecompress | .lzwCompress | .lzwDecompress | .arcPack | .arcUnpack => none

/-- What a read command of `n` bits does (40_reader.md R151): with `n` bits left it gives them, most significant first,
zero-extended in RES; with fewer it fails with `EndOfStream`, RES as before and the reader exhausted. Nothing else changes. -/
def ReadsNext (i : Instr) (n : Nat) (s : State) : Prop :=
  (s.rpos + n ≤ 8 * s.src.length →
    ∃ v, v < 2 ^ n ∧ fieldOf n v = ((streamOf s.src).drop s.rpos).take n ∧
      exec i s = .next { s with res := BitVec.ofNat 64 v, rpos := s.rpos + n, code := .ok }) ∧
    (8 * s.src.length < s.rpos + n →
      exec i s = .next { s with rpos := 8 * s.src.length, code := .endOfStream })

/-- What a write command of `n` bits does (41_writer.md R180, R181): an ARG that fits is appended to the pending output
stream as `n` bits, most significant first; one that does not fit is refused with `InvalidArgument`. Nothing else changes. -/
def WritesArg (i : Instr) (n : Nat) (s : State) : Prop :=
  (s.arg.toNat < 2 ^ n →
    ∃ d a, exec i s = .next { s with dst := d, wacc := a, wcnt := (s.wcnt + n) % 8, code := .ok } ∧
      d.length = s.dst.length + (s.wcnt + n) / 8 ∧ a.toNat < 2 ^ ((s.wcnt + n) % 8) ∧
      streamOf d ++ fieldOf ((s.wcnt + n) % 8) a.toNat = s.pendingOut ++ fieldOf n s.arg.toNat) ∧
    (2 ^ n ≤ s.arg.toNat → exec i s = .next { s with code := .invalidArgument })

/-- The form of the writer registers (10_state.md R42). -/
def State.WriterInv (s : State) : Prop := s.wcnt < 8 ∧ s.wacc.toNat < 2 ^ s.wcnt

/-- How many nodes a decoder trie has (42_huffman.md R231). -/
def Trie.nodeCount : Trie → Nat
  | .leaf _ => 1
  | .internal l r => 1 + l.nodeCount + r.nodeCount

/-- `ser(root)` of 30_encoding.md R111 for a trie without weights. -/
def Trie.preamble : Trie → Bits
  | .leaf s => true :: fieldOf 8 s.toNat
  | .internal l r => false :: (l.preamble ++ r.preamble)

/-- The symbol of the leaf a path from the root ends at, none where the path ends elsewhere: 0 to the left, 1 to the right
(42_huffman.md R216, R234). -/
def Trie.leafAt : Trie → Bits → Option Byte
  | .leaf s, [] => some s
  | .leaf _, _ :: _ => none
  | .internal _ _, [] => none
  | .internal l r, b :: bs => if b then r.leafAt bs else l.leafAt bs

/-- A path from the root that ends at an internal node: a walk along it has not reached a leaf (42_huffman.md R234). -/
def Trie.stopsInside : Trie → Bits → Bool
  | .leaf _, _ => false
  | .internal _ _, [] => true
  | .internal l r, b :: bs => if b then r.stopsInside bs else l.stopsInside bs

/-- The leaves of an encoder trie from left to right, each with its symbol and weight (10_state.md R46). -/
def WTrie.leaves : WTrie → List (Byte × Nat)
  | .leaf s w => [(s, w)]
  | .internal _ l r => l.leaves ++ r.leaves

/-- Every internal node's weight is the sum of its children's weights (42_huffman.md R215). -/
def WTrie.WeightsAdd : WTrie → Prop
  | .leaf _ _ => True
  | .internal w l r => w = l.weight + r.weight ∧ l.WeightsAdd ∧ r.WeightsAdd

/-- One pair of the trie-building list comes before another: a smaller weight, or the same weight and a smaller `seq`
(42_huffman.md R214). -/
def ComesBefore (x y : WTrie × Nat) : Prop :=
  x.1.weight < y.1.weight ∨ (x.1.weight = y.1.weight ∧ x.2 < y.2)

/-- What the merging of 42_huffman.md R214 makes of a list of pairs, when `seq` is the next number: the only node, where
one is left; else a pass takes the first pair as the left child and the second as the right one, and their merged node
joins the others with the number `seq`. -/
inductive MergesTo : Nat → List (WTrie × Nat) → WTrie → Prop where
  | single (seq : Nat) (x : WTrie × Nat) : MergesTo seq [x] x.1
  | pass {seq : Nat} {pq rest : List (WTrie × Nat)} {x y : WTrie × Nat} {root : WTrie} :
      pq.Perm (x :: y :: rest) → ComesBefore x y → (∀ z ∈ rest, ComesBefore y z) →
      MergesTo (seq + 1) (rest ++ [(.internal (x.1.weight + y.1.weight) x.1 y.1, seq)]) root → MergesTo seq pq root

/-- The bits of one node in a preamble: the tag, and a leaf's symbol (30_encoding.md R111). `none` is an internal node. -/
def nodeBits : Option Byte → Bits
  | none => [false]
  | some s => true :: fieldOf 8 s.toNat

/-- How many subtrees of a preamble are still to be read after some of its nodes, from `k` to be read before them; 0 also
where the preamble ends before the last of the nodes (42_huffman.md R231). -/
def subtreesLeft : Nat → List (Option Byte) → Nat
  | k, [] => k
  | 0, _ :: _ => 0
  | k + 1, none :: nodes => subtreesLeft (k + 2) nodes
  | k + 1, some _ :: nodes => subtreesLeft k nodes

/-- A register holds a length (30_encoding.md R105), where it fits the 64 bits of RES; nothing is said where it does not
(log 5). -/
def HoldsLength (v : BitVec 64) (n : Nat) : Prop := n < 2 ^ 64 → v.toNat = n

/-- A bit sequence packed into bytes, with fewer than eight zero bits of padding (30_encoding.md R110, R114). -/
def Packs (bytes : Bytes) (bits : Bits) : Prop :=
  ∃ k, k < 8 ∧ streamOf bytes = bits ++ List.replicate k false

/-- The bits of an LZW stream: the codewords, then the sentinel `R`, each in `W` bits (30_encoding.md R114). -/
def lzwBits (cfg : Config) (codes : List Nat) : Bits := (codes ++ [cfg.R]).flatMap (fieldOf cfg.W)

/-- Codewords of an LZW stream and the strings they stand for, said of the whole stream at once (43_lzw.md R260, R264,
R271 to R273): codeword `j` is a single byte below `R`, or it is `R + 1 + i` for an earlier string `i`, below `L`, and
stands for string `i` and the first byte of string `i + 1`. The self-reference case is `i + 1 = j`. -/
def Spells (cfg : Config) (codes : List Nat) (strings : List Bytes) : Prop :=
  codes.length = strings.length ∧
    ∀ j c p, codes[j]? = some c → strings[j]? = some p →
      (c < cfg.R ∧ p = [BitVec.ofNat 8 c]) ∨
        ∃ i q q', i < j ∧ c = cfg.R + 1 + i ∧ c < cfg.L ∧ strings[i]? = some q ∧ strings[i + 1]? = some q' ∧
          p = q ++ q'.take 1

/-- An LZW stream at which the decoder stops with success after some codewords, with `rest` unread (43_lzw.md R274): the
codeword read last is not emitted; it is the sentinel, or the stream is exhausted right after it. -/
def StopsAfter (cfg : Config) (codes : List Nat) (rest stream : Bits) : Prop :=
  ∃ c, c < 2 ^ cfg.W ∧ (c = cfg.R ∨ rest = []) ∧ stream = (codes ++ [c]).flatMap (fieldOf cfg.W) ++ rest

/-- The form of a dictionary (10_state.md R47; 43_lzw.md R261, R277): the codes are the seeds and then `R + 1` up to NEXT,
each once and in order; NEXT is at most `L`; and a string is non-empty and at most `NEXT - R` long. -/
structure Dict.Wf (cfg : Config) (d : Dict) : Prop where
  codes : d.entries.map Prod.fst = List.range cfg.R ++ List.range' (cfg.R + 1) (d.next - (cfg.R + 1))
  next_low : cfg.R + 1 ≤ d.next
  next_high : d.next ≤ cfg.L
  strings : ∀ e ∈ d.entries, 1 ≤ e.2.length ∧ e.2.length ≤ d.next - cfg.R

end Sys2Proof.Machine
end

