-- ==== Sys2Proof/Certificates/Slice0/Obligations.lean ====
section
/-! DEFINITION. The statements for the provers, in the order of the spec's files. A result of a command is stated as an
equation `exec i s = .next …`: it says that the command completes, what it writes, and by the record update that every
other field of the state is unchanged. -/

open Sys2Proof Sys2Proof.Machine

/-! ## Encoding -/

/-- Decoding the word of a well-formed command gives the command (30_encoding.md R100, R101, R103, R104). -/
def Obligations.EncodeThenDecode : Prop :=
  ∀ i : Instr, i.WellFormed → decode (encode i) = .instr i

/-- A word that decodes to a command is the word of that command, which is well formed: each command has one word. -/
def Obligations.DecodeThenEncode : Prop :=
  ∀ (c : CmdWord) (i : Instr), decode c = .instr i → encode i = c ∧ i.WellFormed

/-- The opcode map of R104, word by word, and the WIDTH operand of the two width commands at every value (R101). -/
def Obligations.OpcodeMapDecodes : Prop :=
  (decode 0x00000000#32 = .instr .nop ∧ decode 0x01000000#32 = .instr .rdOpen ∧ decode 0x02000000#32 = .instr .rdBit ∧
    decode 0x03000000#32 = .instr .rdByte ∧ decode 0x04000000#32 = .instr .rdInt32 ∧
    decode 0x05000000#32 = .instr .rdInt64 ∧ decode 0x07000000#32 = .instr .rdExhausted ∧
    decode 0x10000000#32 = .instr .wrOpen ∧ decode 0x11000000#32 = .instr .wrBit ∧
    decode 0x12000000#32 = .instr .wrByte ∧ decode 0x13000000#32 = .instr .wrInt32 ∧
    decode 0x14000000#32 = .instr .wrInt64 ∧ decode 0x16000000#32 = .instr .wrFlush ∧
    decode 0x20000000#32 = .instr .hufCompress ∧ decode 0x21000000#32 = .instr .hufDecompress ∧
    decode 0x30000000#32 = .instr .lzwCompress ∧ decode 0x31000000#32 = .instr .lzwDecompress ∧
    decode 0x40000000#32 = .instr .arcPack ∧ decode 0x41000000#32 = .instr .arcUnpack) ∧
    ∀ w < 64, decode (BitVec.ofNat 32 (0x06000000 + w)) = .instr (.rdBits w) ∧
      decode (BitVec.ofNat 32 (0x15000000 + w)) = .instr (.wrBits w)

/-- Which words are illegal (R106), and that an illegal word changes CMD and STATUS.CODE and nothing else (R351). -/
def Obligations.IllegalWordsAndTheirResponse : Prop :=
  ∀ c : CmdWord,
    ((∃ why, decode c = .illegal why) ↔
      (c.toNat / 2 ^ 6 % 2 ^ 18 ≠ 0 ∨
        c.toNat / 2 ^ 24 ∉ [0x00, 0x01, 0x02, 0x03, 0x04, 0x05, 0x06, 0x07, 0x10, 0x11, 0x12, 0x13, 0x14, 0x15, 0x16,
          0x20, 0x21, 0x30, 0x31, 0x40, 0x41] ∨
        (c.toNat % 2 ^ 6 ≠ 0 ∧ c.toNat / 2 ^ 24 ≠ 0x06 ∧ c.toNat / 2 ^ 24 ≠ 0x15))) ∧
      ∀ (why : IllegalWord) (s : State) (rest : List HostAction), decode c = .illegal why →
        s.host = .writeCmd c :: rest → step s = .next { s with cmd := c, code := .illegalCommand, host := rest }

/-! ## The machine and its host -/

/-- A host write of a command word sets CMD and performs one engine step, the decoded command or the illegal-command
response; a read of CMD gives the last word written (R32). The read is stated on the low 32 bits of what it gives, since
its 64 bits are the model's choice (log 12). -/
def Obligations.StepRunsTheDecodedCommand : Prop :=
  (∀ (s : State) (c : CmdWord) (rest : List HostAction), s.host = .writeCmd c :: rest →
    (∀ i, decode c = .instr i → step s = exec i { s with cmd := c, host := rest }) ∧
      (∀ why, decode c = .illegal why → step s = .next { s with cmd := c, code := .illegalCommand, host := rest })) ∧
    (∀ s : State, (s.readReg .cmd).setWidth 32 = s.cmd) ∧ State.reset.cmd = 0 ∧ decode 0 = .instr .nop

/-- RESET sets every element to its reset value, keeps the configuration and runs no command; the values after reset
are those of the default instance (R450, R60). Three things here are the model's choice and no rule's: that State.reset
is the default instance (log 4), that no host action is pending in it (log 1), and that the record of what the host has
read is empty in it (log 2). Of what RESET leaves in that record nothing is said. -/
def Obligations.ResetActionRestoresEverything : Prop :=
  (∀ (s : State) (rest : List HostAction), s.host = .reset :: rest →
    ∃ record, step s =
      .next { cmd := 0, arg := 0, res := 0, code := .ok, cfg := s.cfg, src := [], rpos := 0, dst := [],
              wacc := 0, wcnt := 0, ein := [], eout := [], host := rest, returned := record }) ∧
    (∀ cfg : Config, (State.resetOf cfg).statusWord = 0x00000080#32 ∧ (State.resetOf cfg).cfg = cfg) ∧
    State.reset = { cmd := 0, arg := 0, res := 0, code := .ok, cfg := Config.standard, src := [], rpos := 0, dst := [],
                    wacc := 0, wcnt := 0, ein := [], eout := [], host := [], returned := [] } ∧
    (State.reset.cfg.R = 256 ∧ State.reset.cfg.L = 4096 ∧ State.reset.cfg.W = 12)

/-- The load actions and SETARG, each with everything else unchanged (70_reset_and_hazards.md R461). -/
def Obligations.LoadActionsWriteTheirBuffers : Prop :=
  ∀ (s : State) (rest : List HostAction),
    (∀ v, s.host = .setArg v :: rest → step s = .next { s with arg := v, host := rest }) ∧
      (∀ bytes, s.host = .loadSrc bytes :: rest → step s = .next { s with src := bytes, rpos := 0, host := rest }) ∧
      (s.host = .loadSrcDst :: rest → step s = .next { s with src := s.dst, rpos := 0, host := rest }) ∧
      (∀ es, s.host = .loadEin es :: rest → step s = .next { s with ein := es, host := rest })

/-- A host write to a read-only register has no effect; a read of a register gives the register, and a read of a buffer
the buffer, without a side effect (R38, R461). What each register's value is, RegisterValuesTheHostReads says. That what
a read gives is appended to the field `returned` is the model's choice (log 2). -/
def Obligations.ReadsAndIgnoredWritesHaveNoEffect : Prop :=
  ∀ (s : State) (rest : List HostAction),
    (∀ r v, s.host = .writeReadOnly r v :: rest → step s = .next { s with host := rest }) ∧
      (s.host = .readReg .arg :: rest →
        step s = .next { s with host := rest, returned := s.returned ++ [.reg .arg s.arg] }) ∧
      (∀ r, s.host = .readReg r :: rest →
        step s = .next { s with host := rest, returned := s.returned ++ [.reg r (s.readReg r)] }) ∧
      (s.host = .readDst :: rest → step s = .next { s with host := rest, returned := s.returned ++ [.dst s.dst] }) ∧
      (s.host = .readEout :: rest → step s = .next { s with host := rest, returned := s.returned ++ [.eout s.eout] })

/-- The value of each register as the host reads it: CMD, ARG and RES, STATUS with its fields in their places (R36,
with the numbers of R401), and the configuration registers (R37). Of CFG_L only an `L` below `2^32` is stated (log 6);
that the 32-bit registers come zero-extended to 64 bits is the model's choice (log 12). -/
def Obligations.RegisterValuesTheHostReads : Prop :=
  ∀ s : State, s.Inv →
    (∃ n, (s.code, n) ∈ [(ResultCode.ok, 0), (.notFound, 1), (.alreadyExists, 2), (.isADirectory, 3),
        (.invalidArgument, 4), (.endOfStream, 5), (.corruptData, 6), (.ioError, 7), (.illegalCommand, 8)] ∧
      s.statusWord.toNat = n + 2 ^ 4 * s.wcnt + 2 ^ 7 * (if s.rpos = 8 * s.src.length then 1 else 0)) ∧
      (s.readReg .status).toNat = s.statusWord.toNat ∧ (s.readReg .cmd).toNat = s.cmd.toNat ∧
      s.readReg .arg = s.arg ∧ s.readReg .res = s.res ∧ (s.readReg .cfgR).toNat = s.cfg.R ∧
      (s.cfg.L < 2 ^ 32 → (s.readReg .cfgL).toNat = s.cfg.L) ∧ (s.readReg .cfgW).toNat = s.cfg.W

/-- Every step and every command in every state answers a next state: no lock-up and no halt; a command ends with OK
or with a failure's code (R400). That no failure stops the machine is an inference of the spec, R421. -/
def Obligations.StepAlwaysCompletes : Prop :=
  (∀ s : State, ∃ t, step s = .next t) ∧ ∀ (i : Instr) (s : State), ∃ t, exec i s = .next t

/-- `RPOS ≤ 8·|SRC|`, `WCNT < 8` and the clear high bits of WACC hold after every step that starts where they hold
(10_state.md R40, R42). -/
def Obligations.StepKeepsInvariant : Prop :=
  ∀ s t : State, s.Inv → step s = .next t → t.Inv

/-- The invariant holds after reset, whatever the configuration. -/
def Obligations.ResetHasInvariant : Prop :=
  State.reset.Inv ∧ ∀ cfg, (State.resetOf cfg).Inv

/-- No step changes the configuration (R37), and a step takes one host action and changes none that is still to come
(R88). That the actions stand in a list is the model's own (log 1). With no action pending the step changes nothing at
all: the idle engine of R435 and R472, whose step is the model's deduction (log 3). -/
def Obligations.StepKeepsConfigAndActions : Prop :=
  ∀ s : State, (s.host = [] → step s = .next s) ∧
    ∀ t : State, step s = .next t → t.cfg = s.cfg ∧ t.host = s.host.tail

/-- The engine never writes a host-side code (R401, R403). -/
def Obligations.EngineWritesOnlyItsCodes : Prop :=
  (∀ (i : Instr) (s t : State), exec i s = .next t → t.code.byEngine = true) ∧
    ∀ s t : State, s.code.byEngine = true → step s = .next t → t.code.byEngine = true

/-- The codes each command can end with (R402): no command reports another cause. -/
def Obligations.CommandsReportOnlyTheirCodes : Prop :=
  ∀ (i : Instr) (s t : State), exec i s = .next t → t.code ∈ commandCodes i

/-- A command that ends with a failure leaves RES, and so does a command that has no result (R35, R411). -/
def Obligations.ResultKeptOnFailure : Prop :=
  ∀ (i : Instr) (s t : State), exec i s = .next t →
    (t.code ≠ .ok → t.res = s.res) ∧
      (i ∈ [.nop, .rdOpen, .wrOpen, .wrBit, .wrByte, .wrInt32, .wrInt64, .wrFlush] ∨ (∃ w, i = .wrBits w) →
        t.res = s.res)

/-- No command writes ARG (R34), SRC (R39), EIN (R43), CMD or the host's record; and ARG changes nothing of what a
command that is no write command does (R34). -/
def Obligations.CommandsNeverWriteTheirInputs : Prop :=
  ∀ (i : Instr) (s t : State), exec i s = .next t →
    (t.arg = s.arg ∧ t.src = s.src ∧ t.ein = s.ein ∧ t.cmd = s.cmd ∧ t.cfg = s.cfg ∧ t.host = s.host ∧
        t.returned = s.returned) ∧
      (i ∉ [.wrBit, .wrByte, .wrInt32, .wrInt64] → (∀ w, i ≠ .wrBits w) →
        ∀ v, exec i { s with arg := v } = .next { t with arg := v })

/-- A codec command ends with no bit pending, whether it succeeds or fails, and touches EOUT, or leaves RPOS, only
where its rule says so (R412; 44_archive.md R311, R320). -/
def Obligations.CodecCommandsEndFlushed : Prop :=
  ∀ (i : Instr) (s t : State), isCodec i = true → exec i s = .next t →
    t.wcnt = 0 ∧ t.wacc = 0 ∧ t.pendingOut = streamOf t.dst ∧ (i ≠ .arcUnpack → t.eout = s.eout) ∧
      (i = .arcPack → t.rpos = s.rpos)

/-- No working state survives a command: what a codec command gives depends on SRC (EIN for ARC_PACK) and the
configuration, and on nothing earlier (R49). -/
def Obligations.CodecDependsOnlyOnItsInput : Prop :=
  ∀ (i : Instr) (s s' t t' : State), isCodec i = true → exec i s = .next t → exec i s' = .next t' → s.cfg = s'.cfg →
    (if i = .arcPack then s.ein = s'.ein else s.src = s'.src) →
    t.dst = t'.dst ∧ t.code = t'.code ∧ t.wacc = t'.wacc ∧ t.wcnt = t'.wcnt ∧ (i ≠ .arcPack → t.rpos = t'.rpos) ∧
      (t.code = .ok → t.res = t'.res) ∧ (i = .arcUnpack → t.eout = t'.eout)

/-! ## The reader -/

/-- Every reader command reads only SRC, RPOS and its word, and writes only RPOS, RES and STATUS.CODE (R150). -/
def Obligations.ReaderCommandsTouchOnlyTheReader : Prop :=
  ∀ (i : Instr) (s t : State),
    (i ∈ [.rdOpen, .rdBit, .rdByte, .rdInt32, .rdInt64, .rdExhausted] ∨ ∃ w, i = .rdBits w) → exec i s = .next t →
    t = { s with rpos := t.rpos, res := t.res, code := t.code } ∧
      ∀ s' t' : State, s'.src = s.src → s'.rpos = s.rpos → exec i s' = .next t' →
        t'.rpos = t.rpos ∧ t'.code = t.code ∧
          ((t'.res = s'.res ∧ t.res = s.res) ∨ t'.res = t.res)

/-- RD_OPEN rewinds the reader (R153). -/
def Obligations.RdOpenRewindsTheReader : Prop :=
  decode 0x01000000#32 = .instr .rdOpen ∧
    ∀ s : State, exec .rdOpen s = .next { s with rpos := 0, code := .ok } ∧
      ((({ s with rpos := 0, code := .ok } : State).statusWord.getLsbD 7 = true) ↔ s.src = [])

/-- RD_BIT, RD_BYTE, RD_INT32 and RD_INT64 read the next 1, 8, 32 and 64 bits at any bit position (R154 to R157). -/
def Obligations.ReadCommandsGiveTheNextBits : Prop :=
  (decode 0x02000000#32 = .instr .rdBit ∧ decode 0x03000000#32 = .instr .rdByte ∧
    decode 0x04000000#32 = .instr .rdInt32 ∧ decode 0x05000000#32 = .instr .rdInt64) ∧
    ∀ s : State, ReadsNext .rdBit 1 s ∧ ReadsNext .rdByte 8 s ∧ ReadsNext .rdInt32 32 s ∧ ReadsNext .rdInt64 64 s

/-- RD_BITS reads as many bits as its width says, and refuses a width outside 1 to 32 before any bit is read (R158).
-/
def Obligations.RdBitsByWidth : Prop :=
  ∀ w < 64, decode (BitVec.ofNat 32 (0x06000000 + w)) = .instr (.rdBits w) ∧
    ∀ s : State,
      (1 ≤ w ∧ w ≤ 32 → ReadsNext (.rdBits w) w s) ∧
        (w < 1 ∨ 32 < w → exec (.rdBits w) s = .next { s with code := .invalidArgument })

/-- RD_EXHAUSTED tells whether no bit remains, moves nothing and never fails (R159); the test is true exactly when a
one-bit read would fail (R152). -/
def Obligations.ExhaustedTellsWhetherABitRemains : Prop :=
  decode 0x07000000#32 = .instr .rdExhausted ∧
    ∀ s : State, s.rpos ≤ 8 * s.src.length →
      exec .rdExhausted s = .next { s with res := if s.rpos = 8 * s.src.length then 1 else 0, code := .ok } ∧
        (s.exhausted = true ↔ s.rpos = 8 * s.src.length) ∧
        (s.exhausted = true ↔ ∃ t, exec .rdBit s = .next t ∧ t.code = .endOfStream)

/-- Mixed-width reads and writes agree: the spec's inference R75, from R71, R151 and R181. -/
def Obligations.SplitReadsAndWritesAgree : Prop :=
  (∀ (s : State) (a b : Nat), 1 ≤ a → 1 ≤ b → a + b ≤ 64 → s.rpos + (a + b) ≤ 8 * s.src.length →
    ∃ x y t u, s.readBits a = (some x, t) ∧ t.readBits b = (some y, u) ∧
      s.readBits (a + b) = (some (x * 2 ^ b + y), u)) ∧
    (∀ s : State, s.rpos + 32 ≤ 8 * s.src.length →
      ∃ b₀ b₁ b₂ b₃ t₀ t₁ t₂ u, s.readBits 8 = (some b₀, t₀) ∧ t₀.readBits 8 = (some b₁, t₁) ∧
        t₁.readBits 8 = (some b₂, t₂) ∧ t₂.readBits 8 = (some b₃, u) ∧
        s.readBits 32 = (some (b₀ * 2 ^ 24 + b₁ * 2 ^ 16 + b₂ * 2 ^ 8 + b₃), u)) ∧
    ∀ (s : State) (a b x y : Nat), 1 ≤ a → 1 ≤ b → a + b ≤ 64 → x < 2 ^ a → y < 2 ^ b →
      (s.writeBits x a).writeBits y b = s.writeBits (x * 2 ^ b + y) (a + b)

/-! ## The writer -/

/-- Every writer command reads only its word, ARG, DST, WACC and WCNT, and writes only DST, WACC, WCNT and
STATUS.CODE; one that fails leaves the first three (R180). -/
def Obligations.WriterCommandsTouchOnlyTheWriter : Prop :=
  ∀ (i : Instr) (s t : State),
    (i ∈ [.wrOpen, .wrBit, .wrByte, .wrInt32, .wrInt64, .wrFlush] ∨ ∃ w, i = .wrBits w) → exec i s = .next t →
    t = { s with dst := t.dst, wacc := t.wacc, wcnt := t.wcnt, code := t.code } ∧
      (t.code ≠ .ok → t.dst = s.dst ∧ t.wacc = s.wacc ∧ t.wcnt = s.wcnt) ∧
      ∀ s' t' : State, s'.arg = s.arg → s'.dst = s.dst → s'.wacc = s.wacc → s'.wcnt = s.wcnt → exec i s' = .next t' →
        t'.dst = t.dst ∧ t'.wacc = t.wacc ∧ t'.wcnt = t.wcnt ∧ t'.code = t.code

/-- WR_OPEN empties DST and discards the pending bits (R183). -/
def Obligations.WrOpenEmptiesTheWriter : Prop :=
  decode 0x10000000#32 = .instr .wrOpen ∧
    ∀ s : State, exec .wrOpen s = .next { s with dst := [], wacc := 0, wcnt := 0, code := .ok } ∧
      (({ s with dst := [], wacc := 0, wcnt := 0, code := .ok } : State).statusWord.extractLsb' 4 3) = 0

/-- WR_BIT, WR_BYTE, WR_INT32 and WR_INT64 append ARG as 1, 8, 32 and 64 bits at any bit position (R184 to R187). -/
def Obligations.WriteCommandsAppendTheBits : Prop :=
  (decode 0x11000000#32 = .instr .wrBit ∧ decode 0x12000000#32 = .instr .wrByte ∧
    decode 0x13000000#32 = .instr .wrInt32 ∧ decode 0x14000000#32 = .instr .wrInt64) ∧
    ∀ s : State, s.WriterInv →
      WritesArg .wrBit 1 s ∧ WritesArg .wrByte 8 s ∧ WritesArg .wrInt32 32 s ∧ WritesArg .wrInt64 64 s

/-- WR_BITS appends ARG as as many bits as its width says, and refuses a width outside 1 to 32 (R188). -/
def Obligations.WrBitsByWidth : Prop :=
  ∀ w < 64, decode (BitVec.ofNat 32 (0x15000000 + w)) = .instr (.wrBits w) ∧
    ∀ s : State, s.WriterInv →
      (1 ≤ w ∧ w ≤ 32 → WritesArg (.wrBits w) w s) ∧
        (w < 1 ∨ 32 < w → exec (.wrBits w) s = .next { s with code := .invalidArgument })

/-- WR_FLUSH pads the pending bits with zeros to a byte of DST, and writes nothing when none is pending (R182, R189).
-/
def Obligations.FlushPadsWithZeros : Prop :=
  decode 0x16000000#32 = .instr .wrFlush ∧
    ∀ s : State, s.WriterInv →
      ∃ d, exec .wrFlush s = .next { s with dst := d, wacc := 0, wcnt := 0, code := .ok } ∧
        streamOf d = s.pendingOut ++ List.replicate ((8 - s.wcnt) % 8) false ∧ (s.wcnt = 0 → d = s.dst)

/-! ## Huffman -/

/-- Extraction takes the pair with the least `(weight, seq)` and only that one (R214). -/
def Obligations.ExtractMinTakesTheLeast : Prop :=
  ∀ pq : List (WTrie × Nat),
    (pq ≠ [] → ∃ m rest, extractMin pq = some (m, rest)) ∧
      ∀ m rest, extractMin pq = some (m, rest) →
        (m :: rest).Perm pq ∧
          ∀ x ∈ rest, m.1.weight < x.1.weight ∨ (m.1.weight = x.1.weight ∧ m.2 ≤ x.2)

/-- The trie of an input. It is the one of R214's build order: the leaves of the symbols that occur are queued in
ascending symbol order and numbered from 0, and the queue becomes the trie by the passes of `MergesTo`. And, as the spec
infers in R215 from R214: weights add up, each symbol that occurs has one leaf with its count, no other symbol has one,
the root's weight is the input's length, and there are `2·k - 1` nodes for `k` leaves, at most 511. The synthesized leaf
of the empty input (R213) is stated apart. -/
def Obligations.BuiltTrieInvariants : Prop :=
  buildTrie [] = .leaf 0 0 ∧
    (∀ data : Bytes, ∃ symbols : Bytes,
      symbols.Pairwise (fun a b => a.toNat < b.toNat) ∧ (∀ b, b ∈ symbols ↔ b ∈ data) ∧
        leafQueue data = (symbols.map fun b => WTrie.leaf b (data.count b)).zipIdx ∧
        (data ≠ [] → MergesTo symbols.length (leafQueue data) (buildTrie data))) ∧
    ∀ data : Bytes, data ≠ [] →
      (buildTrie data).WeightsAdd ∧ (buildTrie data).weight = data.length ∧
        ((buildTrie data).leaves.map Prod.fst).Nodup ∧
        (∀ e ∈ (buildTrie data).leaves, e.2 = data.count e.1 ∧ e.1 ∈ data) ∧
        (∀ b ∈ data, b ∈ (buildTrie data).leaves.map Prod.fst) ∧
        (buildTrie data).shape.nodeCount = 2 * (buildTrie data).leaves.length - 1 ∧
        (buildTrie data).shape.nodeCount ≤ 511

/-- A code table has one entry for each leaf, from left to right (R216), and no code in it begins another, because each
is the path to its symbol's leaf (R240). -/
def Obligations.CodeTableIsPrefixFree : Prop :=
  ∀ root : WTrie,
    (codeTable root).map Prod.fst = root.leaves.map Prod.fst ∧
      (codeTable root).Pairwise (fun e f => ¬ e.2 <+: f.2 ∧ ¬ f.2 <+: e.2) ∧
      ∀ e ∈ codeTable root, root.shape.leafAt e.2 = some e.1

/-- HUF_COMPRESS writes the preamble, the 32-bit length and, for each input byte, a path to its leaf (R110, R112,
R211, R218 to R221). -/
def Obligations.HufCompressWritesTheStream : Prop :=
  ∀ s : State, s.src.length ≤ 2 ^ 32 - 1 →
    ∃ (codes : List Bits) (d : Bytes) (v : BitVec 64),
      exec .hufCompress s =
        .next { s with rpos := 8 * s.src.length, dst := d, wacc := 0, wcnt := 0, res := v, code := .ok } ∧
      HoldsLength v d.length ∧ codes.map (buildTrie s.src).shape.leafAt = s.src.map some ∧
      Packs d ((buildTrie s.src).shape.preamble ++ fieldOf 32 s.src.length ++ codes.flatten)

/-- The length of a Huffman stream, the spec's inference R113 from R110 to R112: `10k - 1 + 32` bits and the codes'
bits, in whole bytes; `k` is the number of distinct bytes, 1 for the empty input. -/
def Obligations.HufStreamLength : Prop :=
  (∀ (s : State) (k : Nat), s.src.length ≤ 2 ^ 32 - 1 → k = (if s.src = [] then 1 else s.src.dedup.length) →
    ∃ t bits, exec .hufCompress s = .next t ∧ Packs t.dst bits ∧
      bits.length = 10 * k - 1 + 32 +
        (s.src.map fun b => (codeOf (codeTable (buildTrie s.src)) b).length).sum ∧
      t.dst.length = (bits.length + 7) / 8) ∧
    ∀ s : State, s.src = [] → ∃ t, exec .hufCompress s = .next t ∧ t.dst = [0x80, 0, 0, 0, 0, 0]

/-- HUF_DECOMPRESS of any trie a preamble can describe, any length and any codes that are paths to leaves: it emits
the leaves' symbols and stops just after the last code, whatever follows (R233, R234, R236). -/
def Obligations.HufDecompressReadsAnyTrie : Prop :=
  ∀ (s : State) (t : Trie) (codes : List (Bits × Byte)) (rest : Bits), t.nodeCount ≤ 511 → codes.length < 2 ^ 32 →
    (∀ e ∈ codes, t.leafAt e.1 = some e.2) →
    streamOf s.src = t.preamble ++ fieldOf 32 codes.length ++ (codes.map Prod.fst).flatten ++ rest →
    ∃ v, HoldsLength v codes.length ∧
      exec .hufDecompress s =
        .next { s with rpos := 8 * s.src.length - rest.length, dst := codes.map Prod.snd, wacc := 0, wcnt := 0, res := v,
                       code := .ok }

/-- A Huffman stream that ends inside the preamble, inside the length field or inside a code walk (R235):
`CorruptData`, the bytes decoded before it in DST, RES unchanged, the reader exhausted. A preamble is cut inside a node,
or before its first bit, after fewer than 511 nodes that leave a subtree to be read; whether any trie within the node
limit completes it does not matter. After 511 nodes, HufNodeLimit speaks. -/
def Obligations.HufDecompressTruncated : Prop :=
  ∀ s : State,
    (∀ (nodes : List (Option Byte)) (node : Option Byte) (cut missing : Bits), nodes.length < 511 →
      0 < subtreesLeft 1 nodes → missing ≠ [] → cut ++ missing = nodeBits node →
      streamOf s.src = nodes.flatMap nodeBits ++ cut →
      exec .hufDecompress s =
        .next { s with rpos := 8 * s.src.length, dst := [], wacc := 0, wcnt := 0, code := .corruptData }) ∧
    ∀ t : Trie, t.nodeCount ≤ 511 →
      (∀ part : Bits, part.length < 32 → streamOf s.src = t.preamble ++ part →
        exec .hufDecompress s =
          .next { s with rpos := 8 * s.src.length, dst := [], wacc := 0, wcnt := 0, code := .corruptData }) ∧
      (∀ (n : Nat) (codes : List (Bits × Byte)) (part : Bits), n < 2 ^ 32 → codes.length < n →
        (∀ e ∈ codes, t.leafAt e.1 = some e.2) → t.stopsInside part = true →
        streamOf s.src = t.preamble ++ fieldOf 32 n ++ (codes.map Prod.fst).flatten ++ part →
        exec .hufDecompress s =
          .next { s with rpos := 8 * s.src.length, dst := codes.map Prod.snd, wacc := 0, wcnt := 0,
                         code := .corruptData })

/-- The node limit (R232): with 511 nodes read and another to come, the command fails before that node's tag bit is
read. Every trie HUF_COMPRESS builds is within the limit. -/
def Obligations.HufNodeLimit : Prop :=
  (∀ (s : State) (nodes : List (Option Byte)) (rest : Bits), nodes.length = 511 → 0 < subtreesLeft 1 nodes →
    streamOf s.src = nodes.flatMap nodeBits ++ rest →
    exec .hufDecompress s =
      .next { s with rpos := 8 * s.src.length - rest.length, dst := [], wacc := 0, wcnt := 0, code := .corruptData }) ∧
    ∀ data : Bytes, (buildTrie data).shape.nodeCount ≤ 511

/-- The Huffman round trip on the machine, for every input within the length limit; and under every trie policy: with
the codes of any trie that has a leaf for each byte (R239). -/
def Obligations.HufRoundTrip : Prop :=
  (∀ (s : State) (data : Bytes) (rest : List HostAction), data.length ≤ 2 ^ 32 - 1 →
    s.host = .loadSrc data :: command .hufCompress :: .loadSrcDst :: command .hufDecompress :: rest →
    ∃ t : State, Sys2Proof.core.run 4 s = .next t ∧ t.code = .ok ∧ t.dst = data) ∧
    ∀ (s : State) (root : WTrie) (data : Bytes) (pad : Bits), data.length ≤ 2 ^ 32 - 1 →
      root.shape.nodeCount ≤ 511 → (∀ b ∈ data, b ∈ root.leaves.map Prod.fst) →
      streamOf s.src = root.shape.preamble ++ fieldOf 32 data.length ++ data.flatMap (codeOf (codeTable root)) ++ pad →
      ∃ t : State, exec .hufDecompress s = .next t ∧ t.code = .ok ∧ t.dst = data

/-! ## LZW -/

/-- The dictionary's form (10_state.md R47; R261, R277, R278) holds of the seeded dictionary and is kept by both
insertions, neither of which lowers NEXT; so no string is longer than `L - R`, the spec's inference R277. -/
def Obligations.DictionaryFormKept : Prop :=
  ∀ cfg : Config,
    (seedDict cfg).Wf cfg ∧
      (∀ (d : Dict) (data : Bytes) (e : Nat × Bytes), d.Wf cfg → e ∈ d.entries →
        (encoderInsert cfg d data e.2.length).Wf cfg ∧ d.next ≤ (encoderInsert cfg d data e.2.length).next) ∧
      (∀ (d : Dict) (p s : Bytes), d.Wf cfg → 1 ≤ p.length → p.length ≤ d.next - cfg.R → s ≠ [] →
        (decoderInsert cfg d (some p) s).Wf cfg ∧ d.next ≤ (decoderInsert cfg d (some p) s).next) ∧
      (∀ d : Dict, d.Wf cfg → ∀ e ∈ d.entries, e.2.length ≤ cfg.L - cfg.R)

/-- LZW_COMPRESS on an input in the alphabet: the codewords spell the input, each string is the longest the dictionary
of that moment has, the sentinel ends the stream (R114, R263 to R265). The number of bytes is the spec's inference in
R114, and that there are at most as many codewords as bytes its inference in R265. -/
def Obligations.LzwCompressWritesTheGreedyStream : Prop :=
  ∀ s : State, (∀ b ∈ s.src, b.toNat < s.cfg.R) →
    ∃ (codes : List Nat) (strings : List Bytes) (d : Bytes) (v : BitVec 64),
      exec .lzwCompress s =
        .next { s with rpos := 8 * s.src.length, dst := d, wacc := 0, wcnt := 0, res := v, code := .ok } ∧
      HoldsLength v d.length ∧ Spells s.cfg codes strings ∧ strings.flatten = s.src ∧ codes.length ≤ s.src.length ∧
      Packs d (lzwBits s.cfg codes) ∧ d.length = (s.cfg.W * (codes.length + 1) + 7) / 8 ∧
      ∀ (j i : Nat) (p q q' : Bytes), strings[j]? = some p → i < j → s.cfg.R + 1 + i < s.cfg.L →
        strings[i]? = some q → strings[i + 1]? = some q' → (q ++ q'.take 1) <+: (strings.drop j).flatten →
        (q ++ q'.take 1).length ≤ p.length

/-- LZW_DECOMPRESS of any stream whose codewords spell strings and end in the sentinel: it emits the strings and stops
just after the sentinel, whatever follows (R270 to R274). -/
def Obligations.LzwDecompressReadsSpelledStreams : Prop :=
  ∀ (s : State) (codes : List Nat) (strings : List Bytes) (rest : Bits), Spells s.cfg codes strings →
    streamOf s.src = lzwBits s.cfg codes ++ rest →
    ∃ v, HoldsLength v strings.flatten.length ∧
      exec .lzwDecompress s =
        .next { s with rpos := 8 * s.src.length - rest.length, dst := strings.flatten, wacc := 0, wcnt := 0, res := v,
                       code := .ok }

/-- How else LZW_DECOMPRESS ends after codewords that spell strings (R271, R274, R275): an unassigned codeword with
bits after it fails just after it; a codeword the stream ends with is not emitted, and the command succeeds; a stream
that ends inside a codeword fails, exhausted. -/
def Obligations.LzwDecompressOtherEnds : Prop :=
  ∀ (s : State) (codes : List Nat) (strings : List Bytes), Spells s.cfg codes strings →
    (∀ (c : Nat) (rest : Bits), s.cfg.R < c → c < 2 ^ s.cfg.W → (s.cfg.L ≤ c ∨ s.cfg.R + codes.length < c) →
      rest ≠ [] → streamOf s.src = (codes ++ [c]).flatMap (fieldOf s.cfg.W) ++ rest →
      exec .lzwDecompress s =
        .next { s with rpos := 8 * s.src.length - rest.length, dst := strings.flatten, wacc := 0, wcnt := 0,
                       code := .corruptData }) ∧
    (∀ c : Nat, c < 2 ^ s.cfg.W → streamOf s.src = (codes ++ [c]).flatMap (fieldOf s.cfg.W) →
      ∃ v, HoldsLength v strings.flatten.length ∧
        exec .lzwDecompress s =
          .next { s with rpos := 8 * s.src.length, dst := strings.flatten, wacc := 0, wcnt := 0, res := v,
                         code := .ok }) ∧
    (∀ part : Bits, part.length < s.cfg.W → (codes = [] ∨ part ≠ []) →
      streamOf s.src = codes.flatMap (fieldOf s.cfg.W) ++ part →
      exec .lzwDecompress s =
        .next { s with rpos := 8 * s.src.length, dst := strings.flatten, wacc := 0, wcnt := 0, code := .corruptData })

/-- The LZW round trip on the machine; and the source's scenario as R279 corrects it: "AAAA" gives 65, 257, 65, 256,
and both that sequence and 65, 65, 65, 65, 256 decode to it. -/
def Obligations.LzwRoundTrip : Prop :=
  (∀ (s : State) (data : Bytes) (rest : List HostAction), (∀ b ∈ data, b.toNat < s.cfg.R) →
    s.host = .loadSrc data :: command .lzwCompress :: .loadSrcDst :: command .lzwDecompress :: rest →
    ∃ t : State, Sys2Proof.core.run 4 s = .next t ∧ t.code = .ok ∧ t.dst = data) ∧
    ∀ s : State, s.cfg = Config.standard →
      (s.src = [0x41, 0x41, 0x41, 0x41] →
        ∃ t, exec .lzwCompress s = .next t ∧ t.code = .ok ∧ Packs t.dst ([65, 257, 65, 256].flatMap (fieldOf 12))) ∧
      (Packs s.src ([65, 257, 65, 256].flatMap (fieldOf 12)) ∨ Packs s.src ([65, 65, 65, 65, 256].flatMap (fieldOf 12)) →
        ∃ t, exec .lzwDecompress s = .next t ∧ t.code = .ok ∧ t.dst = [0x41, 0x41, 0x41, 0x41])

/-- How much the decoders and encoders can write, the spec's inferences R277 and R471: at most `L - R` bytes for a
whole codeword of the input, and at most `10·256 - 1 + 32 + 255·|SRC|` bits, in whole bytes, from HUF_COMPRESS. -/
def Obligations.OutputBounds : Prop :=
  ∀ s t : State,
    (exec .lzwDecompress s = .next t → t.dst.length ≤ (s.cfg.L - s.cfg.R) * (8 * s.src.length / s.cfg.W)) ∧
      (exec .hufCompress s = .next t → t.dst.length ≤ (10 * 256 - 1 + 32 + 255 * s.src.length + 7) / 8)

/-- The inputs HUF_COMPRESS, LZW_COMPRESS and ARC_PACK refuse, each with `InvalidArgument` and an empty DST (R222,
R266, R311, R314). -/
def Obligations.EncodersRefuseTheseInputs : Prop :=
  ∀ s : State,
    (2 ^ 32 - 1 < s.src.length →
      exec .hufCompress s =
        .next { s with rpos := 8 * s.src.length, dst := [], wacc := 0, wcnt := 0, code := .invalidArgument }) ∧
    ((∃ b ∈ s.src, s.cfg.R ≤ b.toNat) →
      exec .lzwCompress s =
        .next { s with rpos := 8 * s.src.length, dst := [], wacc := 0, wcnt := 0, code := .invalidArgument }) ∧
    ((∃ e ∈ s.ein, 2 ^ 32 ≤ e.name.length ∨ 2 ^ 64 ≤ e.content.length) ∨ (∃ b ∈ blobOf s.cfg s.ein, s.cfg.R ≤ b.toNat) →
      exec .arcPack s = .next { s with dst := [], wacc := 0, wcnt := 0, code := .invalidArgument })

/-! ## The archive -/

/-- The blob of an entry list (R116): its fields in order with the separator `R - 1` between them, a separator between
successive frames, and its length, which is the spec's inference in R116. -/
def Obligations.BlobLayout : Prop :=
  ∀ cfg : Config,
    (separator cfg).toNat = cfg.R - 1 ∧
      (∀ e : Entry, ∃ n z : Bytes, streamOf n = fieldOf 32 e.name.length ∧ streamOf z = fieldOf 64 e.content.length ∧
        frameOf cfg e =
          n ++ [separator cfg] ++ e.name ++ [separator cfg] ++ z ++ [separator cfg] ++ e.content) ∧
      ∀ es : List Entry,
        blobOf cfg es = ((es.map (frameOf cfg)).intersperse [separator cfg]).flatten ∧
          (es ≠ [] → (blobOf cfg es).length =
            (es.map fun e => 15 + e.name.length + e.content.length).sum + (es.length - 1))

/-- ARC_PACK writes what LZW_COMPRESS writes for the blob, the spec's inference in R315, and leaves SRC and RPOS
(R311). -/
def Obligations.ArcPackIsLzwOfTheBlob : Prop :=
  ∀ s : State, (∀ e ∈ s.ein, e.name.length < 2 ^ 32 ∧ e.content.length < 2 ^ 64) →
    (∀ b ∈ blobOf s.cfg s.ein, b.toNat < s.cfg.R) →
    ∃ d v u, exec .arcPack s = .next { s with dst := d, wacc := 0, wcnt := 0, res := v, code := .ok } ∧
      HoldsLength v d.length ∧ exec .lzwCompress { s with src := blobOf s.cfg s.ein } = .next u ∧ u.code = .ok ∧
      u.dst = d

/-- ARC_UNPACK of a stream that spells the blob of entries which fit their fields (R320, R324), and stops at the sentinel
or because it is exhausted after one more codeword (R321, R274): EOUT is those entries, RES their number, DST is empty,
and the reader stands just after the last codeword read. -/
def Obligations.ArcUnpackGivesTheEntries : Prop :=
  ∀ (s : State) (es : List Entry) (codes : List Nat) (strings : List Bytes) (rest : Bits),
    (∀ e ∈ es, e.name.length < 2 ^ 32 ∧ e.content.length < 2 ^ 64) → Spells s.cfg codes strings →
    strings.flatten = blobOf s.cfg es → StopsAfter s.cfg codes rest (streamOf s.src) →
    ∃ v, HoldsLength v es.length ∧
      exec .arcUnpack s =
        .next { s with rpos := 8 * s.src.length - rest.length, dst := [], wacc := 0, wcnt := 0, eout := es, res := v,
                       code := .ok }

/-- How ARC_UNPACK fails while it parses (R323 to R325), after the entries `es`: a byte other than the separator
follows the last of them; the next frame is cut short; or a byte of it that must be a separator is another. EOUT keeps
`es`. The LZW stage stops at the sentinel, or because the stream is exhausted after one more codeword (R321, R274). -/
def Obligations.ArcUnpackKeepsCompletedEntries : Prop :=
  ∀ (s : State) (es : List Entry) (e : Entry) (codes : List Nat) (strings : List Bytes) (rest : Bits) (start : Bytes),
    (∀ x ∈ es ++ [e], x.name.length < 2 ^ 32 ∧ x.content.length < 2 ^ 64) → Spells s.cfg codes strings →
    StopsAfter s.cfg codes rest (streamOf s.src) →
    start = (if es = [] then [] else blobOf s.cfg es ++ [separator s.cfg]) →
    ((∃ b more, es ≠ [] ∧ b ≠ separator s.cfg ∧ strings.flatten = blobOf s.cfg es ++ b :: more) ∨
      (∃ cut more, more ≠ [] ∧ cut ++ more = frameOf s.cfg e ∧ start ++ cut ≠ [] ∧ strings.flatten = start ++ cut) ∨
      (∃ k b more, k ∈ [4, 5 + e.name.length, 14 + e.name.length] ∧ b ≠ separator s.cfg ∧
        strings.flatten = start ++ (frameOf s.cfg e).take k ++ b :: more)) →
    exec .arcUnpack s =
      .next { s with rpos := 8 * s.src.length - rest.length, dst := [], wacc := 0, wcnt := 0, eout := es,
                     code := .corruptData }

/-- A failure of the LZW stage ends ARC_UNPACK with EOUT empty, since parsing has not begun, where LZW_DECOMPRESS of
the same stream would stop (R321). -/
def Obligations.ArcUnpackLzwStageFails : Prop :=
  ∀ s t : State, exec .lzwDecompress s = .next t → t.code = .corruptData →
    exec .arcUnpack s =
      .next { s with rpos := t.rpos, dst := [], wacc := 0, wcnt := 0, eout := [], code := .corruptData }

/-- The archive round trip on the machine, for every entry list ARC_PACK accepts, the empty one too (R328). -/
def Obligations.ArchiveRoundTrip : Prop :=
  ∀ (s u : State) (es : List Entry) (rest : List HostAction), exec .arcPack { s with ein := es } = .next u →
    u.code = .ok →
    s.host = .loadEin es :: command .arcPack :: .loadSrcDst :: command .arcUnpack :: rest →
    ∃ t : State, Sys2Proof.core.run 4 s = .next t ∧ t.code = .ok ∧ t.eout = es

/-! ## Control and the pseudo-commands -/

/-- NOP writes STATUS.CODE and nothing else (R350). -/
def Obligations.NopClearsTheCode : Prop :=
  decode 0x00000000#32 = .instr .nop ∧ encode .nop = State.reset.cmd ∧
    ∀ s : State, exec .nop s = .next { s with code := .ok }

/-- The pseudo-commands' expansions and the equivalences noted with them, the spec's inferences in R109. -/
def Obligations.PseudoCommandsAgree : Prop :=
  (∀ (v : BitVec 64) (w : Nat), pseudoWr v w = [.setArg v, command (.wrBits w)] ∧
      pseudoWr8 v = [.setArg v, command .wrByte] ∧ pseudoWr32 v = [.setArg v, command .wrInt32] ∧
      pseudoWr64 v = [.setArg v, command .wrInt64] ∧ pseudoWrb v = [.setArg v, command .wrBit]) ∧
    (pseudoRd8 = [command .rdByte] ∧ pseudoRd32 = [command .rdInt32] ∧ pseudoRd1 = [command .rdBit]) ∧
    (pseudoRoundtripHuf = [command .hufCompress, .loadSrcDst, command .hufDecompress] ∧
      pseudoRoundtripLzw = [command .lzwCompress, .loadSrcDst, command .lzwDecompress]) ∧
    (∀ s : State, exec .wrByte s = exec (.wrBits 8) s ∧ exec .wrInt32 s = exec (.wrBits 32) s ∧
      exec .wrBit s = exec (.wrBits 1) s ∧ exec .rdByte s = exec (.rdBits 8) s ∧
      exec .rdInt32 s = exec (.rdBits 32) s ∧ exec .rdBit s = exec (.rdBits 1) s) ∧
    (∀ (s : State) (v : BitVec 64) (rest rest' : List HostAction),
      ∃ t u : State, Sys2Proof.core.run 2 (s.withHost (pseudoWr64 v ++ rest)) = .next t ∧
        Sys2Proof.core.run 4 (s.withHost (pseudoWr (BitVec.ofNat 64 (v.toNat / 2 ^ 32)) 32 ++
          pseudoWr (BitVec.ofNat 64 (v.toNat % 2 ^ 32)) 32 ++ rest')) = .next u ∧
        t.code = .ok ∧ u.code = .ok ∧ t.dst = u.dst ∧ t.wacc = u.wacc ∧ t.wcnt = u.wcnt) ∧
    (∀ (s : State) (rest : List HostAction), s.src.length ≤ 2 ^ 32 - 1 →
      ∃ t : State, Sys2Proof.core.run 3 (s.withHost (pseudoRoundtripHuf ++ rest)) = .next t ∧ t.dst = s.src) ∧
    ∀ (s : State) (rest : List HostAction), (∀ b ∈ s.src, b.toNat < s.cfg.R) →
      ∃ t : State, Sys2Proof.core.run 3 (s.withHost (pseudoRoundtripLzw ++ rest)) = .next t ∧ t.dst = s.src
end

