-- ==== Sys2Proof/Laws/Bits.lean ====
section
/-! SUPPORT. Bits, fields and bytes: lengths, positions, and that writing a field and reading it agree. -/

namespace Sys2Proof.Machine

/-! ## Fields -/

@[simp] theorem bitsOf_nil (v : Nat) : bitsOf 0 v = [] := rfl

@[simp] theorem bitsOf_length (n v : Nat) : (bitsOf n v).length = n := by
  induction n with
  | zero => rfl
  | succ n ih => simp [bitsOf, ih]

/-- Bit `k` of a field, in stream order, is the bit of weight `2^(n-1-k)` (20_memory.md R71). -/
theorem bitsOf_getElem (n v k : Nat) (h : k < (bitsOf n v).length) :
    (bitsOf n v)[k] = v.testBit (n - 1 - k) := by
  induction n generalizing k with
  | zero => simp at h
  | succ n ih =>
    cases k with
    | zero => simp [bitsOf]
    | succ k =>
      have hk : k < (bitsOf n v).length := by simp at h ⊢; omega
      simp only [bitsOf, List.getElem_cons_succ, ih k hk]
      congr 1
      omega

theorem bitsOf_eq_map (n v : Nat) : bitsOf n v = (List.range n).map fun k => v.testBit (n - 1 - k) := by
  apply List.ext_getElem
  · simp
  · intro k h _
    simp [bitsOf_getElem]

theorem bitsVal_go (v : Nat) (bs : Bits) :
    bs.foldl (fun v b => 2 * v + b.toNat) v = v * 2 ^ bs.length + bitsVal bs := by
  induction bs generalizing v with
  | nil => simp [bitsVal]
  | cons b bs ih =>
    simp only [bitsVal, List.foldl_cons, List.length_cons, ih (2 * v + b.toNat), ih (2 * 0 + b.toNat)]
    ring

theorem bitsVal_append (xs ys : Bits) : bitsVal (xs ++ ys) = bitsVal xs * 2 ^ ys.length + bitsVal ys := by
  rw [bitsVal, List.foldl_append, bitsVal_go]
  rfl

theorem bitsVal_cons (b : Bool) (bs : Bits) : bitsVal (b :: bs) = b.toNat * 2 ^ bs.length + bitsVal bs := by
  rw [bitsVal, List.foldl_cons, bitsVal_go]
  simp

@[simp] theorem bitsVal_nil : bitsVal [] = 0 := rfl

theorem bitsVal_lt (bs : Bits) : bitsVal bs < 2 ^ bs.length := by
  induction bs with
  | nil => simp
  | cons b bs ih =>
    rw [bitsVal_cons, List.length_cons, pow_succ]
    cases b <;> simp <;> omega

theorem mod_two_pow_succ_bit (v n : Nat) : v % 2 ^ (n + 1) = (v.testBit n).toNat * 2 ^ n + v % 2 ^ n := by
  have h := Nat.mod_mul (x := v) (a := 2 ^ n) (b := 2)
  have ht : (v.testBit n).toNat = v / 2 ^ n % 2 := by
    rw [Nat.testBit_eq_decide_div_mod_eq]
    rcases Nat.mod_two_eq_zero_or_one (v / 2 ^ n) with h0 | h0 <;> simp [h0]
  rw [pow_succ, h, ht]
  ring

/-- Reading the field that was written gives its value, cut to the width. -/
theorem bitsVal_bitsOf_mod (n v : Nat) : bitsVal (bitsOf n v) = v % 2 ^ n := by
  induction n with
  | zero => simp [bitsOf, Nat.mod_one]
  | succ n ih => rw [bitsOf, bitsVal_cons, bitsOf_length, ih, mod_two_pow_succ_bit]

theorem bitsVal_bitsOf {n v : Nat} (h : v < 2 ^ n) : bitsVal (bitsOf n v) = v := by
  rw [bitsVal_bitsOf_mod, Nat.mod_eq_of_lt h]

theorem bitsOf_mod (n v : Nat) : bitsOf n (v % 2 ^ n) = bitsOf n v := by
  rw [bitsOf_eq_map, bitsOf_eq_map]
  apply List.map_congr_left
  intro k hk
  have : n - 1 - k < n := by have := List.mem_range.mp hk; omega
  simp [Nat.testBit_mod_two_pow, this]

theorem bitsVal_inj {xs ys : Bits} (hl : xs.length = ys.length) (hv : bitsVal xs = bitsVal ys) : xs = ys := by
  induction xs generalizing ys with
  | nil => cases ys with
    | nil => rfl
    | cons y ys => simp at hl
  | cons x xs ih =>
    cases ys with
    | nil => simp at hl
    | cons y ys =>
      have hl' : xs.length = ys.length := by simpa using hl
      rw [bitsVal_cons, bitsVal_cons, hl'] at hv
      have h1 := bitsVal_lt xs
      have h2 := bitsVal_lt ys
      rw [hl'] at h1
      have hxy : x = y := by
        cases x <;> cases y <;> simp at hv ⊢ <;> omega
      subst hxy
      rw [ih hl' (by omega)]

/-- Writing the value that was read gives the bits back. -/
theorem bitsOf_bitsVal (bs : Bits) : bitsOf bs.length (bitsVal bs) = bs :=
  bitsVal_inj (by simp) (bitsVal_bitsOf (bitsVal_lt bs))

/-- A field of `a + b` bits is a field of `a` bits and one of `b` bits (20_memory.md R75). -/
theorem bitsOf_add (a b x y : Nat) (hy : y < 2 ^ b) : bitsOf (a + b) (x * 2 ^ b + y) = bitsOf a x ++ bitsOf b y := by
  apply bitsVal_inj
  · simp
  · have hdiv : (x * 2 ^ b + y) / 2 ^ b = x := by
      rw [Nat.add_comm, Nat.add_mul_div_right _ _ (Nat.two_pow_pos b), Nat.div_eq_of_lt hy, Nat.zero_add]
    have hmod : (x * 2 ^ b + y) % 2 ^ b = y := by
      rw [Nat.add_comm, Nat.add_mul_mod_self_right, Nat.mod_eq_of_lt hy]
    rw [bitsVal_append, bitsOf_length, bitsVal_bitsOf_mod, bitsVal_bitsOf_mod, bitsVal_bitsOf hy, Nat.add_comm a b,
      pow_add, Nat.mod_mul, hdiv, hmod]
    ring

/-! ## Bytes -/

@[simp] theorem byteBits_length (b : Byte) : (byteBits b).length = 8 := by simp [byteBits]

theorem byteBits_inj {b c : Byte} (h : byteBits b = byteBits c) : b = c := by
  have hv := congrArg bitsVal h
  rw [byteBits, byteBits, bitsVal_bitsOf b.isLt, bitsVal_bitsOf c.isLt] at hv
  exact BitVec.eq_of_toNat_eq hv

@[simp] theorem streamBits_nil : streamBits [] = [] := rfl

@[simp] theorem streamBits_cons (b : Byte) (bytes : Bytes) : streamBits (b :: bytes) = byteBits b ++ streamBits bytes := by
  simp [streamBits]

@[simp] theorem streamBits_append (xs ys : Bytes) : streamBits (xs ++ ys) = streamBits xs ++ streamBits ys := by
  simp [streamBits]

@[simp] theorem streamBits_length (bytes : Bytes) : (streamBits bytes).length = 8 * bytes.length := by
  induction bytes with
  | nil => rfl
  | cons b bytes ih => simp [ih]; ring

/-- A byte sequence is determined by its bits. -/
theorem streamBits_inj {xs ys : Bytes} (h : streamBits xs = streamBits ys) : xs = ys := by
  induction xs generalizing ys with
  | nil =>
    cases ys with
    | nil => rfl
    | cons y ys =>
      have := congrArg List.length h
      simp only [streamBits_length, List.length_nil, List.length_cons] at this
      omega
  | cons x xs ih =>
    cases ys with
    | nil =>
      have := congrArg List.length h
      simp only [streamBits_length, List.length_nil, List.length_cons] at this
      omega
    | cons y ys =>
      rw [streamBits_cons, streamBits_cons] at h
      obtain ⟨h1, h2⟩ := List.append_inj h (by simp)
      rw [byteBits_inj h1, ih h2]

/-- Bit `i` of the stream is bit `7 - i mod 8` of byte `i / 8` (20_memory.md R71). -/
theorem streamBits_getElem (bytes : Bytes) (i : Nat) (h : i < (streamBits bytes).length) :
    (streamBits bytes)[i] = (bytes.getD (i / 8) 0).toNat.testBit (7 - i % 8) := by
  induction bytes generalizing i with
  | nil => simp at h
  | cons b bytes ih =>
    simp only [streamBits_cons]
    by_cases hi : i < 8
    · rw [List.getElem_append_left (by simpa using hi)]
      rw [show i / 8 = 0 by omega, show i % 8 = i by omega]
      simp [byteBits, bitsOf_getElem]
    · rw [List.getElem_append_right (by simpa using hi)]
      have hlen : i - 8 < (streamBits bytes).length := by simp at h ⊢; omega
      simp only [byteBits_length]
      rw [ih (i - 8) hlen, show i / 8 = (i - 8) / 8 + 1 by omega, show (i - 8) % 8 = i % 8 by omega]
      simp

/-! ## Big-endian byte fields -/

@[simp] theorem bytesOf_length (k v : Nat) : (bytesOf k v).length = k := by
  induction k with
  | zero => rfl
  | succ k ih => simp [bytesOf, ih]

theorem bytesVal_go (v : Nat) (bs : Bytes) :
    bs.foldl (fun v b => 256 * v + b.toNat) v = v * 256 ^ bs.length + bytesVal bs := by
  induction bs generalizing v with
  | nil => simp [bytesVal]
  | cons b bs ih =>
    simp only [bytesVal, List.foldl_cons, List.length_cons, ih (256 * v + b.toNat), ih (256 * 0 + b.toNat)]
    ring

theorem bytesVal_cons (b : Byte) (bs : Bytes) : bytesVal (b :: bs) = b.toNat * 256 ^ bs.length + bytesVal bs := by
  rw [bytesVal, List.foldl_cons, bytesVal_go]
  simp

/-- Reading the big-endian field that was written gives its value, cut to the width (20_memory.md R70). -/
theorem bytesVal_bytesOf_mod (k v : Nat) : bytesVal (bytesOf k v) = v % 256 ^ k := by
  induction k with
  | zero => simp [bytesOf, bytesVal, Nat.mod_one]
  | succ k ih =>
    rw [bytesOf, bytesVal_cons, bytesOf_length, ih, BitVec.toNat_ofNat, show 2 ^ 8 = 256 from rfl, pow_succ, Nat.mod_mul]
    ring

theorem bytesVal_bytesOf {k v : Nat} (h : v < 256 ^ k) : bytesVal (bytesOf k v) = v := by
  rw [bytesVal_bytesOf_mod, Nat.mod_eq_of_lt h]

end Sys2Proof.Machine
end

