-- ==== Sys2Proof/Laws/State.lean ====
section
/-! SUPPORT. Each update of the state, field by field: what it writes and what it leaves. -/

namespace Sys2Proof.Machine

variable (s : State)

/-! ## `withCmd` -/

@[simp] theorem State.withCmd_cmd (c : CmdWord) : (s.withCmd c).cmd = c := rfl
@[simp] theorem State.withCmd_arg (c : CmdWord) : (s.withCmd c).arg = s.arg := rfl
@[simp] theorem State.withCmd_res (c : CmdWord) : (s.withCmd c).res = s.res := rfl
@[simp] theorem State.withCmd_code (c : CmdWord) : (s.withCmd c).code = s.code := rfl
@[simp] theorem State.withCmd_cfg (c : CmdWord) : (s.withCmd c).cfg = s.cfg := rfl
@[simp] theorem State.withCmd_src (c : CmdWord) : (s.withCmd c).src = s.src := rfl
@[simp] theorem State.withCmd_rpos (c : CmdWord) : (s.withCmd c).rpos = s.rpos := rfl
@[simp] theorem State.withCmd_dst (c : CmdWord) : (s.withCmd c).dst = s.dst := rfl
@[simp] theorem State.withCmd_wacc (c : CmdWord) : (s.withCmd c).wacc = s.wacc := rfl
@[simp] theorem State.withCmd_wcnt (c : CmdWord) : (s.withCmd c).wcnt = s.wcnt := rfl
@[simp] theorem State.withCmd_ein (c : CmdWord) : (s.withCmd c).ein = s.ein := rfl
@[simp] theorem State.withCmd_eout (c : CmdWord) : (s.withCmd c).eout = s.eout := rfl
@[simp] theorem State.withCmd_host (c : CmdWord) : (s.withCmd c).host = s.host := rfl
@[simp] theorem State.withCmd_returned (c : CmdWord) : (s.withCmd c).returned = s.returned := rfl
@[simp] theorem State.withCmd_writer (c : CmdWord) : (s.withCmd c).writer = s.writer := rfl

/-! ## `withArg` -/

@[simp] theorem State.withArg_cmd (v : BitVec 64) : (s.withArg v).cmd = s.cmd := rfl
@[simp] theorem State.withArg_arg (v : BitVec 64) : (s.withArg v).arg = v := rfl
@[simp] theorem State.withArg_res (v : BitVec 64) : (s.withArg v).res = s.res := rfl
@[simp] theorem State.withArg_code (v : BitVec 64) : (s.withArg v).code = s.code := rfl
@[simp] theorem State.withArg_cfg (v : BitVec 64) : (s.withArg v).cfg = s.cfg := rfl
@[simp] theorem State.withArg_src (v : BitVec 64) : (s.withArg v).src = s.src := rfl
@[simp] theorem State.withArg_rpos (v : BitVec 64) : (s.withArg v).rpos = s.rpos := rfl
@[simp] theorem State.withArg_dst (v : BitVec 64) : (s.withArg v).dst = s.dst := rfl
@[simp] theorem State.withArg_wacc (v : BitVec 64) : (s.withArg v).wacc = s.wacc := rfl
@[simp] theorem State.withArg_wcnt (v : BitVec 64) : (s.withArg v).wcnt = s.wcnt := rfl
@[simp] theorem State.withArg_ein (v : BitVec 64) : (s.withArg v).ein = s.ein := rfl
@[simp] theorem State.withArg_eout (v : BitVec 64) : (s.withArg v).eout = s.eout := rfl
@[simp] theorem State.withArg_host (v : BitVec 64) : (s.withArg v).host = s.host := rfl
@[simp] theorem State.withArg_returned (v : BitVec 64) : (s.withArg v).returned = s.returned := rfl
@[simp] theorem State.withArg_writer (v : BitVec 64) : (s.withArg v).writer = s.writer := rfl

/-! ## `withRes` -/

@[simp] theorem State.withRes_cmd (v : BitVec 64) : (s.withRes v).cmd = s.cmd := rfl
@[simp] theorem State.withRes_arg (v : BitVec 64) : (s.withRes v).arg = s.arg := rfl
@[simp] theorem State.withRes_res (v : BitVec 64) : (s.withRes v).res = v := rfl
@[simp] theorem State.withRes_code (v : BitVec 64) : (s.withRes v).code = s.code := rfl
@[simp] theorem State.withRes_cfg (v : BitVec 64) : (s.withRes v).cfg = s.cfg := rfl
@[simp] theorem State.withRes_src (v : BitVec 64) : (s.withRes v).src = s.src := rfl
@[simp] theorem State.withRes_rpos (v : BitVec 64) : (s.withRes v).rpos = s.rpos := rfl
@[simp] theorem State.withRes_dst (v : BitVec 64) : (s.withRes v).dst = s.dst := rfl
@[simp] theorem State.withRes_wacc (v : BitVec 64) : (s.withRes v).wacc = s.wacc := rfl
@[simp] theorem State.withRes_wcnt (v : BitVec 64) : (s.withRes v).wcnt = s.wcnt := rfl
@[simp] theorem State.withRes_ein (v : BitVec 64) : (s.withRes v).ein = s.ein := rfl
@[simp] theorem State.withRes_eout (v : BitVec 64) : (s.withRes v).eout = s.eout := rfl
@[simp] theorem State.withRes_host (v : BitVec 64) : (s.withRes v).host = s.host := rfl
@[simp] theorem State.withRes_returned (v : BitVec 64) : (s.withRes v).returned = s.returned := rfl
@[simp] theorem State.withRes_writer (v : BitVec 64) : (s.withRes v).writer = s.writer := rfl

/-! ## `withCode` -/

@[simp] theorem State.withCode_cmd (e : ResultCode) : (s.withCode e).cmd = s.cmd := rfl
@[simp] theorem State.withCode_arg (e : ResultCode) : (s.withCode e).arg = s.arg := rfl
@[simp] theorem State.withCode_res (e : ResultCode) : (s.withCode e).res = s.res := rfl
@[simp] theorem State.withCode_code (e : ResultCode) : (s.withCode e).code = e := rfl
@[simp] theorem State.withCode_cfg (e : ResultCode) : (s.withCode e).cfg = s.cfg := rfl
@[simp] theorem State.withCode_src (e : ResultCode) : (s.withCode e).src = s.src := rfl
@[simp] theorem State.withCode_rpos (e : ResultCode) : (s.withCode e).rpos = s.rpos := rfl
@[simp] theorem State.withCode_dst (e : ResultCode) : (s.withCode e).dst = s.dst := rfl
@[simp] theorem State.withCode_wacc (e : ResultCode) : (s.withCode e).wacc = s.wacc := rfl
@[simp] theorem State.withCode_wcnt (e : ResultCode) : (s.withCode e).wcnt = s.wcnt := rfl
@[simp] theorem State.withCode_ein (e : ResultCode) : (s.withCode e).ein = s.ein := rfl
@[simp] theorem State.withCode_eout (e : ResultCode) : (s.withCode e).eout = s.eout := rfl
@[simp] theorem State.withCode_host (e : ResultCode) : (s.withCode e).host = s.host := rfl
@[simp] theorem State.withCode_returned (e : ResultCode) : (s.withCode e).returned = s.returned := rfl
@[simp] theorem State.withCode_writer (e : ResultCode) : (s.withCode e).writer = s.writer := rfl

/-! ## `withSrc` -/

@[simp] theorem State.withSrc_cmd (b : Bytes) : (s.withSrc b).cmd = s.cmd := rfl
@[simp] theorem State.withSrc_arg (b : Bytes) : (s.withSrc b).arg = s.arg := rfl
@[simp] theorem State.withSrc_res (b : Bytes) : (s.withSrc b).res = s.res := rfl
@[simp] theorem State.withSrc_code (b : Bytes) : (s.withSrc b).code = s.code := rfl
@[simp] theorem State.withSrc_cfg (b : Bytes) : (s.withSrc b).cfg = s.cfg := rfl
@[simp] theorem State.withSrc_src (b : Bytes) : (s.withSrc b).src = b := rfl
@[simp] theorem State.withSrc_rpos (b : Bytes) : (s.withSrc b).rpos = s.rpos := rfl
@[simp] theorem State.withSrc_dst (b : Bytes) : (s.withSrc b).dst = s.dst := rfl
@[simp] theorem State.withSrc_wacc (b : Bytes) : (s.withSrc b).wacc = s.wacc := rfl
@[simp] theorem State.withSrc_wcnt (b : Bytes) : (s.withSrc b).wcnt = s.wcnt := rfl
@[simp] theorem State.withSrc_ein (b : Bytes) : (s.withSrc b).ein = s.ein := rfl
@[simp] theorem State.withSrc_eout (b : Bytes) : (s.withSrc b).eout = s.eout := rfl
@[simp] theorem State.withSrc_host (b : Bytes) : (s.withSrc b).host = s.host := rfl
@[simp] theorem State.withSrc_returned (b : Bytes) : (s.withSrc b).returned = s.returned := rfl
@[simp] theorem State.withSrc_writer (b : Bytes) : (s.withSrc b).writer = s.writer := rfl

/-! ## `withRpos` -/

@[simp] theorem State.withRpos_cmd (n : Nat) : (s.withRpos n).cmd = s.cmd := rfl
@[simp] theorem State.withRpos_arg (n : Nat) : (s.withRpos n).arg = s.arg := rfl
@[simp] theorem State.withRpos_res (n : Nat) : (s.withRpos n).res = s.res := rfl
@[simp] theorem State.withRpos_code (n : Nat) : (s.withRpos n).code = s.code := rfl
@[simp] theorem State.withRpos_cfg (n : Nat) : (s.withRpos n).cfg = s.cfg := rfl
@[simp] theorem State.withRpos_src (n : Nat) : (s.withRpos n).src = s.src := rfl
@[simp] theorem State.withRpos_rpos (n : Nat) : (s.withRpos n).rpos = n := rfl
@[simp] theorem State.withRpos_dst (n : Nat) : (s.withRpos n).dst = s.dst := rfl
@[simp] theorem State.withRpos_wacc (n : Nat) : (s.withRpos n).wacc = s.wacc := rfl
@[simp] theorem State.withRpos_wcnt (n : Nat) : (s.withRpos n).wcnt = s.wcnt := rfl
@[simp] theorem State.withRpos_ein (n : Nat) : (s.withRpos n).ein = s.ein := rfl
@[simp] theorem State.withRpos_eout (n : Nat) : (s.withRpos n).eout = s.eout := rfl
@[simp] theorem State.withRpos_host (n : Nat) : (s.withRpos n).host = s.host := rfl
@[simp] theorem State.withRpos_returned (n : Nat) : (s.withRpos n).returned = s.returned := rfl
@[simp] theorem State.withRpos_writer (n : Nat) : (s.withRpos n).writer = s.writer := rfl

/-! ## `withWriter` -/

@[simp] theorem State.withWriter_cmd (w : Writer) : (s.withWriter w).cmd = s.cmd := rfl
@[simp] theorem State.withWriter_arg (w : Writer) : (s.withWriter w).arg = s.arg := rfl
@[simp] theorem State.withWriter_res (w : Writer) : (s.withWriter w).res = s.res := rfl
@[simp] theorem State.withWriter_code (w : Writer) : (s.withWriter w).code = s.code := rfl
@[simp] theorem State.withWriter_cfg (w : Writer) : (s.withWriter w).cfg = s.cfg := rfl
@[simp] theorem State.withWriter_src (w : Writer) : (s.withWriter w).src = s.src := rfl
@[simp] theorem State.withWriter_rpos (w : Writer) : (s.withWriter w).rpos = s.rpos := rfl
@[simp] theorem State.withWriter_dst (w : Writer) : (s.withWriter w).dst = w.dst := rfl
@[simp] theorem State.withWriter_wacc (w : Writer) : (s.withWriter w).wacc = w.wacc := rfl
@[simp] theorem State.withWriter_wcnt (w : Writer) : (s.withWriter w).wcnt = w.wcnt := rfl
@[simp] theorem State.withWriter_ein (w : Writer) : (s.withWriter w).ein = s.ein := rfl
@[simp] theorem State.withWriter_eout (w : Writer) : (s.withWriter w).eout = s.eout := rfl
@[simp] theorem State.withWriter_host (w : Writer) : (s.withWriter w).host = s.host := rfl
@[simp] theorem State.withWriter_returned (w : Writer) : (s.withWriter w).returned = s.returned := rfl
@[simp] theorem State.withWriter_writer (w : Writer) : (s.withWriter w).writer = w := rfl

/-! ## `withEin` -/

@[simp] theorem State.withEin_cmd (e : List Entry) : (s.withEin e).cmd = s.cmd := rfl
@[simp] theorem State.withEin_arg (e : List Entry) : (s.withEin e).arg = s.arg := rfl
@[simp] theorem State.withEin_res (e : List Entry) : (s.withEin e).res = s.res := rfl
@[simp] theorem State.withEin_code (e : List Entry) : (s.withEin e).code = s.code := rfl
@[simp] theorem State.withEin_cfg (e : List Entry) : (s.withEin e).cfg = s.cfg := rfl
@[simp] theorem State.withEin_src (e : List Entry) : (s.withEin e).src = s.src := rfl
@[simp] theorem State.withEin_rpos (e : List Entry) : (s.withEin e).rpos = s.rpos := rfl
@[simp] theorem State.withEin_dst (e : List Entry) : (s.withEin e).dst = s.dst := rfl
@[simp] theorem State.withEin_wacc (e : List Entry) : (s.withEin e).wacc = s.wacc := rfl
@[simp] theorem State.withEin_wcnt (e : List Entry) : (s.withEin e).wcnt = s.wcnt := rfl
@[simp] theorem State.withEin_ein (e : List Entry) : (s.withEin e).ein = e := rfl
@[simp] theorem State.withEin_eout (e : List Entry) : (s.withEin e).eout = s.eout := rfl
@[simp] theorem State.withEin_host (e : List Entry) : (s.withEin e).host = s.host := rfl
@[simp] theorem State.withEin_returned (e : List Entry) : (s.withEin e).returned = s.returned := rfl
@[simp] theorem State.withEin_writer (e : List Entry) : (s.withEin e).writer = s.writer := rfl

/-! ## `withEout` -/

@[simp] theorem State.withEout_cmd (e : List Entry) : (s.withEout e).cmd = s.cmd := rfl
@[simp] theorem State.withEout_arg (e : List Entry) : (s.withEout e).arg = s.arg := rfl
@[simp] theorem State.withEout_res (e : List Entry) : (s.withEout e).res = s.res := rfl
@[simp] theorem State.withEout_code (e : List Entry) : (s.withEout e).code = s.code := rfl
@[simp] theorem State.withEout_cfg (e : List Entry) : (s.withEout e).cfg = s.cfg := rfl
@[simp] theorem State.withEout_src (e : List Entry) : (s.withEout e).src = s.src := rfl
@[simp] theorem State.withEout_rpos (e : List Entry) : (s.withEout e).rpos = s.rpos := rfl
@[simp] theorem State.withEout_dst (e : List Entry) : (s.withEout e).dst = s.dst := rfl
@[simp] theorem State.withEout_wacc (e : List Entry) : (s.withEout e).wacc = s.wacc := rfl
@[simp] theorem State.withEout_wcnt (e : List Entry) : (s.withEout e).wcnt = s.wcnt := rfl
@[simp] theorem State.withEout_ein (e : List Entry) : (s.withEout e).ein = s.ein := rfl
@[simp] theorem State.withEout_eout (e : List Entry) : (s.withEout e).eout = e := rfl
@[simp] theorem State.withEout_host (e : List Entry) : (s.withEout e).host = s.host := rfl
@[simp] theorem State.withEout_returned (e : List Entry) : (s.withEout e).returned = s.returned := rfl
@[simp] theorem State.withEout_writer (e : List Entry) : (s.withEout e).writer = s.writer := rfl

/-! ## `withHost` -/

@[simp] theorem State.withHost_cmd (h : List HostAction) : (s.withHost h).cmd = s.cmd := rfl
@[simp] theorem State.withHost_arg (h : List HostAction) : (s.withHost h).arg = s.arg := rfl
@[simp] theorem State.withHost_res (h : List HostAction) : (s.withHost h).res = s.res := rfl
@[simp] theorem State.withHost_code (h : List HostAction) : (s.withHost h).code = s.code := rfl
@[simp] theorem State.withHost_cfg (h : List HostAction) : (s.withHost h).cfg = s.cfg := rfl
@[simp] theorem State.withHost_src (h : List HostAction) : (s.withHost h).src = s.src := rfl
@[simp] theorem State.withHost_rpos (h : List HostAction) : (s.withHost h).rpos = s.rpos := rfl
@[simp] theorem State.withHost_dst (h : List HostAction) : (s.withHost h).dst = s.dst := rfl
@[simp] theorem State.withHost_wacc (h : List HostAction) : (s.withHost h).wacc = s.wacc := rfl
@[simp] theorem State.withHost_wcnt (h : List HostAction) : (s.withHost h).wcnt = s.wcnt := rfl
@[simp] theorem State.withHost_ein (h : List HostAction) : (s.withHost h).ein = s.ein := rfl
@[simp] theorem State.withHost_eout (h : List HostAction) : (s.withHost h).eout = s.eout := rfl
@[simp] theorem State.withHost_host (h : List HostAction) : (s.withHost h).host = h := rfl
@[simp] theorem State.withHost_returned (h : List HostAction) : (s.withHost h).returned = s.returned := rfl
@[simp] theorem State.withHost_writer (h : List HostAction) : (s.withHost h).writer = s.writer := rfl

/-! ## `withReturned` -/

@[simp] theorem State.withReturned_cmd (r : List HostValue) : (s.withReturned r).cmd = s.cmd := rfl
@[simp] theorem State.withReturned_arg (r : List HostValue) : (s.withReturned r).arg = s.arg := rfl
@[simp] theorem State.withReturned_res (r : List HostValue) : (s.withReturned r).res = s.res := rfl
@[simp] theorem State.withReturned_code (r : List HostValue) : (s.withReturned r).code = s.code := rfl
@[simp] theorem State.withReturned_cfg (r : List HostValue) : (s.withReturned r).cfg = s.cfg := rfl
@[simp] theorem State.withReturned_src (r : List HostValue) : (s.withReturned r).src = s.src := rfl
@[simp] theorem State.withReturned_rpos (r : List HostValue) : (s.withReturned r).rpos = s.rpos := rfl
@[simp] theorem State.withReturned_dst (r : List HostValue) : (s.withReturned r).dst = s.dst := rfl
@[simp] theorem State.withReturned_wacc (r : List HostValue) : (s.withReturned r).wacc = s.wacc := rfl
@[simp] theorem State.withReturned_wcnt (r : List HostValue) : (s.withReturned r).wcnt = s.wcnt := rfl
@[simp] theorem State.withReturned_ein (r : List HostValue) : (s.withReturned r).ein = s.ein := rfl
@[simp] theorem State.withReturned_eout (r : List HostValue) : (s.withReturned r).eout = s.eout := rfl
@[simp] theorem State.withReturned_host (r : List HostValue) : (s.withReturned r).host = s.host := rfl
@[simp] theorem State.withReturned_returned (r : List HostValue) : (s.withReturned r).returned = r := rfl
@[simp] theorem State.withReturned_writer (r : List HostValue) : (s.withReturned r).writer = s.writer := rfl

/-! ## The writer part -/

@[simp] theorem State.writer_dst : s.writer.dst = s.dst := rfl
@[simp] theorem State.writer_wacc : s.writer.wacc = s.wacc := rfl
@[simp] theorem State.writer_wcnt : s.writer.wcnt = s.wcnt := rfl

end Sys2Proof.Machine
end

