-- ==== Sys2Proof/Laws/Ops.lean ====
section
/-! SUPPORT. What each shared operation can do, said once: reads, the writer, flushing, and how a command ends. -/

namespace Sys2Proof.Machine

/-! ## Reading -/

theorem takeBits_ok {n : Nat} {bits : Bits} (h : n ≤ bits.length) :
    takeBits n bits = .ok (bitsVal (bits.take n)) (bits.drop n) := by
  simp [takeBits, h]

theorem takeBits_short {n : Nat} {bits : Bits} (h : bits.length < n) : takeBits n bits = .fail .endOfStream [] := by
  have : min n bits.length < n := by omega
  simp [takeBits, this]

/-- Everything a read can do: it gives the next `n` bits, or fails with `EndOfStream` and leaves nothing unread. -/
theorem takeBits_cases (n : Nat) (bits : Bits) :
    (n ≤ bits.length ∧ takeBits n bits = .ok (bitsVal (bits.take n)) (bits.drop n)) ∨
      (bits.length < n ∧ takeBits n bits = .fail .endOfStream []) := by
  rcases Nat.lt_or_ge bits.length n with h | h
  · exact .inr ⟨h, takeBits_short h⟩
  · exact .inl ⟨h, takeBits_ok h⟩

/-- A field read from the place where it was written gives its value. -/
theorem takeBits_field {n v : Nat} (h : v < 2 ^ n) (rest : Bits) : takeBits n (bitsOf n v ++ rest) = .ok v rest := by
  have hb : (bitsOf n v ++ rest).take n = bitsOf n v := by simp
  have hd : (bitsOf n v ++ rest).drop n = rest := by simp
  rw [takeBits_ok (by simp), hb, hd, bitsVal_bitsOf h]

theorem takeBits_one (b : Bool) (rest : Bits) : takeBits 1 (b :: rest) = .ok b.toNat rest := by
  rw [takeBits_ok (by simp)]
  simp [bitsVal]

theorem takeBits_one_nil : takeBits 1 [] = .fail .endOfStream [] := rfl

@[simp] theorem State.unread_length (s : State) : s.unread.length = 8 * s.src.length - s.rpos := by
  simp [State.unread]

theorem State.readBits_ok {n : Nat} {s : State} (h : s.rpos + n ≤ 8 * s.src.length) :
    s.readBits n = (some (bitsVal (s.unread.take n)), s.withRpos (s.rpos + n)) := by
  rw [State.readBits, takeBits_ok (by simp; omega)]

theorem State.readBits_short {n : Nat} {s : State} (hn : 1 ≤ n) (h : 8 * s.src.length < s.rpos + n) :
    s.readBits n = (none, s.withRpos (8 * s.src.length)) := by
  rw [State.readBits, takeBits_short (by simp; omega)]

theorem State.readToRes_ok {n : Nat} {s : State} (h : s.rpos + n ≤ 8 * s.src.length) :
    s.readToRes n = ((s.withRpos (s.rpos + n)).withRes (BitVec.ofNat 64 (bitsVal (s.unread.take n)))).done := by
  rw [State.readToRes, State.readBits_ok h]

theorem State.readToRes_short {n : Nat} {s : State} (hn : 1 ≤ n) (h : 8 * s.src.length < s.rpos + n) :
    s.readToRes n = (s.withRpos (8 * s.src.length)).raise .endOfStream := by
  rw [State.readToRes, State.readBits_short hn h]

/-- A read writes RES, RPOS and the code, and nothing else. -/
theorem State.readToRes_frame (n : Nat) (s : State) :
    ∃ v p e, s.readToRes n = { s with res := v, rpos := p, code := e } := by
  rw [State.readToRes, State.readBits]
  rcases takeBits_cases n s.unread with ⟨_, h⟩ | ⟨_, h⟩ <;> rw [h]
  · exact ⟨_, _, _, rfl⟩
  · exact ⟨s.res, _, _, rfl⟩

/-! ## The writer -/

/-- The form of the writer registers between commands (10_state.md R42). -/
def Writer.Wf (w : Writer) : Prop := w.wcnt < 8 ∧ w.wacc.toNat < 2 ^ w.wcnt

/-- The pending output stream of the writer (10_state.md R42). -/
def Writer.bits (w : Writer) : Bits := streamBits w.dst ++ bitsOf w.wcnt w.wacc.toNat

/-! ## The terms of Safety.lean and the operations -/

theorem fieldOf_eq (n v : Nat) : fieldOf n v = bitsOf n v := (bitsOf_eq_map n v).symm

theorem streamOf_eq (bytes : Bytes) : streamOf bytes = streamBits bytes := by
  apply List.ext_getElem
  · simp [streamOf]
  · intro i h _
    simp [streamOf, streamBit, streamBits_getElem, BitVec.getLsbD]

theorem State.pendingOut_eq (s : State) : s.pendingOut = s.writer.bits := by
  rw [State.pendingOut, streamOf_eq, fieldOf_eq]
  rfl

/-! ## The writer's steps -/

theorem Writer.empty_wf : (⟨[], 0, 0⟩ : Writer).Wf := by constructor <;> simp

theorem Writer.empty_bits : (⟨[], 0, 0⟩ : Writer).bits = [] := rfl

theorem Writer.push_acc {w : Writer} (h : w.Wf) (b : Bool) :
    2 * w.wacc.toNat + b.toNat < 2 ^ (w.wcnt + 1) := by
  have h2 := h.2
  have : b.toNat ≤ 1 := Bool.toNat_le b
  rw [pow_succ]
  omega

theorem Writer.push_ofNat {w : Writer} (h : w.Wf) (b : Bool) :
    (BitVec.ofNat 8 (2 * w.wacc.toNat + b.toNat)).toNat = 2 * w.wacc.toNat + b.toNat := by
  rw [BitVec.toNat_ofNat]
  apply Nat.mod_eq_of_lt
  exact lt_of_lt_of_le (Writer.push_acc h b) (Nat.pow_le_pow_right (by norm_num) (by have := h.1; omega))

theorem Writer.push_wf {w : Writer} (h : w.Wf) (b : Bool) : (w.push b).Wf := by
  unfold Writer.push
  split
  · exact ⟨by simp, by simp⟩
  · exact ⟨by have := h.1; simp only; omega, by simpa only [Writer.push_ofNat h] using Writer.push_acc h b⟩

/-- Pushing a bit appends it to the pending output stream. -/
theorem Writer.push_bits {w : Writer} (h : w.Wf) (b : Bool) : (w.push b).bits = w.bits ++ [b] := by
  have hb : bitsOf (w.wcnt + 1) (2 * w.wacc.toNat + b.toNat) = bitsOf w.wcnt w.wacc.toNat ++ [b] := by
    have := bitsOf_add w.wcnt 1 w.wacc.toNat b.toNat (by cases b <;> simp)
    rw [Nat.mul_comm, pow_one] at this
    rw [this]
    cases b <;> rfl
  unfold Writer.push
  split
  · next h8 =>
    rw [h8] at hb
    simp only [Writer.bits, streamBits_append, streamBits_cons, streamBits_nil, byteBits, Writer.push_ofNat h, hb, bitsOf_nil,
      List.append_nil, List.append_assoc]
  · simp only [Writer.bits, Writer.push_ofNat h, hb, List.append_assoc]

theorem Writer.pushBits_wf {w : Writer} (h : w.Wf) (bits : Bits) : (w.pushBits bits).Wf := by
  induction bits generalizing w with
  | nil => exact h
  | cons b bits ih => exact ih (Writer.push_wf h b)

/-- Everything writing bits does: the pending output stream grows by them (41_writer.md R181). -/
theorem Writer.pushBits_bits {w : Writer} (h : w.Wf) (bits : Bits) : (w.pushBits bits).bits = w.bits ++ bits := by
  induction bits generalizing w with
  | nil => simp [Writer.pushBits]
  | cons b bits ih =>
    have := ih (Writer.push_wf h b)
    rw [Writer.pushBits, List.foldl_cons]
    rw [Writer.pushBits] at this
    rw [this, Writer.push_bits h, List.append_assoc]
    rfl

theorem Writer.pushBits_append (w : Writer) (xs ys : Bits) : w.pushBits (xs ++ ys) = (w.pushBits xs).pushBits ys := by
  simp [Writer.pushBits]

theorem Writer.bits_length (w : Writer) : w.bits.length = 8 * w.dst.length + w.wcnt := by simp [Writer.bits]

/-- The pending output stream determines the writer registers. -/
theorem Writer.eq_of_bits {w w' : Writer} (h : w.Wf) (h' : w'.Wf) (hb : w.bits = w'.bits) : w = w' := by
  have hl := congrArg List.length hb
  rw [Writer.bits_length, Writer.bits_length] at hl
  have h1 := h.1
  have h1' := h'.1
  have hd : w.dst.length = w'.dst.length := by omega
  have hc : w.wcnt = w'.wcnt := by omega
  obtain ⟨hs, ha⟩ := List.append_inj hb (by simp [hd])
  have ha' := congrArg bitsVal ha
  rw [bitsVal_bitsOf h.2, bitsVal_bitsOf h'.2] at ha'
  obtain ⟨d, a, c⟩ := w
  obtain ⟨d', a', c'⟩ := w'
  simp only at hs hc ha'
  rw [streamBits_inj hs, BitVec.eq_of_toNat_eq ha', hc]

/-- From an empty writer, the bits of whole bytes are those bytes, with nothing pending. -/
theorem Writer.pushBits_bytes (bytes : Bytes) : (⟨[], 0, 0⟩ : Writer).pushBits (streamBits bytes) = ⟨bytes, 0, 0⟩ := by
  apply Writer.eq_of_bits (Writer.pushBits_wf Writer.empty_wf _)
  · constructor <;> simp
  · rw [Writer.pushBits_bits Writer.empty_wf, Writer.empty_bits]
    simp [Writer.bits, bitsOf]

/-- The padding `Flush()` adds: zeros up to the byte boundary. -/
def flushPadding (wcnt : Nat) : Bits := List.replicate ((8 - wcnt) % 8) false

theorem flushPadding_length (n : Nat) : (flushPadding n).length < 8 := by simp [flushPadding]; omega

theorem bitsOf_zero (n : Nat) : bitsOf n 0 = List.replicate n false := by
  induction n with
  | zero => rfl
  | succ n ih => simp [bitsOf, ih, List.replicate_succ]

/-- Everything `Flush()` does: zero bits up to the byte boundary are appended, and nothing is pending afterwards
(41_writer.md R182). -/
theorem Writer.flush_spec {w : Writer} (h : w.Wf) :
    w.flush.wcnt = 0 ∧ w.flush.wacc = 0 ∧ streamBits w.flush.dst = w.bits ++ flushPadding w.wcnt := by
  obtain ⟨h1, h2⟩ := h
  unfold Writer.flush
  split
  · next hp =>
    refine ⟨rfl, rfl, ?_⟩
    have hlt : w.wacc.toNat * 2 ^ (8 - w.wcnt) < 2 ^ 8 := by
      calc w.wacc.toNat * 2 ^ (8 - w.wcnt) < 2 ^ w.wcnt * 2 ^ (8 - w.wcnt) :=
            Nat.mul_lt_mul_of_pos_right h2 (Nat.two_pow_pos _)
        _ = 2 ^ 8 := by rw [← pow_add, show w.wcnt + (8 - w.wcnt) = 8 by omega]
    have hbyte : byteBits (BitVec.ofNat 8 (w.wacc.toNat * 2 ^ (8 - w.wcnt))) =
        bitsOf w.wcnt w.wacc.toNat ++ List.replicate (8 - w.wcnt) false := by
      have := bitsOf_add w.wcnt (8 - w.wcnt) w.wacc.toNat 0 (Nat.two_pow_pos _)
      rw [show w.wcnt + (8 - w.wcnt) = 8 by omega, Nat.add_zero, bitsOf_zero] at this
      rw [byteBits, BitVec.toNat_ofNat, Nat.mod_eq_of_lt hlt, this]
    rw [streamBits_append, streamBits_cons, hbyte, Writer.bits, flushPadding, Nat.mod_eq_of_lt (by omega)]
    simp
  · next hp =>
    have hc : w.wcnt = 0 := by omega
    rw [hc] at h2
    refine ⟨hc, BitVec.eq_of_toNat_eq (by simpa using h2), ?_⟩
    simp [Writer.bits, hc, flushPadding]

theorem Writer.flush_wf {w : Writer} (h : w.Wf) : w.flush.Wf := by
  obtain ⟨h1, h2, _⟩ := Writer.flush_spec h
  exact ⟨by rw [h1]; norm_num, by rw [h1, h2]; simp⟩

/-- With nothing pending a flush writes nothing. -/
theorem Writer.flush_idle {w : Writer} (h : w.wcnt = 0) : w.flush = w := by simp [Writer.flush, h]

/-- What the writer holds after a run of bits written to an empty DST and flushed: the bytes of those bits and fewer than
eight zero bits of padding. -/
theorem Writer.packed (bits : Bits) :
    ∃ bytes pad, ((⟨[], 0, 0⟩ : Writer).pushBits bits).flush = ⟨bytes, 0, 0⟩ ∧
      streamBits bytes = bits ++ pad ∧ pad.length < 8 ∧ pad = List.replicate pad.length false := by
  have hw := Writer.pushBits_wf Writer.empty_wf bits
  obtain ⟨h1, h2, h3⟩ := Writer.flush_spec hw
  rw [Writer.pushBits_bits Writer.empty_wf, Writer.empty_bits, List.nil_append] at h3
  refine ⟨_, _, ?_, h3, flushPadding_length _, by simp [flushPadding]⟩
  generalize ((⟨[], 0, 0⟩ : Writer).pushBits bits).flush = w at h1 h2
  obtain ⟨d, a, c⟩ := w
  simp only at h1 h2
  rw [h1, h2]

/-! ## The writer registers of a state -/

/-- The form of the writer registers (10_state.md R42), for a state. -/
abbrev State.WriterWf (s : State) : Prop := s.writer.Wf

theorem State.inv_iff (s : State) : s.Inv ↔ s.rpos ≤ 8 * s.src.length ∧ s.WriterWf := Iff.rfl

@[simp] theorem State.writeBitList_writer (bits : Bits) (s : State) :
    (s.writeBitList bits).writer = s.writer.pushBits bits := rfl

@[simp] theorem State.flush_writer (s : State) : s.flush.writer = s.writer.flush := rfl

theorem State.writeBitList_append (xs ys : Bits) (s : State) :
    s.writeBitList (xs ++ ys) = (s.writeBitList xs).writeBitList ys := by
  simp only [State.writeBitList, Writer.pushBits_append]
  rfl

/-- A write command writes the writer registers and the code, and nothing else. -/
theorem State.writeArg_frame (w : Nat) (s : State) :
    ∃ d a c e, s.writeArg w = { s with dst := d, wacc := a, wcnt := c, code := e } := by
  unfold State.writeArg
  split
  · exact ⟨_, _, _, _, rfl⟩
  · exact ⟨s.dst, s.wacc, s.wcnt, _, rfl⟩

theorem State.writeArg_fits {w : Nat} {s : State} (h : s.arg.toNat < 2 ^ w) :
    s.writeArg w = (s.writeBits s.arg.toNat w).done := by
  simp [State.writeArg, State.argFits, h]

theorem State.writeArg_reject {w : Nat} {s : State} (h : 2 ^ w ≤ s.arg.toNat) :
    s.writeArg w = s.raise .invalidArgument := by
  have : ¬ s.arg.toNat < 2 ^ w := by omega
  simp [State.writeArg, State.argFits, this]

/-! ## How a codec command ends -/

theorem State.codecDone_of_writer {s : State} {bytes : Bytes} (h : s.writer.flush = ⟨bytes, 0, 0⟩) :
    s.codecDone = { s with dst := bytes, wacc := 0, wcnt := 0, res := lengthValue bytes.length, code := .ok } := by
  simp only [State.codecDone, State.flush, State.done, State.withCode, State.withRes, State.withWriter, h]

theorem State.codecRaise_of_writer {s : State} {bytes : Bytes} (e : ResultCode) (h : s.writer.flush = ⟨bytes, 0, 0⟩) :
    s.codecRaise e = { s with dst := bytes, wacc := 0, wcnt := 0, code := e } := by
  simp only [State.codecRaise, State.flush, State.raise, State.withCode, State.withWriter, h]

/-- A compress command's end: the bits written to an empty DST, packed and padded. -/
theorem State.compressed (s : State) (hw : s.writer = ⟨[], 0, 0⟩) (bits : Bits) :
    ∃ bytes pad, (s.writeBitList bits).codecDone =
        { s with dst := bytes, wacc := 0, wcnt := 0, res := lengthValue bytes.length, code := .ok } ∧
      streamBits bytes = bits ++ pad ∧ pad.length < 8 ∧ pad = List.replicate pad.length false := by
  obtain ⟨bytes, pad, h1, h2⟩ := Writer.packed bits
  refine ⟨bytes, pad, ?_, h2⟩
  rw [State.codecDone_of_writer (bytes := bytes) (by rw [State.writeBitList_writer, hw, h1])]
  rfl

theorem State.writeBytes_writer {s : State} (hw : s.writer = ⟨[], 0, 0⟩) (bytes : Bytes) :
    (s.writeBytes bytes).writer.flush = ⟨bytes, 0, 0⟩ := by
  rw [State.writeBytes, State.writeBitList_writer, hw, Writer.pushBits_bytes]
  rfl

/-- Everything a decompress command's end does: the bytes decoded are in DST, the reader stands after the last bit read,
and the command succeeds with their number in RES, or raises. -/
theorem State.finishDecode_spec (s : State) (hw : s.writer = ⟨[], 0, 0⟩) (r : DecodeResult) :
    (r.err = none ∧ s.finishDecode r =
      { s with rpos := 8 * s.src.length - r.rest.length, dst := r.out, wacc := 0, wcnt := 0,
               res := lengthValue r.out.length, code := .ok }) ∨
    (∃ e, r.err = some e ∧ s.finishDecode r =
      { s with rpos := 8 * s.src.length - r.rest.length, dst := r.out, wacc := 0, wcnt := 0, code := asCorrupt e }) := by
  have hf : ((s.leaveReader r.rest).writeBytes r.out).writer.flush = ⟨r.out, 0, 0⟩ := State.writeBytes_writer hw r.out
  unfold State.finishDecode
  cases h : r.err with
  | none => exact .inl ⟨rfl, State.codecDone_of_writer hf⟩
  | some e => exact .inr ⟨e, rfl, State.codecRaise_of_writer _ hf⟩

theorem lengthValue_small {n : Nat} (h : n < 2 ^ 64) : lengthValue n = BitVec.ofNat 64 n := if_pos h

end Sys2Proof.Machine
end

