-- ==== Sys2Proof/Laws/Lzw.lean ====
section
/-! SUPPORT. The parts of the LZW codec: the dictionary's form, the longest match, and the decoder's loop on a stream whose
codewords spell strings. -/

namespace Sys2Proof.Machine

variable {cfg : Config}

/-! ## The dictionary -/

theorem seedDict_wf : (seedDict cfg).Wf cfg where
  codes := by
    simp only [seedDict, firstFree, Nat.sub_self, List.range'_zero, List.append_nil, List.map_map]
    exact List.map_id _
  next_low := Nat.le_refl _
  next_high := cfg.legal.2.1.1
  strings := by
    intro e he
    simp only [seedDict, List.mem_map] at he
    obtain ⟨c, _, rfl⟩ := he
    simp [seedDict, firstFree]

/-- Adding a string to a dictionary that has room keeps its form. -/
theorem Dict.add_wf {d : Dict} {s : Bytes} (h : d.Wf cfg) (hr : d.hasRoom cfg = true) (h1 : 1 ≤ s.length)
    (h2 : s.length ≤ d.next - cfg.R + 1) : (d.add s).Wf cfg where
  codes := by
    have hl := h.next_low
    have hd : d.next + 1 - (cfg.R + 1) = (d.next - (cfg.R + 1)) + 1 := by omega
    have he : cfg.R + 1 + (d.next - (cfg.R + 1)) = d.next := by omega
    simp only [Dict.add, List.map_append, h.codes, List.map_cons, List.map_nil, hd, List.range'_1_concat, he,
      List.append_assoc]
  next_low := by have := h.next_low; simp only [Dict.add]; omega
  next_high := by simp only [Dict.hasRoom, decide_eq_true_eq] at hr; simp only [Dict.add]; omega
  strings := by
    intro e he
    have hl := h.next_low
    simp only [Dict.add, List.mem_append, List.mem_singleton] at he
    rcases he with he | rfl
    · have := h.strings e he
      simp only [Dict.add]
      omega
    · simp only [Dict.add]
      omega

theorem Dict.stringOf_none {d : Dict} (h : d.Wf cfg) {c : Nat} (hc : d.next ≤ c) : d.stringOf c = none := by
  rw [Dict.stringOf, List.lookup_eq_none_iff]
  intro e he
  have hm : e.1 ∈ d.entries.map Prod.fst := List.mem_map_of_mem he
  have hl := h.next_low
  rw [h.codes, List.mem_append, List.mem_range, List.mem_range'_1] at hm
  simp only [ne_eq, bne_iff_ne]
  omega

theorem Dict.stringOf_add {d : Dict} (h : d.Wf cfg) (s : Bytes) (c : Nat) :
    (d.add s).stringOf c = if c = d.next then some s else d.stringOf c := by
  have hn := Dict.stringOf_none h (Nat.le_refl d.next)
  simp only [Dict.stringOf] at hn
  simp only [Dict.add, Dict.stringOf, List.lookup_append, List.lookup_cons, List.lookup_nil]
  by_cases hc : c = d.next
  · subst hc
    simp [hn]
  · have hb : (c == d.next) = false := by simpa using hc
    simp [hb, hc]

theorem seedDict_stringOf {c : Nat} (h : c < cfg.R) : (seedDict cfg).stringOf c = some [BitVec.ofNat 8 c] := by
  have key : ∀ (l : List Nat), c ∈ l → (l.map fun c => (c, [BitVec.ofNat 8 c])).lookup c = some [BitVec.ofNat 8 c] := by
    intro l hl
    induction l with
    | nil => simp at hl
    | cons x l ih =>
      by_cases hx : c = x
      · subst hx; simp
      · have : c ∈ l := by simpa [hx] using hl
        have hb : (c == x) = false := by simpa using hx
        rw [List.map_cons, List.lookup_cons, hb]
        exact ih this
  exact key _ (List.mem_range.mpr h)

/-- A string found in a dictionary is one of its entries'. -/
theorem Dict.mem_of_stringOf {d : Dict} {c : Nat} {s : Bytes} (h : d.stringOf c = some s) : (c, s) ∈ d.entries := by
  obtain ⟨l1, l2, hl, _⟩ := List.lookup_eq_some_iff.mp h
  rw [hl]
  simp

/-! ## The longest match -/

/-- Everything the longest match is: an entry that begins the input, and no entry that begins it is longer
(43_lzw.md R262); and there is none exactly where no entry begins the input. -/
theorem longestMatch_spec (es : List (Nat × Bytes)) (x : Bytes) :
    (∃ m, longestMatch es x = some m ∧ m ∈ es ∧ m.2 <+: x ∧ ∀ e ∈ es, e.2 <+: x → e.2.length ≤ m.2.length) ∨
      (longestMatch es x = none ∧ ∀ e ∈ es, ¬ e.2 <+: x) := by
  induction es with
  | nil => exact .inr ⟨rfl, by simp⟩
  | cons e es ih =>
    simp only [longestMatch, List.isPrefixOf_iff_prefix]
    by_cases he : e.2 <+: x
    · rw [if_pos he]
      rcases ih with ⟨m, hm, hmem, hpre, hmax⟩ | ⟨hn, hno⟩
      · rw [hm]
        by_cases hl : e.2.length < m.2.length
        · refine .inl ⟨m, by simp [hl], by simp [hmem], hpre, ?_⟩
          intro e' he'
          rcases List.mem_cons.mp he' with rfl | he'
          · intro _; omega
          · exact hmax e' he'
        · refine .inl ⟨e, by simp [hl], by simp, he, ?_⟩
          intro e' he'
          rcases List.mem_cons.mp he' with rfl | he'
          · intro _; omega
          · intro hp; have := hmax e' he' hp; omega
      · rw [hn]
        refine .inl ⟨e, rfl, by simp, he, ?_⟩
        intro e' he'
        rcases List.mem_cons.mp he' with rfl | he'
        · intro _; omega
        · intro hp; exact absurd hp (hno e' he')
    · rw [if_neg he]
      rcases ih with ⟨m, hm, hmem, hpre, hmax⟩ | ⟨hn, hno⟩
      · refine .inl ⟨m, hm, by simp [hmem], hpre, ?_⟩
        intro e' he'
        rcases List.mem_cons.mp he' with rfl | he'
        · intro hp; exact absurd hp he
        · exact hmax e' he'
      · refine .inr ⟨hn, ?_⟩
        intro e' he'
        rcases List.mem_cons.mp he' with rfl | he'
        · exact he
        · exact hno e' he'

/-! ## The decoder's loop -/

/-- Reading a codeword and going on with the loop. -/
def lzwFrom (cfg : Config) (fuel : Nat) (d : Dict) (prev : Option Bytes) (bits : Bits) : DecodeResult :=
  match takeBits cfg.W bits with
  | .fail e rest => ⟨[], rest, some e⟩
  | .ok cw rest => lzwLoop cfg fuel d prev cw rest

theorem width_pos (cfg : Config) : 1 ≤ cfg.W := cfg.legal.2.2.1

/-- Everything one pass of the loop can do (43_lzw.md R270). -/
theorem lzwLoop_succ (fuel : Nat) (d : Dict) (prev : Option Bytes) (cw : Nat) (bits : Bits) :
    ((cw = sentinel cfg ∨ bits = []) ∧ lzwLoop cfg (fuel + 1) d prev cw bits = ⟨[], bits, none⟩) ∨
    (¬ (cw = sentinel cfg ∨ bits = []) ∧ resolveCode cfg d prev cw = none ∧
      lzwLoop cfg (fuel + 1) d prev cw bits = ⟨[], bits, some .corruptData⟩) ∨
    (∃ s, ¬ (cw = sentinel cfg ∨ bits = []) ∧ resolveCode cfg d prev cw = some s ∧
      lzwLoop cfg (fuel + 1) d prev cw bits = (lzwFrom cfg fuel (decoderInsert cfg d prev s) (some s) bits).emit s) := by
  by_cases h : cw = sentinel cfg ∨ bits = []
  · exact .inl ⟨h, by rw [lzwLoop, if_pos h]⟩
  · cases hr : resolveCode cfg d prev cw with
    | none => exact .inr (.inl ⟨h, rfl, by rw [lzwLoop, if_neg h, hr]⟩)
    | some s =>
      refine .inr (.inr ⟨s, h, rfl, ?_⟩)
      rw [lzwLoop, if_neg h, hr, lzwFrom]
      simp only
      rcases takeBits_cases cfg.W bits with ⟨_, hb⟩ | ⟨_, hb⟩ <;> rw [hb]
      simp [DecodeResult.emit]

/-- The bound on the passes is never what ends the loop: a larger one gives the same (43_lzw.md R274; 70_reset_and_hazards.md R471). -/
theorem lzwLoop_fuel (fuel : Nat) (d : Dict) (prev : Option Bytes) (cw : Nat) (bits : Bits) (hf : bits.length < fuel) :
    lzwLoop cfg (fuel + 1) d prev cw bits = lzwLoop cfg fuel d prev cw bits := by
  induction fuel generalizing d prev cw bits with
  | zero => omega
  | succ fuel ih =>
    rw [lzwLoop, lzwLoop]
    split
    · rfl
    · next h =>
      split
      · rfl
      · rcases takeBits_cases cfg.W bits with ⟨hw, hb⟩ | ⟨_, hb⟩ <;> rw [hb]
        have := width_pos cfg
        simp only
        rw [ih _ _ _ _ (by simp only [List.length_drop]; omega)]

theorem lzwLoop_fuel_le {n m : Nat} (d : Dict) (prev : Option Bytes) (cw : Nat) (bits : Bits) (hn : bits.length < n)
    (hm : n ≤ m) : lzwLoop cfg m d prev cw bits = lzwLoop cfg n d prev cw bits := by
  induction m, hm using Nat.le_induction with
  | base => rfl
  | succ m hm ih => rw [lzwLoop_fuel _ _ _ _ _ (by omega), ih]

/-- Decoding from a codeword boundary, with a bound that is enough. -/
def lzwRun (cfg : Config) (d : Dict) (prev : Option Bytes) (bits : Bits) : DecodeResult :=
  lzwFrom cfg (bits.length + 1) d prev bits

theorem lzwFrom_eq_run {fuel : Nat} (d : Dict) (prev : Option Bytes) (bits : Bits) (hf : bits.length < fuel + cfg.W) :
    lzwFrom cfg fuel d prev bits = lzwRun cfg d prev bits := by
  rw [lzwRun, lzwFrom, lzwFrom]
  rcases takeBits_cases cfg.W bits with ⟨hw, hb⟩ | ⟨_, hb⟩ <;> rw [hb]
  have := width_pos cfg
  have hlen : (bits.drop cfg.W).length < fuel := by simp only [List.length_drop]; omega
  have hlen' : (bits.drop cfg.W).length < bits.length + 1 := by simp only [List.length_drop]; omega
  rcases Nat.le_total fuel (bits.length + 1) with h | h
  · exact (lzwLoop_fuel_le _ _ _ _ hlen h).symm
  · exact lzwLoop_fuel_le _ _ _ _ hlen' h

theorem lzwDecode_eq_run (bits : Bits) : lzwDecode cfg bits = lzwRun cfg (seedDict cfg) none bits := by
  rw [← lzwFrom_eq_run (fuel := (bits.length - cfg.W) + 1) _ _ _ (by have := width_pos cfg; omega), lzwDecode, lzwFrom]
  rcases takeBits_cases cfg.W bits with ⟨_, hb⟩ | ⟨_, hb⟩ <;> rw [hb]
  simp

/-- A run that reads a codeword with bits after it, which is not the sentinel and resolves, emits its string and goes on. -/
theorem lzwRun_codeword {c : Nat} {d : Dict} {prev : Option Bytes} {s : Bytes} {rest : Bits} (hc : c < 2 ^ cfg.W)
    (hs : c ≠ sentinel cfg) (hr : resolveCode cfg d prev c = some s) (hne : rest ≠ []) :
    lzwRun cfg d prev (bitsOf cfg.W c ++ rest) = (lzwRun cfg (decoderInsert cfg d prev s) (some s) rest).emit s := by
  have hw := width_pos cfg
  rw [lzwRun, lzwFrom, takeBits_field hc]
  simp only
  obtain ⟨k, hk⟩ : ∃ k, (bitsOf cfg.W c ++ rest).length + 1 = k + 1 := ⟨_, rfl⟩
  rw [hk]
  rcases lzwLoop_succ (cfg := cfg) k d prev c rest with ⟨h, _⟩ | ⟨_, h, _⟩ | ⟨s', _, h, he⟩
  · exact absurd h (by simp [hs, hne])
  · rw [hr] at h; simp at h
  · rw [hr, Option.some.injEq] at h
    subst h
    rw [he, lzwFrom_eq_run]
    simp only [List.length_append, bitsOf_length] at hk
    omega

/-- A run that reads a last codeword, the sentinel or one with nothing after it, ends with success and emits nothing for it
(43_lzw.md R274). -/
theorem lzwRun_stop {c : Nat} {d : Dict} {prev : Option Bytes} {rest : Bits} (hc : c < 2 ^ cfg.W)
    (h : c = sentinel cfg ∨ rest = []) : lzwRun cfg d prev (bitsOf cfg.W c ++ rest) = ⟨[], rest, none⟩ := by
  rw [lzwRun, lzwFrom, takeBits_field hc]
  simp only
  rw [lzwLoop, if_pos h]

/-- A run that reads an unassigned codeword with bits after it fails and stands just after it (43_lzw.md R271, R275). -/
theorem lzwRun_unassigned {c : Nat} {d : Dict} {prev : Option Bytes} {rest : Bits} (hc : c < 2 ^ cfg.W)
    (hs : c ≠ sentinel cfg) (hne : rest ≠ []) (hr : resolveCode cfg d prev c = none) :
    lzwRun cfg d prev (bitsOf cfg.W c ++ rest) = ⟨[], rest, some .corruptData⟩ := by
  rw [lzwRun, lzwFrom, takeBits_field hc]
  simp only
  rw [lzwLoop, if_neg (by simp [hs, hne]), hr]

/-- A run with fewer bits than a codeword fails with `EndOfStream` and leaves nothing unread. -/
theorem lzwRun_short {d : Dict} {prev : Option Bytes} {rest : Bits} (h : rest.length < cfg.W) :
    lzwRun cfg d prev rest = ⟨[], [], some .endOfStream⟩ := by
  rw [lzwRun, lzwFrom, takeBits_short h]

/-! ## Streams whose codewords spell strings -/

theorem Spells.nonempty {codes : List Nat} {strings : List Bytes} (h : Spells cfg codes strings) :
    ∀ (j : Nat) (p : Bytes), strings[j]? = some p → p ≠ [] := by
  intro j
  induction j using Nat.strong_induction_on with
  | _ j ih =>
    intro p hp
    obtain ⟨hlen, hall⟩ := h
    obtain ⟨hj, _⟩ := List.getElem?_eq_some_iff.mp hp
    obtain ⟨c, hc⟩ : ∃ c, codes[j]? = some c := ⟨codes[j]'(by omega), by simp⟩
    rcases hall j c p hc hp with ⟨_, rfl⟩ | ⟨i, q, q', hij, _, _, hq, _, rfl⟩
    · simp
    · simp [ih i hij q hq]

/-- Where the decoder stands before codeword `j` of a stream that spells `strings`: the dictionary it has built and the
previous string (43_lzw.md R272, R273). -/
structure DecoderAt (cfg : Config) (strings : List Bytes) (j : Nat) (d : Dict) (prev : Option Bytes) : Prop where
  wf : d.Wf cfg
  next : d.next = min (cfg.R + 1 + (j - 1)) cfg.L
  seeds : ∀ c, c < cfg.R → d.stringOf c = some [BitVec.ofNat 8 c]
  entries : ∀ i q q', i + 1 < j → cfg.R + 1 + i < cfg.L → strings[i]? = some q → strings[i + 1]? = some q' →
    d.stringOf (cfg.R + 1 + i) = some (q ++ q'.take 1)
  previous : prev = if j = 0 then none else strings[j - 1]?
  member : ∀ p, prev = some p → p.length ≤ d.next - cfg.R

theorem DecoderAt.start (strings : List Bytes) : DecoderAt cfg strings 0 (seedDict cfg) none where
  wf := seedDict_wf
  next := by have := cfg.legal.2.1.1; simp [seedDict, firstFree]; omega
  seeds := fun _ h => seedDict_stringOf h
  entries := fun i _ _ h => by omega
  previous := rfl
  member := by simp

/-- Before codeword `j` the decoder resolves it to its string. -/
theorem DecoderAt.resolves {codes : List Nat} {strings : List Bytes} {j c : Nat} {d : Dict} {prev : Option Bytes} {p : Bytes}
    (hs : Spells cfg codes strings) (h : DecoderAt cfg strings j d prev) (hc : codes[j]? = some c)
    (hp : strings[j]? = some p) : resolveCode cfg d prev c = some p := by
  have hnext := h.next
  rcases hs.2 j c p hc hp with ⟨hlt, rfl⟩ | ⟨i, q, q', hij, hcode, hL, hq, hq', hpq⟩
  · rw [resolveCode, if_pos (.inl hlt), h.seeds c hlt]
  · by_cases hi : i + 1 < j
    · rw [resolveCode, if_pos (.inr (by omega)), hcode, h.entries i q q' hi (by omega) hq hq', hpq]
    · have hj : i + 1 = j := by omega
      have hroom : d.hasRoom cfg = true := by simp only [Dict.hasRoom, decide_eq_true_eq]; omega
      have hcn : c = d.next := by omega
      have hprev : prev = some q := by rw [h.previous, if_neg (by omega), ← hj]; simpa using hq
      have hq1 : q'.take 1 = q.take 1 := by
        rw [hj, hp, Option.some.injEq] at hq'
        have hqne := hs.nonempty i q hq
        have h1 : 1 ≤ q.length := List.length_pos_iff.mpr hqne
        rw [← hq']
        conv_lhs => rw [hpq]
        rw [List.take_append_of_le_length h1]
      rw [resolveCode, if_neg (by omega), if_pos (by simp [hcn, hroom]), hprev, Option.map_some, selfReference, hpq, hq1]

/-- After codeword `j` the decoder stands before codeword `j + 1`. -/
theorem DecoderAt.next_codeword {codes : List Nat} {strings : List Bytes} {j c : Nat} {d : Dict} {prev : Option Bytes}
    {p : Bytes} (hs : Spells cfg codes strings) (h : DecoderAt cfg strings j d prev) (hc : codes[j]? = some c)
    (hp : strings[j]? = some p) : DecoderAt cfg strings (j + 1) (decoderInsert cfg d prev p) (some p) := by
  have hnext := h.next
  have hlow := h.wf.next_low
  have hres := h.resolves hs hc hp
  have hpne := hs.nonempty j p hp
  have hplen : p.length ≤ d.next - cfg.R ∨ (d.hasRoom cfg = true ∧ prev ≠ none ∧ p.length ≤ d.next - cfg.R + 1) := by
    rw [resolveCode] at hres
    split at hres
    · exact .inl (h.wf.strings _ (Dict.mem_of_stringOf hres)).2
    · split at hres
      · next hcond =>
        rw [Bool.and_eq_true] at hcond
        cases hprev : prev with
        | none => rw [hprev] at hres; simp at hres
        | some q =>
          rw [hprev] at hres
          simp only [Option.map_some, selfReference, Option.some.injEq] at hres
          have := h.member q hprev
          refine .inr ⟨hcond.2, by simp, ?_⟩
          rw [← hres, List.length_append, List.length_take]
          omega
      · simp at hres
  cases hprev : prev with
  | none =>
    have hj0 : j = 0 := by
      by_contra hj
      have := h.previous
      rw [hprev, if_neg hj] at this
      have h2 : strings[j - 1]? ≠ none := by
        obtain ⟨hj', _⟩ := List.getElem?_eq_some_iff.mp hp
        simp only [ne_eq, List.getElem?_eq_none_iff]
        omega
      exact h2 this.symm
    subst hj0
    refine ⟨h.wf, by simpa [decoderInsert] using hnext, h.seeds, fun i _ _ hi => by omega, by simp [hp], ?_⟩
    rintro q hq
    simp only [Option.some.injEq] at hq
    subst hq
    rcases hplen with hl | ⟨_, hn, _⟩
    · exact hl
    · exact absurd hprev hn
  | some q =>
    have hj0 : j ≠ 0 := by
      intro hj
      have := h.previous
      rw [hprev, if_pos hj] at this
      simp at this
    have hq : strings[j - 1]? = some q := by
      have := h.previous
      rw [hprev, if_neg hj0] at this
      exact this.symm
    have hqne := hs.nonempty _ q hq
    have hqlen := h.member q hprev
    have hp1 : (p.take 1).length = 1 := by
      have := List.length_pos_iff.mpr hpne
      simp only [List.length_take]; omega
    by_cases hroom : d.hasRoom cfg = true
    · have hadd : decoderInsert cfg d (some q) p = d.add (q ++ p.take 1) := by simp [decoderInsert, hroom]
      have hroom' : d.next < cfg.L := by simpa [Dict.hasRoom] using hroom
      rw [hadd]
      have hwf : (d.add (q ++ p.take 1)).Wf cfg :=
        Dict.add_wf h.wf hroom (by rw [List.length_append, hp1]; omega) (by rw [List.length_append, hp1]; omega)
      refine ⟨hwf, ?_, ?_, ?_, by simp [hp], ?_⟩
      · simp only [Dict.add]; omega
      · intro c hc
        rw [Dict.stringOf_add h.wf, if_neg (by omega), h.seeds c hc]
      · intro i r r' hi hL hr hr'
        rw [Dict.stringOf_add h.wf]
        by_cases hij : i + 1 = j
        · rw [if_pos (by omega)]
          rw [show j - 1 = i by omega, hr, Option.some.injEq] at hq
          rw [hij, hp, Option.some.injEq] at hr'
          rw [hq, hr']
        · rw [if_neg (by omega), h.entries i r r' (by omega) hL hr hr']
      · rintro r hr
        simp only [Option.some.injEq] at hr
        subst hr
        simp only [Dict.add]
        rcases hplen with hl | ⟨_, _, hl⟩ <;> omega
    · have hsame : decoderInsert cfg d (some q) p = d := by simp [decoderInsert, hroom]
      have hfull : cfg.L ≤ d.next := by simpa [Dict.hasRoom] using hroom
      rw [hsame]
      refine ⟨h.wf, by omega, h.seeds, ?_, by simp [hp], ?_⟩
      · intro i r r' hi hL hr hr'
        exact h.entries i r r' (by omega) hL hr hr'
      · rintro r hr
        simp only [Option.some.injEq] at hr
        subst hr
        rcases hplen with hl | ⟨hr', _⟩
        · exact hl
        · exact absurd hr' hroom

/-- The codewords of a spelled stream are below `L`, so they fit their field, and are never the sentinel (30_encoding.md R115). -/
theorem Spells.code_lt {codes : List Nat} {strings : List Bytes} (hs : Spells cfg codes strings) {j c : Nat}
    (hc : codes[j]? = some c) : c < 2 ^ cfg.W ∧ c ≠ sentinel cfg := by
  obtain ⟨hj, _⟩ := List.getElem?_eq_some_iff.mp hc
  obtain ⟨p, hp⟩ : ∃ p, strings[j]? = some p := ⟨strings[j]'(by have := hs.1; omega), by simp⟩
  have hL := cfg.legal.2.1
  rw [sentinel]
  rcases hs.2 j c p hc hp with ⟨hlt, _⟩ | ⟨i, _, _, _, hcode, hlt, _⟩
  · exact ⟨by omega, by omega⟩
  · exact ⟨by omega, by omega⟩

/-- Everything the decoder does with codewords that spell strings and have bits after them: it emits the strings and goes on,
where the codewords end. -/
theorem lzwRun_spelled {codes : List Nat} {strings : List Bytes} (hs : Spells cfg codes strings) {rest : Bits}
    (hne : rest ≠ []) {j : Nat} (hj : j ≤ codes.length) {d : Dict} {prev : Option Bytes}
    (h : DecoderAt cfg strings j d prev) :
    ∃ d' prev', DecoderAt cfg strings codes.length d' prev' ∧
      lzwRun cfg d prev ((codes.drop j).flatMap (bitsOf cfg.W) ++ rest) =
        (lzwRun cfg d' prev' rest).emit (strings.drop j).flatten := by
  obtain ⟨n, hn⟩ : ∃ n, codes.length - j = n := ⟨_, rfl⟩
  induction n generalizing j d prev with
  | zero =>
    have hjk : j = codes.length := by omega
    subst hjk
    refine ⟨d, prev, h, ?_⟩
    rw [List.drop_length, hs.1, List.drop_length]
    simp [DecodeResult.emit]
  | succ n ih =>
    have hjlt : j < codes.length := by omega
    have hc : codes[j]? = some codes[j] := by simp
    have hp : strings[j]? = some (strings[j]'(by have := hs.1; omega)) := by simp
    obtain ⟨hfit, hsent⟩ := hs.code_lt hc
    obtain ⟨d', prev', hd, hrun⟩ := ih (by omega) (h.next_codeword hs hc hp) (by omega)
    refine ⟨d', prev', hd, ?_⟩
    rw [List.drop_eq_getElem_cons hjlt, List.flatMap_cons, List.append_assoc,
      lzwRun_codeword hfit hsent (h.resolves hs hc hp) (by simp [hne]), hrun,
      List.drop_eq_getElem_cons (by have := hs.1; omega : j < strings.length)]
    simp only [DecodeResult.emit, List.flatten_cons, List.append_assoc]

/-- Everything a decoding that succeeds gives: the strings its codewords spell, and the bits after the codeword it stops at
(43_lzw.md R270, R274). -/
theorem lzwDecode_stops {codes : List Nat} {strings : List Bytes} (hs : Spells cfg codes strings) {rest stream : Bits}
    (h : StopsAfter cfg codes rest stream) : lzwDecode cfg stream = ⟨strings.flatten, rest, none⟩ := by
  obtain ⟨c, hc, hend, rfl⟩ := h
  have hne : bitsOf cfg.W c ++ rest ≠ [] := fun hnil => by
    have hl := congrArg List.length hnil
    have hw := width_pos cfg
    simp only [List.length_append, bitsOf_length, List.length_nil] at hl
    omega
  obtain ⟨d, prev, _, hrun⟩ := lzwRun_spelled hs hne (Nat.zero_le _) (DecoderAt.start strings)
  rw [List.drop_zero, List.drop_zero, lzwRun_stop hc hend] at hrun
  rw [lzwDecode_eq_run, show fieldOf cfg.W = bitsOf cfg.W from funext (fieldOf_eq _), List.flatMap_append,
    List.flatMap_cons, List.flatMap_nil, List.append_nil, List.append_assoc, hrun, DecodeResult.emit, List.append_nil]

end Sys2Proof.Machine
end

