-- ==== Sys2Proof/Laws/Archive.lean ====
section
/-! SUPPORT. The archive framer and parser: a frame parses to its entry, and a blob to its entries. -/

namespace Sys2Proof.Machine

variable {cfg : Config}

theorem takeBytes_append {k : Nat} {xs : Bytes} (h : xs.length = k) (rest : Bytes) :
    takeBytes k (xs ++ rest) = some (xs, rest) := by
  subst h
  simp [takeBytes]

theorem takeBytes_short {k : Nat} {blob : Bytes} (h : blob.length < k) : takeBytes k blob = none := by
  simp [takeBytes, h]

/-- Everything `TakeBytes` can do. -/
theorem takeBytes_some {k : Nat} {blob r rest : Bytes} (h : takeBytes k blob = some (r, rest)) :
    r.length = k ∧ blob = r ++ rest := by
  unfold takeBytes at h
  split at h
  · simp at h
  · next hl =>
    simp only [Option.some.injEq, Prod.mk.injEq] at h
    rw [← h.1, ← h.2]
    exact ⟨by simp; omega, by simp⟩

theorem expectSep_sep (rest : Bytes) : expectSep cfg (separator cfg :: rest) = some rest := by
  have : takeBytes 1 (separator cfg :: rest) = some ([separator cfg], rest) :=
    takeBytes_append (xs := [separator cfg]) rfl rest
  simp [expectSep, this]

theorem expectSep_nil : expectSep cfg [] = none := rfl

theorem expectSep_other {b : Byte} (h : b ≠ separator cfg) (rest : Bytes) : expectSep cfg (b :: rest) = none := by
  have : takeBytes 1 (b :: rest) = some ([b], rest) := takeBytes_append (xs := [b]) rfl rest
  simp [expectSep, this, h]

/-- Everything a separator check can do: it takes exactly a separator. -/
theorem expectSep_some {blob rest : Bytes} (h : expectSep cfg blob = some rest) : blob = separator cfg :: rest := by
  cases blob with
  | nil => simp [expectSep_nil] at h
  | cons b bs =>
    by_cases hb : b = separator cfg
    · subst hb
      rw [expectSep_sep, Option.some.injEq] at h
      rw [h]
    · simp [expectSep_other hb] at h

/-- Everything the parsing of one entry can do: the bytes it takes are a frame's fields, in order (44_archive.md R320). -/
theorem parseEntry_some {blob rest : Bytes} {e : Entry} (h : parseEntry cfg blob = some (e, rest)) :
    ∃ n size : Bytes, n.length = 4 ∧ size.length = 8 ∧ bytesVal n = e.name.length ∧ bytesVal size = e.content.length ∧
      blob = n ++ [separator cfg] ++ e.name ++ [separator cfg] ++ size ++ [separator cfg] ++ e.content ++ rest := by
  simp only [parseEntry, Option.bind_eq_some_iff, Option.map_eq_some_iff, Prod.exists, Prod.mk.injEq] at h
  obtain ⟨n, b0, h0, b1, h1, name, b2, h2, b3, h3, size, b4, h4, b5, h5, content, b6, h6, he, hr⟩ := h
  obtain ⟨l0, rfl⟩ := takeBytes_some h0
  obtain ⟨l2, rfl⟩ := takeBytes_some h2
  obtain ⟨l4, rfl⟩ := takeBytes_some h4
  obtain ⟨l6, rfl⟩ := takeBytes_some h6
  have e1 := expectSep_some h1
  have e3 := expectSep_some h3
  have e5 := expectSep_some h5
  subst e1 e3 e5 he hr
  exact ⟨n, size, l0, l4, l2.symm, l6.symm, by simp⟩

/-- An entry takes at least fifteen bytes. -/
theorem parseEntry_length {blob rest : Bytes} {e : Entry} (h : parseEntry cfg blob = some (e, rest)) :
    rest.length + 15 ≤ blob.length := by
  obtain ⟨n, size, h1, h2, _, _, rfl⟩ := parseEntry_some h
  simp only [List.length_append, List.length_cons, List.length_nil, h1, h2]
  omega

theorem parseEntry_short {blob : Bytes} (h : blob.length < 15) : parseEntry cfg blob = none := by
  cases hp : parseEntry cfg blob with
  | none => rfl
  | some p =>
    have := parseEntry_length (e := p.1) (rest := p.2) hp
    omega

/-- A frame parses to its entry and leaves the bytes after it (44_archive.md R312, R322). -/
theorem parseEntry_frame {e : Entry} (h : entryFits e = true) (rest : Bytes) :
    parseEntry cfg (frameOf cfg e ++ rest) = some (e, rest) := by
  simp only [entryFits, decide_eq_true_eq] at h
  have h4 : bytesVal (bytesOf 4 e.name.length) = e.name.length := bytesVal_bytesOf (by norm_num; omega)
  have h8 : bytesVal (bytesOf 8 e.content.length) = e.content.length := bytesVal_bytesOf (by norm_num; omega)
  simp only [frameOf, List.append_assoc, List.nil_append, List.cons_append, parseEntry, takeBytes_append (bytesOf_length _ _),
    Option.bind_some, expectSep_sep, h4, h8, takeBytes_append rfl, Option.map_some]

theorem frameOf_length (e : Entry) : (frameOf cfg e).length = 15 + e.name.length + e.content.length := by
  simp [frameOf]; omega

theorem frameOf_ne_nil (e : Entry) : frameOf cfg e ≠ [] := by
  intro h
  have := frameOf_length (cfg := cfg) e
  rw [h] at this
  simp at this
  omega

theorem blobOf_cons_cons (e e' : Entry) (es : List Entry) :
    blobOf cfg (e :: e' :: es) = frameOf cfg e ++ separator cfg :: blobOf cfg (e' :: es) := by simp [blobOf]

/-- A frame with nothing after it ends the parse with success (44_archive.md R324). -/
theorem parseLoop_last {fuel : Nat} {e : Entry} (h : entryFits e = true) :
    parseLoop cfg (fuel + 1) (frameOf cfg e) = ⟨[e], true⟩ := by
  have := parseEntry_frame (cfg := cfg) h []
  rw [List.append_nil] at this
  simp [parseLoop, this]

/-- A frame with a separator after it is an entry, and the parse goes on behind the separator. -/
theorem parseLoop_more {fuel : Nat} {e : Entry} (h : entryFits e = true) (rest : Bytes) :
    parseLoop cfg (fuel + 1) (frameOf cfg e ++ separator cfg :: rest) =
      ⟨e :: (parseLoop cfg fuel rest).entries, (parseLoop cfg fuel rest).complete⟩ := by
  simp [parseLoop, parseEntry_frame h, expectSep_sep]

/-- A frame with something other than a separator after it is an entry, and the parse fails. -/
theorem parseLoop_noSep {fuel : Nat} {e : Entry} (h : entryFits e = true) {rest : Bytes} (hne : rest ≠ [])
    (hs : expectSep cfg rest = none) : parseLoop cfg (fuel + 1) (frameOf cfg e ++ rest) = ⟨[e], false⟩ := by
  simp [parseLoop, parseEntry_frame h, hs, hne]

/-- The bound on the entries is never what ends the parse: a larger one gives the same. -/
theorem parseLoop_fuel (fuel : Nat) (blob : Bytes) (hf : blob.length < fuel) :
    parseLoop cfg (fuel + 1) blob = parseLoop cfg fuel blob := by
  induction fuel generalizing blob with
  | zero => omega
  | succ fuel ih =>
    rw [parseLoop, parseLoop]
    cases hp : parseEntry cfg blob with
    | none => rfl
    | some p =>
      have hl := parseEntry_length (e := p.1) (rest := p.2) hp
      simp only
      split
      · rfl
      · cases hs : expectSep cfg p.2 with
        | none => rfl
        | some rest =>
          have := congrArg List.length (expectSep_some hs)
          simp only [List.length_cons] at this
          simp only [ih rest (by omega)]

/-- The blob of a list of entries that fit parses to them (44_archive.md R320, R328). -/
theorem parseLoop_blob {es : List Entry} (hne : es ≠ []) (hfit : ∀ e ∈ es, entryFits e = true) {fuel : Nat}
    (hf : es.length ≤ fuel) : parseLoop cfg fuel (blobOf cfg es) = ⟨es, true⟩ := by
  induction es generalizing fuel with
  | nil => exact absurd rfl hne
  | cons e es ih =>
    obtain ⟨fuel, rfl⟩ : ∃ k, fuel = k + 1 := ⟨fuel - 1, by simp at hf; omega⟩
    have he := hfit e (by simp)
    cases es with
    | nil => exact parseLoop_last he
    | cons e' es =>
      have := ih (by simp) (fun x hx => hfit x (by simp [hx])) (fuel := fuel) (by simp at hf ⊢; omega)
      rw [blobOf_cons_cons, parseLoop_more he, this]

theorem State.unpackDone_of_writer {s : State} {bytes : Bytes} (h : s.writer.flush = ⟨bytes, 0, 0⟩) :
    s.unpackDone =
      { s with dst := bytes, wacc := 0, wcnt := 0, res := lengthValue s.eout.length, code := .ok } := by
  simp only [State.unpackDone, State.flush, State.done, State.withCode, State.withRes, State.withWriter, h]

/-- Everything the parsing stage does to the machine when nothing was written: the entries completed are in EOUT, and the
command succeeds with their number in RES, or raises `CorruptData` (44_archive.md R320, R325). -/
theorem State.finishUnpack_spec (s : State) (hw : s.writer = ⟨[], 0, 0⟩) (r : ParseResult) :
    s.finishUnpack r =
      if r.complete then { s with dst := [], wacc := 0, wcnt := 0, eout := r.entries, res := lengthValue r.entries.length,
                                  code := .ok }
      else { s with dst := [], wacc := 0, wcnt := 0, eout := r.entries, code := .corruptData } := by
  have hf : (s.withEout r.entries).writer.flush = ⟨[], 0, 0⟩ := by
    rw [show (s.withEout r.entries).writer = s.writer from rfl, hw, Writer.flush_idle rfl]
  unfold State.finishUnpack
  split
  · exact State.unpackDone_of_writer hf
  · exact State.codecRaise_of_writer _ hf

end Sys2Proof.Machine
end

