-- ==== Sys2Proof/Laws/Decode.lean ====
section
/-! SUPPORT. The fields of a command word as numbers, and the fields of a word made of an opcode and a width. -/

namespace Sys2Proof

theorem opcodeField_eq (c : CmdWord) : opcodeField c = c.toNat / 16777216 % 256 := by
  simp [opcodeField, BitVec.extractLsb'_toNat, Nat.shiftRight_eq_div_pow]

theorem reservedField_eq (c : CmdWord) : reservedField c = c.toNat / 64 % 262144 := by
  simp [reservedField, BitVec.extractLsb'_toNat, Nat.shiftRight_eq_div_pow]

theorem widthField_eq (c : CmdWord) : widthField c = c.toNat % 64 := by
  simp [widthField]

/-- The fields of a word put together as `OPCODE·2^24 + WIDTH` (30_encoding.md R100, R104). -/
theorem fields_of_word (op w : Nat) (ho : op < 256) (hw : w < 64) :
    opcodeField (BitVec.ofNat 32 (op * 2 ^ 24 + w)) = op ∧ reservedField (BitVec.ofNat 32 (op * 2 ^ 24 + w)) = 0 ∧
      widthField (BitVec.ofNat 32 (op * 2 ^ 24 + w)) = w := by
  have h : (BitVec.ofNat 32 (op * 16777216 + w)).toNat = op * 16777216 + w := by
    rw [BitVec.toNat_ofNat, Nat.mod_eq_of_lt (by omega)]
  have h1 : (op * 16777216 + w) / 16777216 % 256 = op := by omega
  have h2 : (op * 16777216 + w) / 64 % 262144 = 0 := by clear h1 h; omega
  have h3 : (op * 16777216 + w) % 64 = w := by clear h2 h1 h; omega
  rw [opcodeField_eq, reservedField_eq, widthField_eq, show (2 : Nat) ^ 24 = 16777216 by norm_num, h]
  exact ⟨h1, h2, h3⟩

end Sys2Proof
end

