-- ==== Sys2Proof/Laws/Huffman.lean ====
section
/-! SUPPORT. The parts of the Huffman codec: extraction and merging, the preamble and its reading, paths and walks. -/

namespace Sys2Proof.Machine

/-! ## The trie build -/

theorem extractMin_none {pq : List (WTrie × Nat)} : extractMin pq = none ↔ pq = [] := by
  cases pq with
  | nil => simp [extractMin]
  | cons x pq =>
    simp only [extractMin]
    split
    · simp
    · split <;> simp

/-- Extraction removes one pair, and only that one. -/
theorem extractMin_perm {pq rest : List (WTrie × Nat)} {m : WTrie × Nat} (h : extractMin pq = some (m, rest)) :
    pq.Perm (m :: rest) := by
  induction pq generalizing m rest with
  | nil => simp [extractMin] at h
  | cons x pq ih =>
    simp only [extractMin] at h
    split at h
    · next hn =>
      simp only [Option.some.injEq, Prod.mk.injEq] at h
      rw [← h.1, ← h.2]
    · next m' others hs =>
      split at h
      · simp only [Option.some.injEq, Prod.mk.injEq] at h
        rw [← h.1, ← h.2]
        exact ((ih hs).cons x).trans (List.Perm.swap m' x others)
      · simp only [Option.some.injEq, Prod.mk.injEq] at h
        rw [← h.1, ← h.2]

theorem extractMin_length {pq rest : List (WTrie × Nat)} {m : WTrie × Nat} (h : extractMin pq = some (m, rest)) :
    pq.length = rest.length + 1 := by simpa using (extractMin_perm h).length_eq

/-- What a queue holds in common with the trie it becomes: the leaves, the total weight, the number of nodes. -/
structure BuiltFrom (pq : List (WTrie × Nat)) (root : WTrie) : Prop where
  leaves : root.leaves.Perm (pq.flatMap fun x => x.1.leaves)
  weight : root.weight = (pq.map fun x => x.1.weight).sum
  nodes : root.shape.nodeCount + 1 = (pq.map fun x => x.1.shape.nodeCount + 1).sum
  adds : (∀ x ∈ pq, x.1.WeightsAdd) → root.WeightsAdd

theorem BuiltFrom.single (x : WTrie × Nat) : BuiltFrom [x] x.1 :=
  ⟨by simp, by simp, by simp, fun h => h x (by simp)⟩

theorem BuiltFrom.perm {pq pq' : List (WTrie × Nat)} {root : WTrie} (hp : pq'.Perm pq) (h : BuiltFrom pq root) :
    BuiltFrom pq' root :=
  ⟨h.leaves.trans (hp.symm.flatMap_right _), h.weight.trans (hp.symm.map _).sum_eq, h.nodes.trans (hp.symm.map _).sum_eq,
    fun ha => h.adds fun x hx => ha x (hp.symm.subset hx)⟩

theorem BuiltFrom.merge {x y : WTrie × Nat} {rest : List (WTrie × Nat)} {seq : Nat} {root : WTrie}
    (h : BuiltFrom (rest ++ [(.internal (x.1.weight + y.1.weight) x.1 y.1, seq)]) root) :
    BuiltFrom (x :: y :: rest) root := by
  have hp : (rest ++ [(WTrie.internal (x.1.weight + y.1.weight) x.1 y.1, seq)]).Perm
      ((WTrie.internal (x.1.weight + y.1.weight) x.1 y.1, seq) :: rest) := List.perm_append_singleton _ _
  obtain ⟨h1, h2, h3, h4⟩ := h.perm hp.symm
  refine ⟨?_, ?_, ?_, ?_⟩
  · simpa [WTrie.leaves] using h1
  · rw [h2]; simp [WTrie.weight]; omega
  · rw [h3]; simp [WTrie.shape, Trie.nodeCount]; omega
  · intro ha
    refine h4 fun z hz => ?_
    rcases List.mem_cons.mp hz with rfl | hz
    · exact ⟨rfl, ha x (by simp), ha y (by simp)⟩
    · exact ha z (by simp [hz])

/-- Everything the merge loop does to a queue: with as many passes as pairs it ends with one trie, built from them. -/
theorem mergeLoop_built (fuel seq : Nat) (pq : List (WTrie × Nat)) (hne : pq ≠ []) (hf : pq.length ≤ fuel) :
    ∃ root, mergeLoop fuel seq pq = some root ∧ BuiltFrom pq root := by
  induction fuel generalizing seq pq with
  | zero => exact absurd (List.length_eq_zero_iff.mp (by omega)) hne
  | succ fuel ih =>
    simp only [mergeLoop]
    split
    · next hx => exact absurd (extractMin_none.mp hx) hne
    · next x rest hx =>
      have hpx := extractMin_perm hx
      split
      · next hy =>
        rw [extractMin_none.mp hy] at hpx
        exact ⟨x.1, rfl, (BuiltFrom.single x).perm hpx⟩
      · next y rest' hy =>
        have hpy := extractMin_perm hy
        obtain ⟨root, hr, hb⟩ := ih (seq + 1) (rest' ++ [(.internal (x.1.weight + y.1.weight) x.1 y.1, seq)]) (by simp)
          (by have := extractMin_length hx; have := extractMin_length hy; simp; omega)
        exact ⟨root, hr, hb.merge.perm (hpx.trans (hpy.cons x))⟩

/-- Extraction takes the pair that comes before all others, where the numbers of the pairs differ. -/
theorem extractMin_before {pq rest : List (WTrie × Nat)} {m : WTrie × Nat} (h : extractMin pq = some (m, rest))
    (hd : (pq.map Prod.snd).Nodup) : ∀ z ∈ rest, ComesBefore m z := by
  induction pq generalizing m rest with
  | nil => simp [extractMin] at h
  | cons x pq ih =>
    simp only [List.map_cons, List.nodup_cons] at hd
    simp only [extractMin] at h
    split at h
    · next hn =>
      simp only [Option.some.injEq, Prod.mk.injEq] at h
      simp [← h.2, extractMin_none.mp hn]
    · next m' others hs =>
      have hm := ih hs hd.2
      have hp := extractMin_perm hs
      split at h
      · next hb =>
        simp only [Option.some.injEq, Prod.mk.injEq] at h
        simp only [pairBefore, decide_eq_true_eq] at hb
        rw [← h.1, ← h.2]
        intro z hz
        rcases List.mem_cons.mp hz with rfl | hz
        · exact hb
        · exact hm z hz
      · next hb =>
        simp only [Option.some.injEq, Prod.mk.injEq] at h
        simp only [pairBefore, decide_eq_true_eq] at hb
        have hne : x.2 ≠ m'.2 := fun he => hd.1 (he ▸ List.mem_map_of_mem (hp.mem_iff.mpr (by simp)))
        have hx : ComesBefore x m' := by unfold ComesBefore; omega
        rw [← h.1, ← h.2]
        intro z hz
        rcases List.mem_cons.mp (hp.mem_iff.mp hz) with rfl | hz
        · exact hx
        · have hz' := hm z hz
          unfold ComesBefore at *
          omega

/-- The merge loop merges in the order of 42_huffman.md R214, when the pairs have different numbers below `seq`. -/
theorem mergeLoop_mergesTo (fuel seq : Nat) (pq : List (WTrie × Nat)) (hne : pq ≠ []) (hf : pq.length ≤ fuel)
    (hd : (pq.map Prod.snd).Nodup) (hs : ∀ x ∈ pq, x.2 < seq) :
    ∃ root, mergeLoop fuel seq pq = some root ∧ MergesTo seq pq root := by
  induction fuel generalizing seq pq with
  | zero => exact absurd (List.length_eq_zero_iff.mp (by omega)) hne
  | succ fuel ih =>
    simp only [mergeLoop]
    split
    · next hx => exact absurd (extractMin_none.mp hx) hne
    · next x rest hx =>
      have hpx := extractMin_perm hx
      have hdx := (hpx.map Prod.snd).nodup_iff.mp hd
      split
      · next hy =>
        rw [extractMin_none.mp hy] at hpx
        exact ⟨x.1, rfl, by rw [List.perm_singleton.mp hpx]; exact .single seq x⟩
      · next y rest' hy =>
        have hpy := extractMin_perm hy
        have hp := hpx.trans (hpy.cons x)
        have hdy := (hp.map Prod.snd).nodup_iff.mp hd
        have hlt : ∀ z ∈ rest', z.2 < seq := fun z hz => hs z (hp.mem_iff.mpr (by simp [hz]))
        simp only [List.map_cons, List.nodup_cons] at hdx hdy
        obtain ⟨root, hr, hb⟩ := ih (seq + 1) (rest' ++ [(.internal (x.1.weight + y.1.weight) x.1 y.1, seq)]) (by simp)
          (by have := hp.length_eq; simp at this ⊢; omega)
          (by
            rw [List.map_append, List.nodup_append]
            refine ⟨hdy.2.2, by simp, ?_⟩
            rintro a ha b hb rfl
            obtain ⟨z, hz, rfl⟩ := List.mem_map.mp ha
            have := hlt z hz
            simp at hb
            omega)
          (by
            intro z hz
            rcases List.mem_append.mp hz with hz | hz
            · have := hlt z hz
              omega
            · rw [List.mem_singleton.mp hz]
              exact Nat.lt_succ_self seq)
        exact ⟨root, hr, .pass hp (extractMin_before hx hd y (hpy.mem_iff.mpr (by simp)))
          (extractMin_before hy hdx.2) hb⟩

/-! ## The preamble -/

theorem serialize_eq (w : WTrie) : serialize w = w.shape.preamble := by
  induction w with
  | leaf s w => simp [serialize, WTrie.shape, Trie.preamble, fieldOf_eq, byteBits]
  | internal w l r hl hr => simp [serialize, WTrie.shape, Trie.preamble, hl, hr]

theorem Trie.nodeCount_pos (t : Trie) : 0 < t.nodeCount := by cases t <;> simp [Trie.nodeCount]

/-- A node past the limit is refused before its tag bit is read (42_huffman.md R232). -/
theorem readTrie_limit {nodes : Nat} (fuel : Nat) (bits : Bits) (h : hufMaxNodes < nodes + 1) :
    readTrie (fuel + 1) nodes bits = .fail .corruptData bits := by rw [readTrie, if_pos h]

/-- The reading of one node within the limit (42_huffman.md R231). -/
theorem readTrie_node {nodes : Nat} (fuel : Nat) (bits : Bits) (h : ¬ hufMaxNodes < nodes + 1) :
    readTrie (fuel + 1) nodes bits =
      (takeBits 1 bits).andThen fun tag bits =>
        if tag = 1 then (takeBits 8 bits).andThen fun sym bits => .ok (.leaf (BitVec.ofNat 8 sym), nodes + 1) bits
        else
          (readTrie fuel (nodes + 1) bits).andThen fun l bits =>
            (readTrie fuel l.2 bits).andThen fun r bits => .ok (.internal l.1 r.1, r.2) bits := by
  rw [readTrie, if_neg h]

/-- A tag bit 0 starts an internal node. -/
theorem readTrie_internal {nodes : Nat} (fuel : Nat) (bits : Bits) (h : ¬ hufMaxNodes < nodes + 1) :
    readTrie (fuel + 1) nodes (false :: bits) =
      (readTrie fuel (nodes + 1) bits).andThen fun l bits =>
        (readTrie fuel l.2 bits).andThen fun r bits => .ok (.internal l.1 r.1, r.2) bits := by
  rw [readTrie_node fuel _ h, takeBits_one]
  simp [Parse.andThen]

/-- Reading a preamble gives its trie and leaves the bits after it, when the trie keeps to the node limit. -/
theorem readTrie_preamble (t : Trie) (fuel nodes : Nat) (rest : Bits) (hf : t.nodeCount ≤ fuel)
    (hn : nodes + t.nodeCount ≤ hufMaxNodes) :
    readTrie fuel nodes (t.preamble ++ rest) = .ok (t, nodes + t.nodeCount) rest := by
  induction t generalizing fuel nodes rest with
  | leaf s =>
    simp only [Trie.nodeCount] at hf hn
    obtain ⟨fuel, rfl⟩ : ∃ k, fuel = k + 1 := ⟨fuel - 1, by omega⟩
    have h8 : takeBits 8 (fieldOf 8 s.toNat ++ rest) = .ok s.toNat rest := by rw [fieldOf_eq, takeBits_field s.isLt]
    rw [readTrie_node fuel _ (by omega), Trie.preamble, List.cons_append, takeBits_one]
    simp [Parse.andThen, h8, Trie.nodeCount]
  | internal l r hl hr =>
    simp only [Trie.nodeCount] at hf hn
    have hp1 := l.nodeCount_pos
    have hp2 := r.nodeCount_pos
    obtain ⟨fuel, rfl⟩ : ∃ k, fuel = k + 1 := ⟨fuel - 1, by omega⟩
    rw [Trie.preamble, List.cons_append, List.append_assoc, readTrie_internal fuel _ (by omega),
      hl fuel (nodes + 1) (r.preamble ++ rest) (by omega) (by omega)]
    simp only [Parse.andThen]
    rw [hr fuel (nodes + 1 + l.nodeCount) rest (by omega) (by omega)]
    simp only [Trie.nodeCount, Parse.ok.injEq, Prod.mk.injEq, true_and, and_true]
    omega

/-- Past the node limit the preamble is refused: a trie with more nodes than the limit leaves room for fails with
`CorruptData`, whatever follows it. -/
theorem readTrie_over_limit (t : Trie) (fuel nodes : Nat) (rest : Bits) (hf : hufMaxNodes < fuel + nodes)
    (hn : nodes ≤ hufMaxNodes) (h : hufMaxNodes < nodes + t.nodeCount) :
    ∃ bits, readTrie fuel nodes (t.preamble ++ rest) = .fail .corruptData bits := by
  obtain ⟨fuel, rfl⟩ : ∃ k, fuel = k + 1 := ⟨fuel - 1, by omega⟩
  by_cases h0 : hufMaxNodes < nodes + 1
  · exact ⟨_, readTrie_limit fuel _ h0⟩
  induction t generalizing fuel nodes rest with
  | leaf s => simp only [Trie.nodeCount] at h; omega
  | internal l r hl hr =>
    simp only [Trie.nodeCount] at h
    obtain ⟨fuel, rfl⟩ : ∃ k, fuel = k + 1 := ⟨fuel - 1, by omega⟩
    rw [Trie.preamble, List.cons_append, List.append_assoc, readTrie_internal _ _ h0]
    by_cases h1 : hufMaxNodes < nodes + 1 + l.nodeCount
    · by_cases h2 : hufMaxNodes < nodes + 1 + 1
      · exact ⟨_, by rw [readTrie_limit fuel _ h2]; rfl⟩
      · obtain ⟨bits, hb⟩ := hl (nodes + 1) (r.preamble ++ rest) (by omega) h1 fuel (by omega) h2
        exact ⟨bits, by rw [hb]; rfl⟩
    · rw [readTrie_preamble l (fuel + 1) (nodes + 1) (r.preamble ++ rest) (by omega) (by omega)]
      simp only [Parse.andThen]
      by_cases h2 : hufMaxNodes < nodes + 1 + l.nodeCount + 1
      · exact ⟨_, by rw [readTrie_limit fuel _ h2]⟩
      · obtain ⟨bits, hb⟩ := hr (nodes + 1 + l.nodeCount) rest (by omega) (by omega) fuel (by omega) h2
        exact ⟨bits, by rw [hb]⟩

/-- Going on after a read is unchanged where what follows is unchanged on every value the read can give. -/
theorem Parse.andThen_congr {α β : Type} {p : Parse α} {f g : α → Bits → Parse β}
    (h : ∀ a rest, p = .ok a rest → f a rest = g a rest) : p.andThen f = p.andThen g := by
  cases p with
  | ok a rest => exact h a rest rfl
  | fail e rest => rfl

/-- A reading that goes on after another succeeds only where the other did. -/
theorem Parse.andThen_ok {α β : Type} {p : Parse α} {f : α → Bits → Parse β} {b : β} {out : Bits}
    (h : p.andThen f = .ok b out) : ∃ a rest, p = .ok a rest ∧ f a rest = .ok b out := by
  cases p with
  | ok a rest => exact ⟨a, rest, rfl, h⟩
  | fail e rest => simp [Parse.andThen] at h

/-- Reading a trie starts at least one node. -/
theorem readTrie_count (fuel nodes : Nat) (bits : Bits) (t : Trie × Nat) (rest : Bits)
    (h : readTrie fuel nodes bits = .ok t rest) : nodes < t.2 := by
  induction fuel generalizing nodes bits t rest with
  | zero => simp [readTrie] at h
  | succ fuel ih =>
    by_cases h0 : hufMaxNodes < nodes + 1
    · simp [readTrie_limit fuel bits h0] at h
    · rw [readTrie_node fuel bits h0] at h
      obtain ⟨tag, bits1, _, h⟩ := Parse.andThen_ok h
      split at h
      · obtain ⟨sym, bits2, _, h⟩ := Parse.andThen_ok h
        simp only [Parse.ok.injEq] at h
        rw [← h.1]
        simp
      · obtain ⟨l, bits2, hl, h⟩ := Parse.andThen_ok h
        obtain ⟨r, bits3, hr, h⟩ := Parse.andThen_ok h
        simp only [Parse.ok.injEq] at h
        have h1 := ih _ _ _ _ hl
        have h2 := ih _ _ _ _ hr
        rw [← h.1]
        simp only
        omega

/-- The bound on the recursion is never what ends the reading of a preamble: a larger one gives the same. -/
theorem readTrie_fuel (fuel nodes : Nat) (bits : Bits) (hf : hufMaxNodes < fuel + nodes) :
    readTrie (fuel + 1) nodes bits = readTrie fuel nodes bits := by
  induction fuel generalizing nodes bits with
  | zero => rw [readTrie_limit 0 bits (by omega), readTrie]
  | succ fuel ih =>
    by_cases h0 : hufMaxNodes < nodes + 1
    · rw [readTrie_limit _ bits h0, readTrie_limit _ bits h0]
    · rw [readTrie_node _ bits h0, readTrie_node _ bits h0]
      refine Parse.andThen_congr fun tag bits1 _ => ?_
      split
      · rfl
      · rw [ih (nodes + 1) bits1 (by omega)]
        refine Parse.andThen_congr fun l bits2 hl => ?_
        rw [ih l.2 bits2 (by have := readTrie_count _ _ _ _ _ hl; omega)]

/-- Reading a preamble that is cut inside a node, or before one, within the limit: either a whole trie is read and what is
left is cut in the same way, or the end of the stream is met. -/
theorem readTrie_cut {node : Option Byte} {cut missing : Bits} (hm : missing ≠ []) (hc : cut ++ missing = nodeBits node)
    (fuel count k : Nat) (nodes : List (Option Byte)) (hf : hufMaxNodes < fuel + count)
    (hn : count + nodes.length < hufMaxNodes) (hs : 0 < subtreesLeft (k + 1) nodes) :
    (∃ t left, 0 < subtreesLeft k left ∧ left.length < nodes.length ∧
      readTrie fuel count (nodes.flatMap nodeBits ++ cut) =
        .ok (t, count + nodes.length - left.length) (left.flatMap nodeBits ++ cut)) ∨
      readTrie fuel count (nodes.flatMap nodeBits ++ cut) = .fail .endOfStream [] := by
  induction fuel generalizing count k nodes with
  | zero => omega
  | succ fuel ih =>
    cases nodes with
    | nil =>
      right
      rw [readTrie_node _ _ (by simp at hn; omega), List.flatMap_nil, List.nil_append]
      cases cut with
      | nil => rw [takeBits_one_nil]; rfl
      | cons b bs =>
        have hlen := List.length_pos_iff.mpr hm
        cases node with
        | none => simp [nodeBits, hm] at hc
        | some sym =>
          simp only [nodeBits, List.cons_append, List.cons.injEq] at hc
          obtain ⟨rfl, hc⟩ := hc
          have hl := congrArg List.length hc
          simp only [List.length_append, fieldOf, List.length_map, List.length_range] at hl
          rw [takeBits_one]
          simp only [Parse.andThen, Bool.toNat_true, if_true]
          rw [takeBits_short (by omega)]
    | cons x nodes =>
      simp only [List.length_cons] at hn
      cases x with
      | some sym =>
        refine .inl ⟨.leaf sym, nodes, by simpa [subtreesLeft] using hs, by simp, ?_⟩
        rw [readTrie_node _ _ (by omega)]
        simp only [List.flatMap_cons, nodeBits, List.cons_append, takeBits_one, Parse.andThen, Bool.toNat_true, if_true,
          fieldOf_eq, List.append_assoc]
        rw [takeBits_field sym.isLt]
        simp only [BitVec.ofNat_toNat, BitVec.setWidth_eq, Parse.ok.injEq, Prod.mk.injEq, List.length_cons, true_and,
          and_true]
        omega
      | none =>
        simp only [subtreesLeft] at hs
        simp only [List.flatMap_cons, nodeBits, List.cons_append, List.nil_append]
        rw [readTrie_internal _ _ (by omega)]
        rcases ih (count + 1) (k + 1) nodes (by omega) (by omega) hs with ⟨l, left, hk, hlt, hr⟩ | hr
        · rw [hr]
          simp only [Parse.andThen]
          rcases ih (count + 1 + nodes.length - left.length) k left (by omega) (by omega) hk with
            ⟨r, left2, hk2, hlt2, hr2⟩ | hr2
          · refine .inl ⟨.internal l r, left2, hk2, by simp; omega, ?_⟩
            rw [hr2]
            simp only [Parse.ok.injEq, Prod.mk.injEq, List.length_cons, true_and, and_true]
            omega
          · exact .inr (by rw [hr2])
        · exact .inr (by rw [hr]; rfl)

/-! ## Paths -/

/-- A walk along a path to a leaf gives its symbol and leaves the bits after the path. -/
theorem walkSymbol_path {t : Trie} {path : Bits} {s : Byte} (h : t.leafAt path = some s) (rest : Bits) :
    walkSymbol t (path ++ rest) = .ok s rest := by
  induction t generalizing path with
  | leaf s' =>
    cases path with
    | nil => simpa [Trie.leafAt, walkSymbol] using h
    | cons b bs => simp [Trie.leafAt] at h
  | internal l r hl hr =>
    cases path with
    | nil => simp [Trie.leafAt] at h
    | cons b bs =>
      simp only [Trie.leafAt] at h
      simp only [List.cons_append, walkSymbol, takeBits_one, Parse.andThen]
      cases b
      · exact hl h
      · exact hr h

/-- A walk along a path that ends inside the trie, with no bit after it, meets the end of the stream. -/
theorem walkSymbol_inside {t : Trie} {path : Bits} (h : t.stopsInside path = true) :
    walkSymbol t path = .fail .endOfStream [] := by
  induction t generalizing path with
  | leaf s => simp [Trie.stopsInside] at h
  | internal l r hl hr =>
    cases path with
    | nil => simp [walkSymbol, takeBits_one_nil, Parse.andThen]
    | cons b bs =>
      simp only [Trie.stopsInside] at h
      simp only [walkSymbol, takeBits_one, Parse.andThen]
      cases b
      · exact hl h
      · exact hr h

/-- As many walks as there are paths give their symbols in order. -/
theorem decodeSymbols_paths (t : Trie) (syms : List (Bits × Byte)) (n : Nat) (rest : Bits)
    (h : ∀ p ∈ syms, t.leafAt p.1 = some p.2) :
    decodeSymbols t (syms.length + n) ((syms.flatMap Prod.fst) ++ rest) =
      (decodeSymbols t n rest).emit (syms.map Prod.snd) := by
  induction syms with
  | nil => simp [DecodeResult.emit]
  | cons p syms ih =>
    have hp := h p (by simp)
    have ih' := ih fun q hq => h q (by simp [hq])
    rw [List.length_cons, show syms.length + 1 + n = syms.length + n + 1 by omega]
    simp only [List.flatMap_cons, List.append_assoc, decodeSymbols, walkSymbol_path hp, ih']
    simp [DecodeResult.emit]

/-- The code table holds, for each entry, a path to a leaf of its symbol. -/
theorem codeWalk_path {w : WTrie} {p : Bits} {e : Byte × Bits} (h : e ∈ codeWalk w p) :
    ∃ q, e.2 = p ++ q ∧ w.shape.leafAt q = some e.1 := by
  induction w generalizing p with
  | leaf s w =>
    simp only [codeWalk, List.mem_singleton] at h
    exact ⟨[], by simp [h], by simp [h, WTrie.shape, Trie.leafAt]⟩
  | internal w l r hl hr =>
    rcases List.mem_append.mp h with h | h
    · obtain ⟨q, h1, h2⟩ := hl h
      exact ⟨false :: q, by simp [h1], by simpa [WTrie.shape, Trie.leafAt] using h2⟩
    · obtain ⟨q, h1, h2⟩ := hr h
      exact ⟨true :: q, by simp [h1], by simpa [WTrie.shape, Trie.leafAt] using h2⟩

theorem codeWalk_symbols (w : WTrie) (p : Bits) : (codeWalk w p).map Prod.fst = w.leaves.map Prod.fst := by
  induction w generalizing p with
  | leaf s w => rfl
  | internal w l r hl hr => simp [codeWalk, WTrie.leaves, hl, hr]

/-- The code of a symbol that has a leaf is a path to a leaf of that symbol. -/
theorem codeOf_path {w : WTrie} {s : Byte} (h : s ∈ w.leaves.map Prod.fst) :
    w.shape.leafAt (codeOf (codeTable w) s) = some s := by
  have hm : ∃ c, (codeTable w).lookup s = some c := by
    rw [← codeWalk_symbols w []] at h
    obtain ⟨e, he, rfl⟩ := List.mem_map.mp h
    cases hl : (codeTable w).lookup e.1 with
    | some c => exact ⟨c, rfl⟩
    | none =>
      rw [List.lookup_eq_none_iff] at hl
      simpa using hl e he
  obtain ⟨c, hc⟩ := hm
  obtain ⟨l1, l2, hl, _⟩ := List.lookup_eq_some_iff.mp hc
  have hmem : (s, c) ∈ codeTable w := by rw [hl]; simp
  obtain ⟨q, h1, h2⟩ := codeWalk_path hmem
  simp only [List.nil_append] at h1
  rw [codeOf, hc, Option.getD_some, h1]
  exact h2

end Sys2Proof.Machine
end

