-- ==== Sys2Proof/Laws/PerInstr.lean ====
section
/-! SUPPORT. For each command: the fields of its word hold its opcode, zeros and its width. -/

namespace Sys2Proof

namespace Laws.EncodeFields

/-- The word of a well-formed command holds its opcode, a zero RSV field and its width (30_encoding.md R100, R104). -/
def Statement (i : Instr) : Prop :=
  i.WellFormed → opcodeField (encode i) = opcodeOf i ∧ reservedField (encode i) = 0 ∧ widthField (encode i) = widthOf i

theorem nop : Statement .nop := fun _ => by decide
theorem rdOpen : Statement .rdOpen := fun _ => by decide
theorem rdBit : Statement .rdBit := fun _ => by decide
theorem rdByte : Statement .rdByte := fun _ => by decide
theorem rdInt32 : Statement .rdInt32 := fun _ => by decide
theorem rdInt64 : Statement .rdInt64 := fun _ => by decide
theorem rdBits (width : Nat) : Statement (.rdBits width) := fun h =>
  fields_of_word 0x06 width (by decide) (of_decide_eq_true h)
theorem rdExhausted : Statement .rdExhausted := fun _ => by decide
theorem wrOpen : Statement .wrOpen := fun _ => by decide
theorem wrBit : Statement .wrBit := fun _ => by decide
theorem wrByte : Statement .wrByte := fun _ => by decide
theorem wrInt32 : Statement .wrInt32 := fun _ => by decide
theorem wrInt64 : Statement .wrInt64 := fun _ => by decide
theorem wrBits (width : Nat) : Statement (.wrBits width) := fun h =>
  fields_of_word 0x15 width (by decide) (of_decide_eq_true h)
theorem wrFlush : Statement .wrFlush := fun _ => by decide
theorem hufCompress : Statement .hufCompress := fun _ => by decide
theorem hufDecompress : Statement .hufDecompress := fun _ => by decide
theorem lzwCompress : Statement .lzwCompress := fun _ => by decide
theorem lzwDecompress : Statement .lzwDecompress := fun _ => by decide
theorem arcPack : Statement .arcPack := fun _ => by decide
theorem arcUnpack : Statement .arcUnpack := fun _ => by decide

end Laws.EncodeFields

end Sys2Proof
end

