-- ==== Sys2Proof/Tests/Slice0.lean ====
section
/-! SUPPORT. Tests. The decode words are written out from 30_encoding.md R100 and R104; the results of commands are the
vectors of 95_test_vectors.md and the examples of the rules, named at each theorem. The theorems `witness_…` show a
concrete state and operands that meet the hypotheses of the obligation they name. -/

namespace Sys2Proof.Tests

open Sys2Proof.Machine

/-! ## Helpers -/

/-- The state after a command. -/
def after (i : Instr) (s : State) : State :=
  match exec i s with
  | .next t => t
  | .fault _ => s
  | .refused _ => s

/-- The state after `k` steps. -/
def afterSteps (k : Nat) (s : State) : State :=
  match Sys2Proof.core.run k s with
  | .next t => t
  | .fault _ => s
  | .refused _ => s

theorem hufCompress_next (s : State) : exec .hufCompress s = .next (after .hufCompress s) := by
  simp only [after, exec, execHufCompress]
  split <;> rfl

theorem arcPack_next (s : State) : exec .arcPack s = .next (after .arcPack s) := by
  simp only [after, exec, execArcPack]
  split <;> rfl

/-- Reset, then `LOAD_SRC` and the cursor moved on. -/
def reading (src : Bytes) (rpos : Nat) : State := (State.reset.withSrc src).withRpos rpos

/-- Reset, then `SETARG`. -/
def withArg (v : BitVec 64) : State := State.reset.withArg v

/-- Reset with the writer registers set. -/
def writing (d : Bytes) (a : BitVec 8) (c : Nat) (v : BitVec 64) : State := (withArg v).withWriter ⟨d, a, c⟩

/-- The instance `(128, 256, 8)` of the vectors, with SRC loaded. -/
def smallAlphabet (src : Bytes) : State := (State.resetOf ⟨128, 256, 8, by decide⟩).withSrc src

/-- The instance `(256, 258, 9)` of the vectors, with SRC loaded. -/
def smallTable (src : Bytes) : State := (State.resetOf ⟨256, 258, 9, by decide⟩).withSrc src

/-- DST, RES, RPOS and STATUS. -/
def result (s : State) : Bytes × BitVec 64 × Nat × BitVec 32 := (s.dst, s.res, s.rpos, s.statusWord)

/-- Bytes from bits, eight at a time. -/
def pack : Nat → Bits → Bytes
  | 0, _ => []
  | n + 1, bits => BitVec.ofNat 8 (bitsVal (bits.take 8)) :: pack n (bits.drop 8)

/-- `"ABRACADABRA!"` -/
def abra : Bytes := [0x41, 0x42, 0x52, 0x41, 0x43, 0x41, 0x44, 0x41, 0x42, 0x52, 0x41, 0x21]

/-- The entries of vector V-A1. -/
def twoFiles : List Entry :=
  [⟨[0x61, 0x2E, 0x74, 0x78, 0x74], [0x41]⟩, ⟨[0x62, 0x2E, 0x74, 0x78, 0x74], [0x42]⟩]

/-- The stream of vector V-A1. -/
def twoFilesStream : Bytes :=
  [0x00, 0x01, 0x01, 0x00, 0x50, 0xFF, 0x06, 0x10, 0x2E, 0x07, 0x40, 0x78, 0x07, 0x40, 0xFF, 0x10, 0x11, 0x0B, 0x10,
    0x10, 0x01, 0x0F, 0xF0, 0x41, 0x10, 0xA1, 0x02, 0x0F, 0xF0, 0x62, 0x10, 0x61, 0x08, 0x11, 0x11, 0x0C, 0x00, 0x01,
    0x0E, 0x04, 0x21, 0x00]

/-! ## WellFormed: each check refuses an ill-formed term -/

theorem test_wellFormed_rdBits_too_wide : (Instr.rdBits 64).wellFormed = false := by decide
theorem test_wellFormed_wrBits_too_wide : (Instr.wrBits 64).wellFormed = false := by decide
theorem test_wellFormed_widths : (Instr.rdBits 63).wellFormed = true ∧ (Instr.wrBits 0).wellFormed = true := by decide

/-! ## Decoding: OPCODE in bits 31:24, RSV in 23:6, WIDTH in 5:0 -/

theorem test_decode_nop : decode 0b00000000_000000000000000000_000000#32 = .instr .nop := by decide
theorem test_decode_rdOpen : decode 0b00000001_000000000000000000_000000#32 = .instr .rdOpen := by decide
theorem test_decode_rdBit : decode 0b00000010_000000000000000000_000000#32 = .instr .rdBit := by decide
theorem test_decode_rdByte : decode 0b00000011_000000000000000000_000000#32 = .instr .rdByte := by decide
theorem test_decode_rdInt32 : decode 0b00000100_000000000000000000_000000#32 = .instr .rdInt32 := by decide
theorem test_decode_rdInt64 : decode 0b00000101_000000000000000000_000000#32 = .instr .rdInt64 := by decide
theorem test_decode_rdBits : decode 0b00000110_000000000000000000_001100#32 = .instr (.rdBits 12) := by decide
theorem test_decode_rdExhausted : decode 0b00000111_000000000000000000_000000#32 = .instr .rdExhausted := by decide
theorem test_decode_wrOpen : decode 0b00010000_000000000000000000_000000#32 = .instr .wrOpen := by decide
theorem test_decode_wrBit : decode 0b00010001_000000000000000000_000000#32 = .instr .wrBit := by decide
theorem test_decode_wrByte : decode 0b00010010_000000000000000000_000000#32 = .instr .wrByte := by decide
theorem test_decode_wrInt32 : decode 0b00010011_000000000000000000_000000#32 = .instr .wrInt32 := by decide
theorem test_decode_wrInt64 : decode 0b00010100_000000000000000000_000000#32 = .instr .wrInt64 := by decide
theorem test_decode_wrBits : decode 0b00010101_000000000000000000_000011#32 = .instr (.wrBits 3) := by decide
theorem test_decode_wrFlush : decode 0b00010110_000000000000000000_000000#32 = .instr .wrFlush := by decide
theorem test_decode_hufCompress : decode 0b00100000_000000000000000000_000000#32 = .instr .hufCompress := by decide
theorem test_decode_hufDecompress : decode 0b00100001_000000000000000000_000000#32 = .instr .hufDecompress := by decide
theorem test_decode_lzwCompress : decode 0b00110000_000000000000000000_000000#32 = .instr .lzwCompress := by decide
theorem test_decode_lzwDecompress : decode 0b00110001_000000000000000000_000000#32 = .instr .lzwDecompress := by decide
theorem test_decode_arcPack : decode 0b01000000_000000000000000000_000000#32 = .instr .arcPack := by decide
theorem test_decode_arcUnpack : decode 0b01000001_000000000000000000_000000#32 = .instr .arcUnpack := by decide

/-- A width out of range is decoded, not illegal (30_encoding.md R101). -/
theorem test_decode_wide_widths : decode 0x06000028#32 = .instr (.rdBits 40) ∧ decode 0x1500003F#32 = .instr (.wrBits 63) := by
  decide

/-- Vectors V-C2 to V-C6. -/
theorem test_decode_illegal :
    decode 0x08000000#32 = .illegal .unknownOpcode ∧ decode 0x02000001#32 = .illegal .widthNotZero ∧
      decode 0x06000040#32 = .illegal .reservedBits ∧ decode 0xFF000000#32 = .illegal .unknownOpcode ∧
      decode 0x20000001#32 = .illegal .widthNotZero := by decide

/-- R104's examples of command words. -/
theorem test_encode : encode (.rdBits 12) = 0x0600000C#32 ∧ encode .hufCompress = 0x20000000#32 := by decide

theorem test_decodeTableWord :
    decodeTableWord 32 0x0600000C = some (.rdBits 12) ∧ decodeTableWord 32 0x08000000 = none := by decide

/-- The word given to `withFetchWord` is the next one run: V-A1's last command word on an empty SRC fails as V-A9 says. -/
theorem test_withFetchWord :
    (afterSteps 1 (State.reset.withFetchWord 32 0x41000000)).cmd = 0x41000000#32 ∧
      (afterSteps 1 (State.reset.withFetchWord 32 0x41000000)).code = .corruptData := by decide +kernel

/-! ## Control and reset -/

/-- V-C7. -/
theorem test_nop_clears_code : (after .nop ((withArg 8).withCode .invalidArgument)).statusWord = 0x80#32 := by decide

/-- V-C3: the illegal word stands in CMD, the code is 8. -/
theorem test_illegal_word :
    (afterSteps 1 (State.reset.withHost [.writeCmd 0x02000001])).cmd = 0x02000001#32 ∧
      (afterSteps 1 (State.reset.withHost [.writeCmd 0x02000001])).statusWord = 0x88#32 := by decide

/-- V-Z2: pending bits are discarded. -/
theorem test_reset_discards : (afterSteps 1 ((writing [0x12] 5 3 5).withHost [.reset])) = State.reset := by decide

/-! ## Reader -/

/-- R153's example. -/
theorem test_rdOpen : (after .rdOpen (reading [0xA5] 5)).rpos = 0 := by decide

/-- R154's example: the first bit, and the read past the eighth. -/
theorem test_rdBit : (after .rdBit (reading [0x80] 0)).res = 1 ∧ (after .rdBit (reading [0x80] 8)).statusWord = 0x85#32 := by
  decide

/-- V-R2: an unaligned byte. -/
theorem test_rdByte_unaligned :
    result (after .rdByte (reading [0xB4, 0xB0] 3)) = ([], 0xA5, 11, 0) := by decide

/-- V-R6: a read that fails part-way consumes what is left. -/
theorem test_rdByte_short : result (after .rdByte (reading [0xAB] 4)) = ([], 0, 8, 0x85) := by decide

/-- R156's example. -/
theorem test_rdInt32 : result (after .rdInt32 (reading [0x01, 0x02, 0x03, 0x04] 0)) = ([], 0x01020304, 32, 0x80) := by decide

/-- V-R5. -/
theorem test_rdInt32_short : result (after .rdInt32 (reading [0x01, 0x02, 0x03] 0)) = ([], 0, 24, 0x85) := by decide

/-- V-R3. -/
theorem test_rdInt64 :
    result (after .rdInt64 (reading (List.replicate 8 0xFF) 0)) = ([], 0xFFFFFFFFFFFFFFFF, 64, 0x80) := by decide

/-- R158's example: the second twelve bits. -/
theorem test_rdBits : result (after (.rdBits 12) (reading [0x04, 0x11, 0x01] 12)) = ([], 257, 24, 0x80) := by decide

/-- V-R10, and R413: an invalid width is reported before the end of the stream. -/
theorem test_rdBits_width :
    result (after (.rdBits 33) (reading [0x04, 0x10] 0)) = ([], 0, 0, 4) ∧
      result (after (.rdBits 40) (reading [0x04] 8)) = ([], 0, 8, 0x84) := by decide

/-- V-R12 and V-R8: a padding bit left, and an empty SRC. -/
theorem test_rdExhausted :
    (after .rdExhausted (reading [0xB4] 7)).res = 0 ∧ (after .rdExhausted (reading [] 0)).res = 1 := by decide

/-! ## Writer -/

/-- R183's example. -/
theorem test_wrOpen : result (after .wrOpen (writing [0x12] 5 3 0)) = ([], 0, 0, 0x80) := by decide

/-- R184's example, the eighth bit. -/
theorem test_wrBit_completes : result (after .wrBit (writing [] 0x52 7 1)) = ([0xA5], 0, 0, 0x80) := by decide

/-- V-W13. -/
theorem test_wrBit_range : result (after .wrBit (withArg 2)) = ([], 0, 0, 0x84) := by decide

/-- R185's example. -/
theorem test_wrByte_straddles :
    result (after .wrByte (writing [] 5 3 0xA5)) = ([0xB4], 0, 0, 0xB0) ∧
      (after .wrByte (writing [] 5 3 0xA5)).wacc = 5 := by decide

/-- V-W8. -/
theorem test_wrByte_range : result (after .wrByte (withArg 256)) = ([], 0, 0, 0x84) := by decide

/-- R186's example. -/
theorem test_wrInt32 : (after .wrInt32 (withArg 0x01020304)).dst = [0x01, 0x02, 0x03, 0x04] := by decide

/-- V-W12. -/
theorem test_wrInt32_range : result (after .wrInt32 (withArg 0x100000000)) = ([], 0, 0, 0x84) := by decide

/-- V-W4. -/
theorem test_wrInt64 :
    (after .wrInt64 (withArg 0x0123456789ABCDEF)).dst = [0x01, 0x23, 0x45, 0x67, 0x89, 0xAB, 0xCD, 0xEF] := by decide +kernel

/-- R188's example, both halves. -/
theorem test_wrBits :
    result (after (.wrBits 3) (withArg 5)) = ([], 0, 0, 0xB0) ∧ (after (.wrBits 3) (withArg 5)).wacc = 5 ∧
      result (after (.wrBits 3) (withArg 8)) = ([], 0, 0, 0x84) := by decide

/-- V-W10 and V-W11. -/
theorem test_wrBits_width :
    (after (.wrBits 33) (withArg 5)).statusWord = 0x84 ∧ (after (.wrBits 0) (withArg 0)).statusWord = 0x84 := by decide

/-- R189's example, and V-W6: nothing pending, nothing written. -/
theorem test_wrFlush :
    result (after .wrFlush (writing [] 4 4 0)) = ([0x40], 0, 0, 0x80) ∧ (after .wrFlush State.reset).dst = [] := by decide

/-! ## Huffman -/

/-- V-H6. -/
theorem test_hufCompress_abra :
    result (after .hufCompress (reading abra 0)) =
      ([0x50, 0x4A, 0x25, 0x09, 0x52, 0x48, 0x68, 0x60, 0x00, 0x00, 0x01, 0x8B, 0x9E, 0x8B, 0x9C], 15, 96, 0x80) := by
  decide +kernel

/-- V-H9: the lower weight is the left child. -/
theorem test_hufCompress_order :
    result (after .hufCompress (reading [0x41, 0x41, 0x42] 0)) = ([0x50, 0xA8, 0x20, 0x00, 0x00, 0x00, 0x78], 7, 24, 0x80) := by
  decide +kernel

/-- V-H12: the end of the stream inside a walk keeps the output. -/
theorem test_hufDecompress_short :
    result (after .hufDecompress (reading [0x50, 0x68, 0x40, 0x00, 0x00, 0x00, 0xC8] 3)) =
      ([0x41, 0x42, 0x41, 0x41, 0x41], 0, 56, 0x86) := by decide +kernel

/-- V-H14: trailing bytes are not read. -/
theorem test_hufDecompress_trailing :
    result (after .hufDecompress (reading [0x50, 0x68, 0x40, 0x00, 0x00, 0x00, 0x48, 0xFF] 0)) =
      ([0x41, 0x42], 2, 53, 0) := by decide +kernel

/-! ## LZW -/

/-- V-L7. -/
theorem test_lzwCompress_run :
    result (after .lzwCompress (reading (List.replicate 7 0x41) 0)) =
      ([0x04, 0x11, 0x01, 0x10, 0x20, 0x41, 0x10, 0x00], 8, 56, 0x80) := by decide +kernel

/-- V-L15: a full table; and V-L20: a byte outside the alphabet. -/
theorem test_lzwCompress_config :
    result (after .lzwCompress (smallTable [0x41, 0x42, 0x41, 0x42, 0x41, 0x42])) =
      ([0x20, 0x90, 0xA0, 0x30, 0x18, 0x00], 6, 48, 0x80) ∧
      result (after .lzwCompress (smallAlphabet [0x41, 0x80])) = ([], 0, 16, 0x84) := by decide +kernel

/-- V-L5 decoded: the self-reference case. -/
theorem test_lzwDecompress_self_reference :
    result (after .lzwDecompress (reading [0x04, 0x11, 0x01, 0x04, 0x11, 0x00] 9)) =
      ([0x41, 0x41, 0x41, 0x41], 4, 48, 0x80) := by decide +kernel

/-- V-L14: an unassigned codeword; and V-L12: the exhaustion stop. -/
theorem test_lzwDecompress_ends :
    result (after .lzwDecompress (reading [0x04, 0x11, 0x02, 0x10, 0x00] 0)) = ([0x41], 0, 24, 6) ∧
      result (after .lzwDecompress (reading [0x04, 0x10, 0x42] 0)) = ([0x41], 1, 24, 0x80) := by decide +kernel

/-! ## Archive -/

/-- V-A1, packed. -/
theorem test_arcPack : result (after .arcPack (State.reset.withEin twoFiles)) = (twoFilesStream, 42, 0, 0x80) := by
  decide +kernel

/-- V-A12: a blob byte outside the alphabet. -/
theorem test_arcPack_alphabet :
    result (after .arcPack ((smallAlphabet []).withEin [⟨[0x78], [0xC8]⟩])) = ([], 0, 0, 0x84) := by decide +kernel

/-- V-A1, unpacked. -/
theorem test_arcUnpack :
    result (after .arcUnpack (reading twoFilesStream 0)) = ([], 2, 336, 0x80) ∧
      (after .arcUnpack (reading twoFilesStream 0)).eout = twoFiles := by decide +kernel

/-- V-A8: a byte that is no separator after the only entry. -/
theorem test_arcUnpack_no_separator :
    (after .arcUnpack (reading
      [0x00, 0x01, 0x01, 0x00, 0x50, 0xFF, 0x06, 0x10, 0x2E, 0x07, 0x40, 0x78, 0x07, 0x40, 0xFF, 0x10, 0x11, 0x0B, 0x10,
        0x10, 0x01, 0x0F, 0xF0, 0x41, 0x00, 0x01, 0x00] 0)).eout = twoFiles.take 1 ∧
      result (after .arcUnpack (reading
      [0x00, 0x01, 0x01, 0x00, 0x50, 0xFF, 0x06, 0x10, 0x2E, 0x07, 0x40, 0x78, 0x07, 0x40, 0xFF, 0x10, 0x11, 0x0B, 0x10,
        0x10, 0x01, 0x0F, 0xF0, 0x41, 0x00, 0x01, 0x00] 0)) = ([], 0, 216, 0x86) := by decide +kernel

/-! ## Host actions -/

/-- P3's `LOAD_SRC DST` between the two commands, as the pseudo-command runs it. -/
theorem test_roundtrip_lzw :
    (afterSteps 4 (State.reset.withHost (.loadSrc [0x41, 0x42, 0x41, 0x42, 0x41, 0x42, 0x41] :: pseudoRoundtripLzw))).dst =
      [0x41, 0x42, 0x41, 0x42, 0x41, 0x42, 0x41] := by decide +kernel

/-- READ STATUS after reset gives 0x80 and changes nothing of the engine; a write to STATUS is ignored (R38). -/
theorem test_read_status :
    (afterSteps 2 (State.reset.withHost [.writeReadOnly .status 0xFF, .readReg .status])).returned =
      [.reg .status 0x80] := by decide

/-! ## Witnesses: the hypotheses of the obligations can be met -/

theorem witness_EncodeThenDecode : (Instr.rdBits 63).WellFormed ∧ (Instr.wrBits 0).WellFormed ∧ Instr.nop.WellFormed := by
  decide

theorem witness_DecodeThenEncode : decode 0x0600003F#32 = .instr (.rdBits 63) := by decide

theorem witness_IllegalWordsAndTheirResponse :
    (decode 0x06000040#32 = .illegal .reservedBits ∧ decode 0x42000000#32 = .illegal .unknownOpcode ∧
      decode 0x02000001#32 = .illegal .widthNotZero) ∧
      (State.reset.withHost [.writeCmd 0x02000001]).host = .writeCmd 0x02000001 :: [] := by decide

theorem witness_StepRunsTheDecodedCommand :
    (State.reset.withHost [.writeCmd 0x0600000C]).host = .writeCmd 0x0600000C :: [] ∧
      decode 0x0600000C#32 = .instr (.rdBits 12) ∧
      (State.reset.withHost [.writeCmd 0x42000000]).host = .writeCmd 0x42000000 :: [] ∧
      decode 0x42000000#32 = .illegal .unknownOpcode := by decide

theorem witness_ResetActionRestoresEverything : ((writing [1] 1 1 1).withHost [.reset]).host = .reset :: [] := by decide

theorem witness_LoadActionsWriteTheirBuffers :
    (State.reset.withHost [.setArg 5]).host = .setArg 5 :: [] ∧
      (State.reset.withHost [.loadSrc [1, 2]]).host = .loadSrc [1, 2] :: [] ∧
      ((writing [7] 1 1 0).withHost [.loadSrcDst]).host = .loadSrcDst :: [] ∧
      (State.reset.withHost [.loadEin twoFiles]).host = .loadEin twoFiles :: [] := by decide

theorem witness_ReadsAndIgnoredWritesHaveNoEffect :
    (State.reset.withHost [.writeReadOnly .res 5]).host = .writeReadOnly .res 5 :: [] ∧
      ((withArg 9).withHost [.readReg .arg]).host = .readReg .arg :: [] ∧
      (State.reset.withHost [.readReg .status]).host = .readReg .status :: [] ∧
      ((writing [7] 0 0 0).withHost [.readDst]).host = .readDst :: [] ∧
      (State.reset.withHost [.readEout]).host = .readEout :: [] := by decide

theorem witness_RegisterValuesTheHostReads :
    ((writing [] 0x7F 7 0).withSrc [1]).Inv ∧ (reading [1] 8).Inv ∧ (reading [1] 7).Inv ∧
      (reading [1] 7).cfg.L < 2 ^ 32 := by
  simp only [State.Inv]
  decide

theorem witness_StepKeepsInvariant :
    ((writing [] 0x7F 7 1).withHost [command .wrBit]).Inv ∧
      ∃ t, step ((writing [] 0x7F 7 1).withHost [command .wrBit]) = .next t :=
  ⟨by simp only [State.Inv]; decide, _, rfl⟩

theorem witness_StepKeepsConfigAndActions :
    (∃ t, step (State.reset.withHost [command .nop, .reset]) = .next t) ∧ (writing [7] 1 1 1).host = [] := ⟨⟨_, rfl⟩, rfl⟩

theorem witness_EngineWritesOnlyItsCodes :
    (∃ t, exec .rdBit State.reset = .next t) ∧ State.reset.code.byEngine = true ∧
      ∃ t, step (State.reset.withHost [command .rdBit]) = .next t := ⟨⟨_, rfl⟩, rfl, _, rfl⟩

theorem witness_CommandsReportOnlyTheirCodes :
    (∃ t, exec .rdBit State.reset = .next t) ∧ ∃ t, exec (.wrBits 0) State.reset = .next t := ⟨⟨_, rfl⟩, _, rfl⟩

theorem witness_ResultKeptOnFailure :
    (∃ t, exec .rdBit State.reset = .next t ∧ t.code ≠ .ok) ∧ (∃ t, exec .nop State.reset = .next t) ∧
      ∃ t, exec (.wrBits 3) (withArg 5) = .next t :=
  ⟨⟨_, rfl, by decide⟩, ⟨_, rfl⟩, _, rfl⟩

theorem witness_CommandsNeverWriteTheirInputs :
    (∃ t, exec .rdByte (reading [1] 0) = .next t) ∧
      Instr.rdByte ∉ [.wrBit, .wrByte, .wrInt32, .wrInt64] ∧ ∀ w, Instr.rdByte ≠ .wrBits w :=
  ⟨⟨_, rfl⟩, by decide, fun _ h => by cases h⟩

theorem witness_CodecCommandsEndFlushed :
    (isCodec .lzwDecompress = true ∧ Instr.lzwDecompress ≠ .arcUnpack ∧
      ∃ t, exec .lzwDecompress (reading [0x10, 0x00] 0) = .next t) ∧
      isCodec .arcPack = true ∧ ∃ t, exec .arcPack State.reset = .next t := ⟨⟨rfl, by decide, _, rfl⟩, rfl, _, rfl⟩

theorem witness_CodecDependsOnlyOnItsInput :
    (isCodec .lzwCompress = true ∧ (reading [0x41] 0).cfg = (reading [0x41] 5).cfg ∧
      (reading [0x41] 0).src = (reading [0x41] 5).src ∧ (∃ t, exec .lzwCompress (reading [0x41] 0) = .next t) ∧
      ∃ t, exec .lzwCompress (reading [0x41] 5) = .next t) ∧
      isCodec .arcPack = true ∧ (reading [0x41] 0).ein = State.reset.ein ∧ (reading [0x41] 0).cfg = State.reset.cfg ∧
      (∃ t, exec .arcPack (reading [0x41] 0) = .next t) ∧ ∃ t, exec .arcPack State.reset = .next t :=
  ⟨⟨rfl, rfl, rfl, ⟨_, rfl⟩, _, rfl⟩, rfl, rfl, rfl, ⟨_, rfl⟩, _, rfl⟩

theorem witness_ReaderCommandsTouchOnlyTheReader :
    (∃ t, exec .rdByte (reading [1] 0) = .next t) ∧
      ((writing [3] 1 1 1).withSrc [1]).src = (reading [1] 0).src ∧
      ((writing [3] 1 1 1).withSrc [1]).rpos = (reading [1] 0).rpos ∧
      (∃ t, exec .rdByte ((writing [3] 1 1 1).withSrc [1]) = .next t) ∧
      ∃ t, exec (.rdBits 32) (reading [1] 0) = .next t := ⟨⟨_, rfl⟩, rfl, rfl, ⟨_, rfl⟩, _, rfl⟩

/-- Enough bits, exactly enough, and one too few. -/
theorem witness_ReadCommandsGiveTheNextBits :
    ((reading [0x80] 0).rpos + 1 ≤ 8 * (reading [0x80] 0).src.length ∧
      8 * (reading [0x80] 8).src.length < (reading [0x80] 8).rpos + 1) ∧
      ((reading [0xAB] 0).rpos + 8 ≤ 8 * (reading [0xAB] 0).src.length ∧
        8 * (reading [0xAB] 1).src.length < (reading [0xAB] 1).rpos + 8) ∧
      ((reading [1, 2, 3, 4] 0).rpos + 32 ≤ 8 * (reading [1, 2, 3, 4] 0).src.length ∧
        8 * (reading [1, 2, 3, 4] 1).src.length < (reading [1, 2, 3, 4] 1).rpos + 32) ∧
      (reading (List.replicate 8 0) 0).rpos + 64 ≤ 8 * (reading (List.replicate 8 0) 0).src.length ∧
        8 * (reading (List.replicate 8 0) 1).src.length < (reading (List.replicate 8 0) 1).rpos + 64 := by decide

/-- The widths at both ends of the legal range and just outside it. -/
theorem witness_RdBitsByWidth :
    ((1 : Nat) ≤ 1 ∧ 1 ≤ 32 ∧ (reading [0x80] 7).rpos + 1 ≤ 8 * (reading [0x80] 7).src.length) ∧
      ((1 : Nat) ≤ 32 ∧ 32 ≤ 32 ∧ (reading [1, 2, 3, 4] 0).rpos + 32 ≤ 8 * (reading [1, 2, 3, 4] 0).src.length ∧
        8 * (reading [1, 2, 3, 4] 1).src.length < (reading [1, 2, 3, 4] 1).rpos + 32) ∧
      ((0 : Nat) < 1 ∧ 32 < (33 : Nat) ∧ (33 : Nat) < 64) := by decide

theorem witness_ExhaustedTellsWhetherABitRemains :
    (reading [0x80] 8).rpos ≤ 8 * (reading [0x80] 8).src.length ∧
      (reading [0x80] 7).rpos ≤ 8 * (reading [0x80] 7).src.length := by decide

theorem witness_SplitReadsAndWritesAgree :
    ((1 : Nat) ≤ 31 ∧ (1 : Nat) ≤ 33 ∧ 31 + 33 ≤ 64 ∧
      (reading (List.replicate 9 0xA5) 8).rpos + (31 + 33) ≤ 8 * (reading (List.replicate 9 0xA5) 8).src.length) ∧
      (reading [1, 2, 3, 4] 0).rpos + 32 ≤ 8 * (reading [1, 2, 3, 4] 0).src.length ∧ 2 ^ 31 - 1 < 2 ^ 31 ∧
      2 ^ 33 - 1 < 2 ^ 33 := by decide

theorem witness_WriterCommandsTouchOnlyTheWriter :
    (∃ t, exec .wrByte (withArg 5) = .next t) ∧ (∃ t, exec .wrByte (withArg 256) = .next t ∧ t.code ≠ .ok) ∧
      ((withArg 5).withSrc [1]).arg = (withArg 5).arg ∧ ((withArg 5).withSrc [1]).dst = (withArg 5).dst ∧
      ((withArg 5).withSrc [1]).wacc = (withArg 5).wacc ∧ ((withArg 5).withSrc [1]).wcnt = (withArg 5).wcnt ∧
      ∃ t, exec .wrByte ((withArg 5).withSrc [1]) = .next t :=
  ⟨⟨_, rfl⟩, ⟨_, rfl, by decide⟩, rfl, rfl, rfl, rfl, _, rfl⟩

/-- The largest ARG that fits each width, and the least that does not, with bits pending. -/
theorem witness_WriteCommandsAppendTheBits :
    (writing [9] 0x7F 7 1).WriterInv ∧ (writing [9] 0x7F 7 1).arg.toNat < 2 ^ 1 ∧
      2 ^ 1 ≤ (writing [9] 0x7F 7 2).arg.toNat ∧ (writing [9] 0x7F 7 255).arg.toNat < 2 ^ 8 ∧
      2 ^ 8 ≤ (writing [9] 0x7F 7 256).arg.toNat ∧ (writing [9] 0x7F 7 0xFFFFFFFF).arg.toNat < 2 ^ 32 ∧
      2 ^ 32 ≤ (writing [9] 0x7F 7 0x100000000).arg.toNat ∧
      (writing [9] 0x7F 7 0xFFFFFFFFFFFFFFFF).arg.toNat < 2 ^ 64 := by
  simp only [State.WriterInv]
  decide

theorem witness_WrBitsByWidth :
    (writing [] 0 0 5).WriterInv ∧ (1 : Nat) ≤ 3 ∧ (3 : Nat) ≤ 32 ∧ (writing [] 0 0 5).arg.toNat < 2 ^ 3 ∧
      2 ^ 3 ≤ (writing [] 0 0 8).arg.toNat ∧ (writing [] 0 0 0xFFFFFFFF).arg.toNat < 2 ^ 32 ∧
      2 ^ 32 ≤ (writing [] 0 0 0x100000000).arg.toNat ∧ (0 : Nat) < 1 ∧ 32 < (33 : Nat) := by
  simp only [State.WriterInv]
  decide

theorem witness_FlushPadsWithZeros :
    (writing [1] 0x7F 7 0).WriterInv ∧ (writing [1] 0 0 0).WriterInv ∧ (writing [1] 0 0 0).wcnt = 0 := by
  simp only [State.WriterInv]
  decide

theorem witness_ExtractMinTakesTheLeast :
    [(WTrie.leaf 65 2, 0), (.leaf 66 1, 1), (.leaf 67 1, 2)] ≠ [] ∧
      extractMin [(WTrie.leaf 65 2, 0), (.leaf 66 1, 1), (.leaf 67 1, 2)] =
        some ((.leaf 66 1, 1), [(.leaf 65 2, 0), (.leaf 67 1, 2)]) := by decide

theorem witness_BuiltTrieInvariants : abra ≠ [] ∧ (0x21 : Byte) ∈ abra := by decide

/-- R214's tie: of three leaves of one weight the first two merge first, the earlier one to the left, and the merged pair
then comes after the third. -/
theorem test_merge_order :
    MergesTo 3 [(.leaf 65 1, 0), (.leaf 66 1, 1), (.leaf 67 1, 2)]
      (.internal 3 (.leaf 67 1) (.internal 2 (.leaf 65 1) (.leaf 66 1))) ∧
      buildTrie [0x43, 0x42, 0x41] = .internal 3 (.leaf 67 1) (.internal 2 (.leaf 65 1) (.leaf 66 1)) :=
  ⟨.pass (.refl _) (.inr ⟨rfl, by decide⟩) (by simp [ComesBefore, WTrie.weight])
    (.pass (.refl _) (.inl (by decide)) (by simp) (.single 5 _)), by decide +kernel⟩

theorem witness_HufCompressWritesTheStream :
    (reading abra 0).src.length ≤ 2 ^ 32 - 1 ∧ (reading [] 0).src.length ≤ 2 ^ 32 - 1 := by decide

theorem witness_HufStreamLength :
    (reading abra 0).src.length ≤ 2 ^ 32 - 1 ∧ (reading abra 0).src.dedup.length = 6 ∧ (reading [] 0).src = [] := by decide

/-- The trie of V-H4. -/
def trieAB : Trie := .internal (.leaf 0x41) (.leaf 0x42)

/-- V-H4's stream, a one-leaf root whose symbols take no bit (V-H3), and the largest trie. -/
theorem witness_HufDecompressReadsAnyTrie :
    (trieAB.nodeCount ≤ 511 ∧
      (∀ e ∈ [([false], (0x41 : Byte)), ([true], 0x42)], trieAB.leafAt e.1 = some e.2) ∧
      streamOf [0x50, 0x68, 0x40, 0x00, 0x00, 0x00, 0x48] =
        trieAB.preamble ++ fieldOf 32 2 ++ ([([false], (0x41 : Byte)), ([true], 0x42)].map Prod.fst).flatten ++
          [false, false, false]) ∧
      ((∀ e ∈ List.replicate 3 (([] : Bits), (0x41 : Byte)), (Trie.leaf 0x41).leafAt e.1 = some e.2) ∧
        streamOf [0xA0, 0x80, 0x00, 0x00, 0x01, 0x80] =
          (Trie.leaf 0x41).preamble ++ fieldOf 32 3 ++ ((List.replicate 3 (([] : Bits), (0x41 : Byte))).map Prod.fst).flatten ++
            List.replicate 7 false) := by decide

/-- A trie of `2·n + 1` nodes, every left child of the spine a leaf. -/
def spine : Nat → Trie
  | 0 => .leaf 0
  | n + 1 => .internal (.leaf 1) (spine n)

theorem witness_HufDecompressReadsAnyTrie_largest :
    (spine 255).nodeCount = 511 ∧
      streamOf (pack 324 ((spine 255).preamble ++ fieldOf 32 0 ++ [false])) =
        (spine 255).preamble ++ fieldOf 32 ([] : List (Bits × Byte)).length ++ ([] : Bits) ++ [false] := by
  rw [streamOf_eq]
  decide +kernel

/-- V-H16 with one bit of the preamble missing; 304 internal nodes and the end; a node cut after 510 others; V-H19 with
31 bits of the length; and V-H12. -/
theorem witness_HufDecompressTruncated :
    (0 < subtreesLeft 1 [] ∧ (true :: List.replicate 7 false) ++ [false] = nodeBits (some 0) ∧
      streamOf [0x80] = ([] : List (Option Byte)).flatMap nodeBits ++ true :: List.replicate 7 false) ∧
      (0 < subtreesLeft 1 (List.replicate 304 none) ∧ [] ++ [false] = nodeBits none ∧
        streamOf (List.replicate 38 0) = (List.replicate 304 (none : Option Byte)).flatMap nodeBits ++ []) ∧
      ((List.replicate 510 (none : Option Byte)).length < 511 ∧ 0 < subtreesLeft 1 (List.replicate 510 none) ∧
        [true, false] ++ List.replicate 7 false = nodeBits (some 0) ∧
        streamOf (List.replicate 63 0 ++ [0x02]) =
          (List.replicate 510 (none : Option Byte)).flatMap nodeBits ++ [true, false]) ∧
      ((Trie.leaf 0).nodeCount ≤ 511 ∧ (List.replicate 31 false).length < 32 ∧
        streamOf [0x80, 0x00, 0x00, 0x00, 0x00] = (Trie.leaf 0).preamble ++ List.replicate 31 false) ∧
      ((∀ e ∈ [([false], (0x41 : Byte)), ([true], 0x42), ([false], 0x41), ([false], 0x41), ([false], 0x41)],
          trieAB.leafAt e.1 = some e.2) ∧ trieAB.nodeCount ≤ 511 ∧ trieAB.stopsInside [] = true ∧
        streamOf [0x50, 0x68, 0x40, 0x00, 0x00, 0x00, 0xC8] =
          trieAB.preamble ++ fieldOf 32 6 ++ ([([false], (0x41 : Byte)), ([true], 0x42), ([false], 0x41), ([false], 0x41),
            ([false], 0x41)].map Prod.fst).flatten ++ []) := by decide +kernel

/-- V-H21: 511 internal nodes and one bit more; and a stream with leaves among its 511 nodes. -/
theorem witness_HufNodeLimit :
    ((List.replicate 511 (none : Option Byte)).length = 511 ∧ 0 < subtreesLeft 1 (List.replicate 511 none) ∧
      streamOf (List.replicate 64 0) = (List.replicate 511 (none : Option Byte)).flatMap nodeBits ++ [false]) ∧
      (List.replicate 256 (none : Option Byte) ++ List.replicate 255 (some 0)).length = 511 ∧
      0 < subtreesLeft 1 (List.replicate 256 none ++ List.replicate 255 (some 0)) := by decide +kernel

/-- The first clause on V-H6's input; the second on a trie no encoder builds, with its children the other way round. -/
theorem witness_HufRoundTrip :
    (abra.length ≤ 2 ^ 32 - 1 ∧
      (State.reset.withHost [.loadSrc abra, command .hufCompress, .loadSrcDst, command .hufDecompress]).host =
        [.loadSrc abra, command .hufCompress, .loadSrcDst, command .hufDecompress]) ∧
      ((WTrie.internal 0 (.leaf 0x42 7) (.leaf 0x41 1)).shape.nodeCount ≤ 511 ∧
        (∀ b ∈ [(0x41 : Byte), 0x42], b ∈ (WTrie.internal 0 (.leaf 0x42 7) (.leaf 0x41 1)).leaves.map Prod.fst) ∧
        streamOf (pack 7 ((WTrie.internal 0 (.leaf 0x42 7) (.leaf 0x41 1)).shape.preamble ++ fieldOf 32 2 ++
            [true, false] ++ [false, false, false])) =
          (WTrie.internal 0 (.leaf 0x42 7) (.leaf 0x41 1)).shape.preamble ++ fieldOf 32 2 ++
            [(0x41 : Byte), 0x42].flatMap (codeOf (codeTable (WTrie.internal 0 (.leaf 0x42 7) (.leaf 0x41 1)))) ++
            [false, false, false]) := by decide +kernel

/-- A dictionary of the small alphabet: the form holds of the seeded one, with an entry of it, and at its boundary lengths. -/
theorem witness_DictionaryFormKept :
    (seedDict Config.standard).Wf Config.standard ∧ (65, [0x41]) ∈ (seedDict Config.standard).entries ∧
      (1 : Nat) ≤ ([0x41] : Bytes).length ∧
      ([0x41] : Bytes).length ≤ (seedDict Config.standard).next - Config.standard.R ∧ ([0x42] : Bytes) ≠ [] := by
  refine ⟨⟨by decide +kernel, by decide +kernel, by decide +kernel, by decide +kernel⟩, by decide +kernel, by decide, by decide +kernel, by decide⟩

theorem witness_LzwCompressWritesTheGreedyStream :
    (∀ b ∈ (reading [0x41, 0xFF] 0).src, b.toNat < (reading [0x41, 0xFF] 0).cfg.R) ∧
      (∀ b ∈ (smallAlphabet [0x7F]).src, b.toNat < (smallAlphabet [0x7F]).cfg.R) := by decide

/-- What the codewords 65, 257, 65 of V-L5 spell. -/
theorem spells_AAAA : Spells Config.standard [65, 257, 65] [[0x41], [0x41, 0x41], [0x41]] := by
  refine ⟨rfl, fun j c p hc hp => ?_⟩
  match j with
  | 0 => cases hc; cases hp; exact .inl ⟨by decide, rfl⟩
  | 1 => cases hc; cases hp; exact .inr ⟨0, _, _, by decide, rfl, by decide, rfl, rfl, rfl⟩
  | 2 => cases hc; cases hp; exact .inl ⟨by decide, rfl⟩
  | j + 3 => simp at hc

theorem spells_nothing (cfg : Config) : Spells cfg [] [] := ⟨rfl, fun j c p hc => by simp at hc⟩

/-- What the one codeword 65 spells. -/
theorem spells_A : Spells Config.standard [65] [[0x41]] := by
  refine ⟨rfl, fun j c p hc hp => ?_⟩
  match j with
  | 0 => cases hc; cases hp; exact .inl ⟨by decide, rfl⟩
  | j + 1 => simp at hc

/-- V-L5's stream, and V-L1's, which spells nothing. -/
theorem witness_LzwDecompressReadsSpelledStreams :
    (Spells (reading [0x04, 0x11, 0x01, 0x04, 0x11, 0x00] 0).cfg [65, 257, 65] [[0x41], [0x41, 0x41], [0x41]] ∧
      streamOf [0x04, 0x11, 0x01, 0x04, 0x11, 0x00] = lzwBits Config.standard [65, 257, 65] ++ []) ∧
      Spells (reading [0x10, 0x00] 0).cfg [] [] ∧
      streamOf [0x10, 0x00] = lzwBits Config.standard [] ++ List.replicate 4 false :=
  ⟨⟨spells_AAAA, by decide⟩, spells_nothing _, by decide⟩

/-- V-L14 (258 while NEXT is 257), V-L21 (257 as the first codeword), V-L12, V-L11 and V-L16. -/
theorem witness_LzwDecompressOtherEnds :
    (Spells (reading [0x04, 0x11, 0x02, 0x10, 0x00] 0).cfg [65] [[0x41]] ∧ Config.standard.R < 258 ∧
      258 < 2 ^ Config.standard.W ∧ Config.standard.R + [65].length < 258 ∧
      streamOf [0x04, 0x11, 0x02, 0x10, 0x00] =
        ([65] ++ [258]).flatMap (fieldOf Config.standard.W) ++ streamOf [0x10, 0x00]) ∧
      (Spells (reading [0x10, 0x11, 0x00] 0).cfg [] [] ∧ Config.standard.R + ([] : List Nat).length < 257 ∧
        streamOf [0x10, 0x11, 0x00] =
          ([] ++ [257]).flatMap (fieldOf Config.standard.W) ++ (fieldOf 12 0x100)) ∧
      (66 < 2 ^ Config.standard.W ∧ streamOf [0x04, 0x10, 0x42] = ([65] ++ [66]).flatMap (fieldOf Config.standard.W)) ∧
      ((List.replicate 4 false).length < Config.standard.W ∧ List.replicate 4 false ≠ [] ∧
        streamOf [0x04, 0x10] = [65].flatMap (fieldOf Config.standard.W) ++ List.replicate 4 false) ∧
      ([] : Bits).length < Config.standard.W ∧ streamOf [] = ([] : List Nat).flatMap (fieldOf Config.standard.W) ++ [] :=
  ⟨⟨spells_A, by decide, by decide, by decide, by decide⟩, ⟨spells_nothing _, by decide, by decide⟩, by decide, by decide,
    by decide⟩

theorem witness_LzwRoundTrip :
    ((∀ b ∈ [(0x41 : Byte), 0xFF], b.toNat < State.reset.cfg.R) ∧
      (State.reset.withHost [.loadSrc [0x41, 0xFF], command .lzwCompress, .loadSrcDst, command .lzwDecompress]).host =
        [.loadSrc [0x41, 0xFF], command .lzwCompress, .loadSrcDst, command .lzwDecompress]) ∧
      ((reading [0x41, 0x41, 0x41, 0x41] 0).cfg = Config.standard ∧
        (reading [0x41, 0x41, 0x41, 0x41] 0).src = [0x41, 0x41, 0x41, 0x41]) ∧
      Packs [0x04, 0x11, 0x01, 0x04, 0x11, 0x00] ([65, 257, 65, 256].flatMap (fieldOf 12)) ∧
      Packs [0x04, 0x10, 0x41, 0x04, 0x10, 0x41, 0x10, 0x00] ([65, 65, 65, 65, 256].flatMap (fieldOf 12)) :=
  ⟨by decide, by decide, ⟨0, by decide, by decide⟩, ⟨4, by decide, by decide⟩⟩

theorem witness_OutputBounds :
    (∃ t, exec .lzwDecompress (reading [0x04, 0x11, 0x00] 0) = .next t) ∧
      ∃ t, exec .hufCompress (reading [0x41] 0) = .next t := ⟨⟨_, rfl⟩, _, hufCompress_next _⟩

/-- The least input too long for HUF_COMPRESS, a byte outside the alphabet, and, for ARC_PACK, the least name and the least
content too long, and a blob byte outside the alphabet. -/
theorem witness_EncodersRefuseTheseInputs :
    2 ^ 32 - 1 < (reading (List.replicate (2 ^ 32) 0) 0).src.length ∧
      (∃ b ∈ (smallAlphabet [0x80]).src, (smallAlphabet [0x80]).cfg.R ≤ b.toNat) ∧
      (∃ e ∈ (State.reset.withEin [⟨List.replicate (2 ^ 32) 0, []⟩]).ein, 2 ^ 32 ≤ e.name.length) ∧
      (∃ e ∈ (State.reset.withEin [⟨[], List.replicate (2 ^ 64) 0⟩]).ein, 2 ^ 64 ≤ e.content.length) ∧
      ∃ b ∈ blobOf (smallAlphabet []).cfg [⟨[0x78], [0xC8]⟩], (smallAlphabet []).cfg.R ≤ b.toNat := by
  refine ⟨?_, by decide, ⟨_, List.mem_singleton_self _, ?_⟩, ⟨_, List.mem_singleton_self _, ?_⟩, by decide +kernel⟩
  · show 2 ^ 32 - 1 < (List.replicate (2 ^ 32) (0 : Byte)).length
    rw [List.length_replicate]
    norm_num
  · show 2 ^ 32 ≤ (List.replicate (2 ^ 32) (0 : Byte)).length
    rw [List.length_replicate]
  · show 2 ^ 64 ≤ (List.replicate (2 ^ 64) (0 : Byte)).length
    rw [List.length_replicate]

theorem witness_BlobLayout : twoFiles ≠ [] := by decide

theorem witness_ArcPackIsLzwOfTheBlob :
    (∀ e ∈ (State.reset.withEin twoFiles).ein, e.name.length < 2 ^ 32 ∧ e.content.length < 2 ^ 64) ∧
      (∀ b ∈ blobOf (State.reset.withEin twoFiles).cfg (State.reset.withEin twoFiles).ein,
        b.toNat < (State.reset.withEin twoFiles).cfg.R) := by decide +kernel

/-- An LZW stream of the small alphabet with one codeword for each byte, from `(128, 256, 8)`: it spells its bytes. -/
theorem spells_bytes (cfg : Config) (bytes : Bytes) (h : ∀ b ∈ bytes, b.toNat < cfg.R) :
    Spells cfg (bytes.map BitVec.toNat) (bytes.map fun b => [b]) := by
  refine ⟨by simp, fun j c p hc hp => .inl ?_⟩
  simp only [List.getElem?_map, Option.map_eq_some_iff] at hc hp
  obtain ⟨b, hb, rfl⟩ := hc
  obtain ⟨b', hb', rfl⟩ := hp
  rw [hb, Option.some.injEq] at hb'
  subst hb'
  exact ⟨h b (List.mem_of_getElem? hb), by simp⟩

/-- The entry `("x", "y")` of V-A11. -/
def entryXY : Entry := ⟨[0x78], [0x79]⟩

/-- The blob of V-A11. -/
def blobXY : Bytes := [0, 0, 0, 1, 0x7F, 0x78, 0x7F, 0, 0, 0, 0, 0, 0, 0, 1, 0x7F, 0x79]

/-- V-A11's blob, one codeword for each byte; the empty blob of V-A4; and both with a last codeword, the largest, with which
the stream is exhausted. -/
theorem witness_ArcUnpackGivesTheEntries :
    ((∀ e ∈ [entryXY], e.name.length < 2 ^ 32 ∧ e.content.length < 2 ^ 64) ∧
      Spells (smallAlphabet (blobXY ++ [128])).cfg (blobXY.map BitVec.toNat) (blobXY.map fun b => [b]) ∧
      (blobXY.map fun b => [b]).flatten = blobOf (smallAlphabet []).cfg [entryXY] ∧
      StopsAfter (smallAlphabet []).cfg (blobXY.map BitVec.toNat) [] (streamOf (blobXY ++ [128])) ∧
      StopsAfter (smallAlphabet []).cfg (blobXY.map BitVec.toNat) [] (streamOf (blobXY ++ [255]))) ∧
      Spells (reading [0x10, 0x00] 0).cfg [] [] ∧ ([] : List Bytes).flatten = blobOf Config.standard [] ∧
      StopsAfter Config.standard [] (List.replicate 4 false) (streamOf [0x10, 0x00]) ∧
      Spells (smallAlphabet [255]).cfg [] [] ∧ StopsAfter (smallAlphabet [255]).cfg [] [] (streamOf [255]) :=
  ⟨⟨by decide, spells_bytes _ _ (by decide), by decide +kernel, ⟨128, by decide, .inl rfl, by decide +kernel⟩,
      255, by decide, .inr rfl, by decide +kernel⟩,
    spells_nothing _, rfl, ⟨256, by decide, .inl rfl, by decide⟩, spells_nothing _, 255, by decide, .inr rfl, by decide⟩

/-- After one entry: a byte that is no separator, a separator with nothing after it, a frame without its last byte, and each
separator of the frame another byte; and the same of the first frame, after no entry. The stream of the first case stops at
the sentinel, and another one at its end. -/
theorem witness_ArcUnpackKeepsCompletedEntries :
    (∀ x ∈ [entryXY] ++ [entryXY], x.name.length < 2 ^ 32 ∧ x.content.length < 2 ^ 64) ∧
      (blobXY ++ [0x7F] = if [entryXY] = [] then [] else blobOf (smallAlphabet []).cfg [entryXY] ++
        [separator (smallAlphabet []).cfg]) ∧
      (Spells (smallAlphabet (blobXY ++ [0, 128])).cfg ((blobXY ++ [0]).map BitVec.toNat) ((blobXY ++ [0]).map fun b => [b]) ∧
        StopsAfter (smallAlphabet []).cfg ((blobXY ++ [0]).map BitVec.toNat) [] (streamOf (blobXY ++ [0, 128])) ∧
        StopsAfter (smallAlphabet []).cfg ((blobXY ++ [0]).map BitVec.toNat) [] (streamOf (blobXY ++ [0, 0])) ∧
        (0 : Byte) ≠ separator (smallAlphabet []).cfg ∧
        ((blobXY ++ [0]).map fun b => [b]).flatten = blobOf (smallAlphabet []).cfg [entryXY] ++ (0 : Byte) :: []) ∧
      (blobXY ≠ [] ∧ [] ++ blobXY = frameOf (smallAlphabet []).cfg entryXY ∧
        blobXY.take 16 ++ [0x79] = frameOf (smallAlphabet []).cfg entryXY ∧ [] ++ blobXY.take 16 ≠ []) ∧
      ((0 : Byte) ≠ separator (smallAlphabet []).cfg ∧
        (frameOf (smallAlphabet []).cfg entryXY).take 4 = blobXY.take 4 ∧
        (frameOf (smallAlphabet []).cfg entryXY).take (5 + entryXY.name.length) = blobXY.take 6 ∧
        (frameOf (smallAlphabet []).cfg entryXY).take (14 + entryXY.name.length) = blobXY.take 15) :=
  ⟨by decide, by decide +kernel, ⟨spells_bytes _ _ (by decide), ⟨128, by decide, .inl rfl, by decide +kernel⟩,
      ⟨0, by decide, .inr rfl, by decide +kernel⟩, by decide, by decide +kernel⟩,
    by decide +kernel, by decide +kernel⟩

theorem witness_ArcUnpackLzwStageFails :
    exec .lzwDecompress (reading [0x04, 0x10] 0) = .next (after .lzwDecompress (reading [0x04, 0x10] 0)) ∧
      (after .lzwDecompress (reading [0x04, 0x10] 0)).code = .corruptData := ⟨rfl, by decide +kernel⟩

theorem witness_ArchiveRoundTrip :
    (exec .arcPack (State.reset.withEin twoFiles) = .next (after .arcPack (State.reset.withEin twoFiles)) ∧
      (after .arcPack (State.reset.withEin twoFiles)).code = .ok ∧
      (State.reset.withHost [.loadEin twoFiles, command .arcPack, .loadSrcDst, command .arcUnpack]).host =
        [.loadEin twoFiles, command .arcPack, .loadSrcDst, command .arcUnpack]) ∧
      (after .arcPack (State.reset.withEin [])).code = .ok :=
  ⟨⟨arcPack_next _, by decide +kernel, rfl⟩, by decide +kernel⟩

theorem witness_PseudoCommandsAgree :
    (reading abra 0).src.length ≤ 2 ^ 32 - 1 ∧ (∀ b ∈ (reading abra 0).src, b.toNat < (reading abra 0).cfg.R) := by decide

end Sys2Proof.Tests
end

/-! What a command does and what a host action does, said once (10_state.md, 60_exceptions.md R410 to R412), and the
statements of 10_state.md derived from that. -/

namespace Sys2Proof.Machine

/-! ## The failures of the decoders

Every failure inside a decompress command is reported as `CorruptData` (60_exceptions.md R402). -/

/-- A read that can fail only with a code a decompress command reports as `CorruptData`. -/
def Parse.FailsCorrupt {α : Type} (p : Parse α) : Prop := ∀ e rest, p = .fail e rest → asCorrupt e = .corruptData

theorem Parse.failsCorrupt_ok {α : Type} (a : α) (rest : Bits) : (Parse.ok a rest).FailsCorrupt := nofun

theorem Parse.failsCorrupt_corruptData {α : Type} (rest : Bits) :
    (Parse.fail .corruptData rest : Parse α).FailsCorrupt := by
  rintro _ _ ⟨⟩
  rfl

theorem takeBits_failsCorrupt (n : Nat) (bits : Bits) : (takeBits n bits).FailsCorrupt := by
  rcases takeBits_cases n bits with ⟨_, h⟩ | ⟨_, h⟩ <;> rw [h]
  · exact Parse.failsCorrupt_ok _ _
  · rintro _ _ ⟨⟩
    rfl

theorem Parse.FailsCorrupt.andThen {α β : Type} {p : Parse α} {f : α → Bits → Parse β} (hp : p.FailsCorrupt)
    (hf : ∀ a rest, (f a rest).FailsCorrupt) : (p.andThen f).FailsCorrupt := by
  cases p with
  | ok a rest => exact hf a rest
  | fail e rest =>
    rintro _ _ ⟨⟩
    exact hp e rest rfl

theorem readTrie_failsCorrupt (fuel nodes : Nat) (bits : Bits) : (readTrie fuel nodes bits).FailsCorrupt := by
  induction fuel generalizing nodes bits with
  | zero => exact Parse.failsCorrupt_corruptData _
  | succ fuel ih =>
    unfold readTrie
    split
    · exact Parse.failsCorrupt_corruptData _
    · refine (takeBits_failsCorrupt 1 bits).andThen fun tag bits => ?_
      split
      · exact (takeBits_failsCorrupt 8 bits).andThen fun _ _ => Parse.failsCorrupt_ok _ _
      · exact (ih _ _).andThen fun _ _ => (ih _ _).andThen fun _ _ => Parse.failsCorrupt_ok _ _

theorem walkSymbol_failsCorrupt (t : Trie) (bits : Bits) : (walkSymbol t bits).FailsCorrupt := by
  induction t generalizing bits with
  | leaf s => exact Parse.failsCorrupt_ok _ _
  | internal l r ihl ihr =>
    refine (takeBits_failsCorrupt 1 bits).andThen fun bit bits => ?_
    split
    · exact ihr bits
    · exact ihl bits

/-- A decoder's result whose failure, if it failed, a decompress command reports as `CorruptData`. -/
def DecodeResult.FailsCorrupt (r : DecodeResult) : Prop := ∀ e, r.err = some e → asCorrupt e = .corruptData

theorem DecodeResult.failsCorrupt_success (out : Bytes) (rest : Bits) :
    (⟨out, rest, none⟩ : DecodeResult).FailsCorrupt := nofun

theorem Parse.FailsCorrupt.result {α : Type} {p : Parse α} (hp : p.FailsCorrupt) {e : ResultCode} {rest : Bits}
    (h : p = .fail e rest) (out : Bytes) : (⟨out, rest, some e⟩ : DecodeResult).FailsCorrupt := by
  rintro _ ⟨⟩
  exact hp e rest h

theorem decodeSymbols_failsCorrupt (root : Trie) (n : Nat) (bits : Bits) :
    (decodeSymbols root n bits).FailsCorrupt := by
  induction n generalizing bits with
  | zero => exact DecodeResult.failsCorrupt_success _ _
  | succ n ih =>
    unfold decodeSymbols
    split
    · next h => exact (walkSymbol_failsCorrupt root bits).result h _
    · exact ih _

theorem hufDecode_failsCorrupt (bits : Bits) : (hufDecode bits).FailsCorrupt := by
  unfold hufDecode
  split
  · next h => exact (readTrie_failsCorrupt _ _ _).result h _
  · split
    · next h => exact (takeBits_failsCorrupt _ _).result h _
    · exact decodeSymbols_failsCorrupt _ _ _

theorem lzwLoop_failsCorrupt (cfg : Config) (fuel : Nat) (d : Dict) (prev : Option Bytes) (cw : Nat) (bits : Bits) :
    (lzwLoop cfg fuel d prev cw bits).FailsCorrupt := by
  induction fuel generalizing d prev cw bits with
  | zero => exact DecodeResult.failsCorrupt_success _ _
  | succ fuel ih =>
    unfold lzwLoop
    split
    · exact DecodeResult.failsCorrupt_success _ _
    · split
      · rintro _ ⟨⟩
        rfl
      · split
        · next h => exact (takeBits_failsCorrupt _ _).result h _
        · exact ih _ _ _ _

theorem lzwDecode_failsCorrupt (cfg : Config) (bits : Bits) : (lzwDecode cfg bits).FailsCorrupt := by
  unfold lzwDecode
  split
  · next h => exact (takeBits_failsCorrupt _ _).result h _
  · exact lzwLoop_failsCorrupt _ _ _ _ _ _

/-! ## A codec command as a function of its input

Each of the six ends with a `CodecOutcome` made of its input and the configuration alone (R49); `State.endCodec` is what
that does to the state. -/

/-- The last act of a codec command (60_exceptions.md R402, R412): it gives a length, an encoder refuses its input, or a
decoder finds its input corrupt. -/
inductive CodecEnd where
  | gives (n : Nat)
  | invalid
  | corrupt

/-- The code a codec command ends with. -/
def CodecEnd.code : CodecEnd → ResultCode
  | .gives _ => .ok
  | .invalid => .invalidArgument
  | .corrupt => .corruptData

/-- RES after a codec command, from RES before it. -/
def CodecEnd.res (old : BitVec 64) : CodecEnd → BitVec 64
  | .gives n => lengthValue n
  | .invalid | .corrupt => old

theorem CodecEnd.res_of_code_ne_ok {last : CodecEnd} (h : last.code ≠ .ok) (old : BitVec 64) : last.res old = old := by
  cases last with
  | gives n => exact absurd rfl h
  | invalid => rfl
  | corrupt => rfl

theorem CodecEnd.res_of_code_ok {last : CodecEnd} (h : last.code = .ok) (old old' : BitVec 64) :
    last.res old = last.res old' := by
  cases last with
  | gives n => rfl
  | invalid => cases h
  | corrupt => cases h

/-- What a codec command leaves: where it moves the reader and what it puts in EOUT, if it does; DST; and how it ends. -/
structure CodecOutcome where
  rpos : Option Nat
  dst : Bytes
  eout : Option (List Entry)
  last : CodecEnd

/-- The state after a codec command with this outcome; the writer is left empty. -/
def State.endCodec (o : CodecOutcome) (s : State) : State :=
  { s with rpos := o.rpos.getD s.rpos, dst := o.dst, wacc := 0, wcnt := 0, res := o.last.res s.res, code := o.last.code,
           eout := o.eout.getD s.eout }

/-- The bytes of a run of bits written to an empty DST and flushed. -/
def packBits (bits : Bits) : Bytes := ((⟨[], 0, 0⟩ : Writer).pushBits bits).flush.dst

theorem packBits_writer (bits : Bits) : ((⟨[], 0, 0⟩ : Writer).pushBits bits).flush = ⟨packBits bits, 0, 0⟩ := by
  obtain ⟨bytes, _, h, _⟩ := Writer.packed bits
  rw [packBits, h]

/-- The bits HUF_COMPRESS writes, or none for an input it refuses (42_huffman.md R222). -/
def hufOutput (src : Bytes) : Option Bits := if hufMaxLen < src.length then none else some (hufEncode src)

/-- The bits LZW_COMPRESS writes, or none for an input it refuses (43_lzw.md R266). -/
def lzwOutput (cfg : Config) (src : Bytes) : Option Bits :=
  if inAlphabet cfg src then some (lzwEncode cfg src) else none

/-- The bits ARC_PACK writes, or none for entries it refuses (44_archive.md R311, R314). -/
def packOutput (cfg : Config) (ein : List Entry) : Option Bits :=
  if ein.all entryFits && inAlphabet cfg (blobOf cfg ein) then some (lzwEncode cfg (blobOf cfg ein)) else none

/-- An encoder's outcome: the bits written, or a refusal. -/
def encoderOutcome (rpos : Option Nat) (bits : Option Bits) : CodecOutcome :=
  match bits with
  | some bits => ⟨rpos, packBits bits, none, .gives (packBits bits).length⟩
  | none => ⟨rpos, [], none, .invalid⟩

/-- A decoder's outcome on a SRC of `n` bytes: the bytes decoded, and the reader after the last bit read. -/
def decoderOutcome (n : Nat) (r : DecodeResult) : CodecOutcome :=
  match r.err with
  | none => ⟨some (8 * n - r.rest.length), r.out, none, .gives r.out.length⟩
  | some _ => ⟨some (8 * n - r.rest.length), r.out, none, .corrupt⟩

/-- The outcome of ARC_UNPACK on a SRC of `n` bytes, from what its LZW stage makes of the stream (44_archive.md R320,
R321, R325). -/
def unpackOutcome (cfg : Config) (n : Nat) (r : DecodeResult) : CodecOutcome :=
  match r.err with
  | some _ => ⟨some (8 * n - r.rest.length), [], some [], .corrupt⟩
  | none =>
    ⟨some (8 * n - r.rest.length), [], some (parseBlob cfg r.out).entries,
      if (parseBlob cfg r.out).complete then .gives (parseBlob cfg r.out).entries.length else .corrupt⟩

/-- The outcome of each codec command, from the configuration and its input: SRC, or EIN for ARC_PACK (R49). -/
def codecOutcome (cfg : Config) (src : Bytes) (ein : List Entry) : Instr → Option CodecOutcome
  | .hufCompress => some (encoderOutcome (some (8 * src.length)) (hufOutput src))
  | .hufDecompress => some (decoderOutcome src.length (hufDecode (streamBits src)))
  | .lzwCompress => some (encoderOutcome (some (8 * src.length)) (lzwOutput cfg src))
  | .lzwDecompress => some (decoderOutcome src.length (lzwDecode cfg (streamBits src)))
  | .arcPack => some (encoderOutcome none (packOutput cfg ein))
  | .arcUnpack => some (unpackOutcome cfg src.length (lzwDecode cfg (streamBits src)))
  | .nop | .rdOpen | .rdBit | .rdByte | .rdInt32 | .rdInt64 | .rdBits _ | .rdExhausted => none
  | .wrOpen | .wrBit | .wrByte | .wrInt32 | .wrInt64 | .wrBits _ | .wrFlush => none

/-- An encoder that writes bits to an empty DST ends with their outcome. -/
theorem State.codecDone_writeBitList {s : State} (hw : s.writer = ⟨[], 0, 0⟩) (bits : Bits) :
    (s.writeBitList bits).codecDone = s.endCodec (encoderOutcome none (some bits)) := by
  rw [State.codecDone_of_writer (bytes := packBits bits) (by rw [State.writeBitList_writer, hw, packBits_writer])]
  rfl

/-- An encoder that refuses its input ends with an empty DST. -/
theorem State.codecRaise_invalidArgument {s : State} (hw : s.writer = ⟨[], 0, 0⟩) :
    s.codecRaise .invalidArgument = s.endCodec (encoderOutcome none none) := by
  rw [State.codecRaise_of_writer (bytes := []) _ (by rw [hw, Writer.flush_idle rfl])]
  rfl

theorem State.finishDecode_eq {s : State} (hw : s.writer = ⟨[], 0, 0⟩) {r : DecodeResult} (hr : r.FailsCorrupt) :
    s.finishDecode r = s.endCodec (decoderOutcome s.src.length r) := by
  rcases s.finishDecode_spec hw r with ⟨hn, h⟩ | ⟨e, he, h⟩
  · rw [h, decoderOutcome, hn]
    rfl
  · rw [h, decoderOutcome, he, hr e he]
    rfl

theorem exec_hufCompress (s : State) :
    exec .hufCompress s = .next (s.endCodec (encoderOutcome (some (8 * s.src.length)) (hufOutput s.src))) := by
  simp only [exec, execHufCompress, hufOutput]
  split
  · rw [State.codecRaise_invalidArgument rfl]
    rfl
  · rw [State.codecDone_writeBitList rfl]
    rfl

theorem exec_lzwCompress (s : State) :
    exec .lzwCompress s = .next (s.endCodec (encoderOutcome (some (8 * s.src.length)) (lzwOutput s.cfg s.src))) := by
  simp only [exec, execLzwCompress, lzwOutput]
  split
  · rw [State.codecDone_writeBitList rfl]
    rfl
  · rw [State.codecRaise_invalidArgument rfl]
    rfl

theorem exec_arcPack (s : State) :
    exec .arcPack s = .next (s.endCodec (encoderOutcome none (packOutput s.cfg s.ein))) := by
  simp only [exec, execArcPack, packOutput]
  split
  · rw [State.codecDone_writeBitList rfl]
    rfl
  · rw [State.codecRaise_invalidArgument rfl]
    rfl

theorem exec_hufDecompress (s : State) :
    exec .hufDecompress s = .next (s.endCodec (decoderOutcome s.src.length (hufDecode (streamBits s.src)))) := by
  simp only [exec, execHufDecompress]
  rw [State.finishDecode_eq rfl (hufDecode_failsCorrupt _)]
  unfold decoderOutcome
  split <;> rfl

theorem exec_lzwDecompress (s : State) :
    exec .lzwDecompress s = .next (s.endCodec (decoderOutcome s.src.length (lzwDecode s.cfg (streamBits s.src)))) := by
  simp only [exec, execLzwDecompress]
  rw [State.finishDecode_eq rfl (lzwDecode_failsCorrupt _ _)]
  unfold decoderOutcome
  split <;> rfl

theorem exec_arcUnpack (s : State) :
    exec .arcUnpack s = .next (s.endCodec (unpackOutcome s.cfg s.src.length (lzwDecode s.cfg (streamBits s.src)))) := by
  simp only [exec, execArcUnpack]
  have hr := lzwDecode_failsCorrupt s.cfg (streamBits s.src)
  generalize lzwDecode s.cfg (streamBits s.src) = r at hr
  cases he : r.err with
  | some e =>
    simp only [unpackOutcome, he]
    rw [hr e he, State.codecRaise_of_writer (bytes := []) _ rfl]
    rfl
  | none =>
    simp only [unpackOutcome, he]
    rw [State.finishUnpack_spec _ rfl]
    split <;> rfl

/-- A codec command is its outcome, which its input and the configuration determine (R49). -/
theorem exec_codec {i : Instr} {s : State} {o : CodecOutcome} (h : codecOutcome s.cfg s.src s.ein i = some o) :
    exec i s = .next (s.endCodec o) := by
  cases i <;> cases h
  case hufCompress => exact exec_hufCompress s
  case hufDecompress => exact exec_hufDecompress s
  case lzwCompress => exact exec_lzwCompress s
  case lzwDecompress => exact exec_lzwDecompress s
  case arcPack => exact exec_arcPack s
  case arcUnpack => exact exec_arcUnpack s

theorem codecOutcome_of_isCodec {i : Instr} (h : isCodec i = true) (cfg : Config) (src : Bytes) (ein : List Entry) :
    ∃ o, codecOutcome cfg src ein i = some o := by
  cases i <;> cases h <;> exact ⟨_, rfl⟩

@[simp] theorem encoderOutcome_rpos (p : Option Nat) (bits : Option Bits) : (encoderOutcome p bits).rpos = p := by
  cases bits <;> rfl

@[simp] theorem decoderOutcome_rpos (n : Nat) (r : DecodeResult) :
    (decoderOutcome n r).rpos = some (8 * n - r.rest.length) := by
  unfold decoderOutcome
  split <;> rfl

@[simp] theorem unpackOutcome_rpos (cfg : Config) (n : Nat) (r : DecodeResult) :
    (unpackOutcome cfg n r).rpos = some (8 * n - r.rest.length) := by
  unfold unpackOutcome
  split <;> rfl

theorem unpackOutcome_eout (cfg : Config) (n : Nat) (r : DecodeResult) :
    ∃ es, (unpackOutcome cfg n r).eout = some es := by
  unfold unpackOutcome
  split <;> exact ⟨_, rfl⟩

theorem State.endCodec_rpos {o : CodecOutcome} {p : Nat} (h : o.rpos = some p) (s : State) :
    (s.endCodec o).rpos = p := by
  simp only [State.endCodec, h, Option.getD_some]

theorem State.endCodec_eout {o : CodecOutcome} {es : List Entry} (h : o.eout = some es) (s : State) :
    (s.endCodec o).eout = es := by
  simp only [State.endCodec, h, Option.getD_some]

/-- ARC_PACK leaves the reader; every other codec command moves it, and not past the end of SRC. -/
theorem codecOutcome_rpos {cfg : Config} {src : Bytes} {ein : List Entry} {i : Instr} {o : CodecOutcome}
    (h : codecOutcome cfg src ein i = some o) :
    (i = .arcPack ∧ o.rpos = none) ∨ ∃ p ≤ 8 * src.length, o.rpos = some p := by
  cases i <;> cases h
  case arcPack => exact .inl ⟨rfl, encoderOutcome_rpos _ _⟩
  case hufCompress | lzwCompress => exact .inr ⟨_, Nat.le_refl _, encoderOutcome_rpos _ _⟩
  case hufDecompress | lzwDecompress => exact .inr ⟨_, Nat.sub_le _ _, decoderOutcome_rpos _ _⟩
  case arcUnpack => exact .inr ⟨_, Nat.sub_le _ _, unpackOutcome_rpos _ _ _⟩

/-- The outcome of ARC_PACK depends on EIN alone, and that of every other codec command on SRC alone. -/
theorem codecOutcome_congr {cfg : Config} {src src' : Bytes} {ein ein' : List Entry} {i : Instr}
    (h : if i = .arcPack then ein = ein' else src = src') :
    codecOutcome cfg src ein i = codecOutcome cfg src' ein' i := by
  by_cases hi : i = .arcPack
  · subst hi
    cases (if_pos rfl).mp h
    rfl
  · rw [if_neg hi] at h
    subst h
    cases i with
    | arcPack => exact absurd rfl hi
    | _ => rfl

/-! ## Everything a command can do -/

/-- The forms in which a command leaves the state `s`. -/
inductive CommandEnds (s : State) : State → Prop where
  /-- only the code, OK: NOP -/
  | done : CommandEnds s s.done
  /-- a width or an ARG refused -/
  | refused : CommandEnds s (s.raise .invalidArgument)
  /-- RD_OPEN -/
  | rewound : CommandEnds s s.openReader.done
  /-- a read of `n` bits -/
  | read (n : Nat) : CommandEnds s (s.readToRes n)
  /-- RD_EXHAUSTED -/
  | told (v : BitVec 64) : CommandEnds s (s.withRes v).done
  /-- bits written, the writer flushed or opened -/
  | wrote (w : Writer) (hw : s.writer.Wf → w.Wf) : CommandEnds s (s.withWriter w).done
  /-- a codec command -/
  | codec (o : CodecOutcome) (ho : o.rpos.getD s.rpos ≤ max s.rpos (8 * s.src.length)) : CommandEnds s (s.endCodec o)

theorem CommandEnds.writeBits (v n : Nat) (s : State) : CommandEnds s (s.writeBits v n).done :=
  .wrote (s.writer.pushBits (bitsOf n v)) fun h => Writer.pushBits_wf h _

theorem CommandEnds.writeArg (n : Nat) (s : State) : CommandEnds s (s.writeArg n) := by
  unfold State.writeArg
  split
  · exact .writeBits _ _ s
  · exact .refused

theorem exec_rdBits_legal {w : Nat} (h : widthLegal w = true) (s : State) :
    exec (.rdBits w) s = .next (s.readToRes w) := if_pos h

theorem exec_rdBits_illegal {w : Nat} (h : ¬ widthLegal w = true) (s : State) :
    exec (.rdBits w) s = .next (s.raise .invalidArgument) := if_neg h

theorem exec_wrBits_legal {w : Nat} (h : widthLegal w = true) (s : State) :
    exec (.wrBits w) s = .next (s.writeArg w) := if_pos h

theorem exec_wrBits_illegal {w : Nat} (h : ¬ widthLegal w = true) (s : State) :
    exec (.wrBits w) s = .next (s.raise .invalidArgument) := if_neg h

/-- Everything a command can do: in every state it answers a next state, in one of these forms. -/
theorem exec_ends (i : Instr) (s : State) : ∃ t, exec i s = .next t ∧ CommandEnds s t := by
  by_cases hc : isCodec i = true
  · obtain ⟨o, ho⟩ := codecOutcome_of_isCodec hc s.cfg s.src s.ein
    refine ⟨_, exec_codec ho, .codec o ?_⟩
    rcases codecOutcome_rpos ho with ⟨_, hp⟩ | ⟨p, hle, hp⟩ <;> rw [hp]
    · exact Nat.le_max_left _ _
    · exact hle.trans (Nat.le_max_right _ _)
  cases i with
  | nop => exact ⟨_, rfl, .done⟩
  | rdOpen => exact ⟨_, rfl, .rewound⟩
  | rdBit => exact ⟨_, rfl, .read 1⟩
  | rdByte => exact ⟨_, rfl, .read 8⟩
  | rdInt32 => exact ⟨_, rfl, .read 32⟩
  | rdInt64 => exact ⟨_, rfl, .read 64⟩
  | rdBits w =>
    by_cases hl : widthLegal w = true
    · exact ⟨_, exec_rdBits_legal hl s, .read w⟩
    · exact ⟨_, exec_rdBits_illegal hl s, .refused⟩
  | rdExhausted => exact ⟨_, rfl, .told _⟩
  | wrOpen => exact ⟨_, rfl, .wrote ⟨[], 0, 0⟩ fun _ => Writer.empty_wf⟩
  | wrBit => exact ⟨_, rfl, .writeArg 1 s⟩
  | wrByte => exact ⟨_, rfl, .writeArg 8 s⟩
  | wrInt32 => exact ⟨_, rfl, .writeArg 32 s⟩
  | wrInt64 => exact ⟨_, rfl, .writeBits _ 64 s⟩
  | wrBits w =>
    by_cases hl : widthLegal w = true
    · exact ⟨_, exec_wrBits_legal hl s, .writeArg w s⟩
    · exact ⟨_, exec_wrBits_illegal hl s, .refused⟩
  | wrFlush => exact ⟨_, rfl, .wrote s.writer.flush Writer.flush_wf⟩
  | hufCompress | hufDecompress | lzwCompress | lzwDecompress | arcPack | arcUnpack => exact absurd rfl hc

theorem exec_cases {i : Instr} {s t : State} (h : exec i s = .next t) : CommandEnds s t := by
  obtain ⟨t', h', hends⟩ := exec_ends i s
  cases h.symm.trans h'
  exact hends

/-- Everything a read command's end can be. -/
theorem State.readToRes_cases (n : Nat) (s : State) :
    (n ≤ s.unread.length ∧
        s.readToRes n = ((s.withRpos (s.rpos + n)).withRes (BitVec.ofNat 64 (bitsVal (s.unread.take n)))).done) ∨
      (s.unread.length < n ∧ s.readToRes n = (s.withRpos (8 * s.src.length)).raise .endOfStream) := by
  rw [State.readToRes, State.readBits]
  rcases takeBits_cases n s.unread with ⟨hn, h⟩ | ⟨hn, h⟩ <;> rw [h]
  · exact .inl ⟨hn, rfl⟩
  · exact .inr ⟨hn, rfl⟩

/-- What no command writes: ARG, SRC, EIN, CMD, the configuration and the model's record of the host. -/
def SameInputs (s t : State) : Prop :=
  t.arg = s.arg ∧ t.src = s.src ∧ t.ein = s.ein ∧ t.cmd = s.cmd ∧ t.cfg = s.cfg ∧ t.host = s.host ∧
    t.returned = s.returned

theorem CommandEnds.sameInputs {s t : State} (h : CommandEnds s t) : SameInputs s t := by
  cases h with
  | read n =>
    obtain ⟨v, p, e, h⟩ := s.readToRes_frame n
    rw [h]
    exact ⟨rfl, rfl, rfl, rfl, rfl, rfl, rfl⟩
  | done | refused | rewound | told v | wrote w hw | codec o ho => exact ⟨rfl, rfl, rfl, rfl, rfl, rfl, rfl⟩

/-- A command that ends with a failure leaves RES (60_exceptions.md R411). -/
theorem CommandEnds.res_of_failure {s t : State} (h : CommandEnds s t) (hc : t.code ≠ .ok) : t.res = s.res := by
  cases h with
  | done | refused | rewound | wrote w hw => rfl
  | told v => exact absurd rfl hc
  | read n =>
    rcases s.readToRes_cases n with ⟨_, h⟩ | ⟨_, h⟩ <;> rw [h] at hc ⊢
    · exact absurd rfl hc
    · rfl
  | codec o ho => exact CodecEnd.res_of_code_ne_ok hc s.res

theorem CommandEnds.inv {s t : State} (h : CommandEnds s t) (hs : s.Inv) : t.Inv := by
  obtain ⟨hr, hw⟩ := s.inv_iff.mp hs
  cases h with
  | done | refused | told v => exact hs
  | rewound => exact ⟨Nat.zero_le _, hw⟩
  | read n =>
    rcases s.readToRes_cases n with ⟨hn, h⟩ | ⟨_, h⟩ <;> rw [h]
    · rw [State.unread_length] at hn
      exact ⟨show s.rpos + n ≤ 8 * s.src.length by omega, hw⟩
    · exact ⟨Nat.le_refl _, hw⟩
  | wrote w hw' => exact ⟨hr, hw' hw⟩
  | codec o ho =>
    rw [max_eq_right hr] at ho
    exact ⟨ho, by simp [State.endCodec]⟩

/-! ## What a command does not depend on -/

theorem State.readToRes_withArg (n : Nat) (v : BitVec 64) (s : State) :
    (s.withArg v).readToRes n = (s.readToRes n).withArg v := by
  simp only [State.readToRes, State.readBits, show (s.withArg v).unread = s.unread from rfl]
  cases takeBits n s.unread <;> rfl

/-- Another ARG changes nothing of what a command that is no write command does (10_state.md R34). -/
theorem exec_withArg {i : Instr} {s t : State} (h : exec i s = .next t)
    (hw : i ∉ [.wrBit, .wrByte, .wrInt32, .wrInt64])
    (hwb : ∀ w, i ≠ .wrBits w) (v : BitVec 64) : exec i (s.withArg v) = .next (t.withArg v) := by
  by_cases hc : isCodec i = true
  · obtain ⟨o, ho⟩ := codecOutcome_of_isCodec hc s.cfg s.src s.ein
    cases h.symm.trans (exec_codec ho)
    exact exec_codec (s := s.withArg v) ho
  cases i with
  | nop | rdOpen | rdExhausted | wrOpen | wrFlush =>
    cases h
    rfl
  | rdBit | rdByte | rdInt32 | rdInt64 =>
    cases h
    exact congrArg _ (State.readToRes_withArg _ v s)
  | rdBits w =>
    by_cases hl : widthLegal w = true
    · rw [exec_rdBits_legal hl] at h ⊢
      cases h
      exact congrArg _ (State.readToRes_withArg w v s)
    · rw [exec_rdBits_illegal hl] at h ⊢
      cases h
      rfl
  | wrBit | wrByte | wrInt32 | wrInt64 => simp at hw
  | wrBits w => exact absurd rfl (hwb w)
  | hufCompress | hufDecompress | lzwCompress | lzwDecompress | arcPack | arcUnpack => exact absurd rfl hc

theorem State.writeArg_res (n : Nat) (s : State) : (s.writeArg n).res = s.res := by
  obtain ⟨_, _, _, _, h⟩ := s.writeArg_frame n
  rw [h]

theorem State.writeBits_done_res (v n : Nat) (s : State) : (s.writeBits v n).done.res = s.res := rfl

/-- The commands that have no result (10_state.md R35). -/
theorem exec_res_of_no_result {i : Instr} {s t : State} (h : exec i s = .next t)
    (hi : i ∈ [.nop, .rdOpen, .wrOpen, .wrBit, .wrByte, .wrInt32, .wrInt64, .wrFlush] ∨ ∃ w, i = .wrBits w) :
    t.res = s.res := by
  cases i with
  | nop | rdOpen | wrOpen | wrFlush =>
    cases h
    rfl
  | wrInt64 =>
    cases h
    exact s.writeBits_done_res _ 64
  | wrBit | wrByte | wrInt32 =>
    cases h
    exact s.writeArg_res _
  | wrBits w =>
    by_cases hl : widthLegal w = true
    · cases (exec_wrBits_legal hl s).symm.trans h
      exact s.writeArg_res w
    · cases (exec_wrBits_illegal hl s).symm.trans h
      rfl
  | rdBit | rdByte | rdInt32 | rdInt64 | rdBits | rdExhausted | hufCompress | hufDecompress | lzwCompress | lzwDecompress
    | arcPack | arcUnpack => simp at hi

/-! ## Host actions and steps -/

theorem step_idle {s : State} (h : s.host = []) : step s = .next s := by
  simp only [step, takeHostAction, h]

theorem step_action {s : State} {a : HostAction} {rest : List HostAction} (h : s.host = a :: rest) :
    step s = hostAct a (s.withHost rest) := by
  simp only [step, takeHostAction, h]

theorem runCommand_instr {c : CmdWord} {i : Instr} (h : decode c = .instr i) (s : State) :
    runCommand c s = exec i (s.withCmd c) := by
  simp only [runCommand, h]

theorem runCommand_illegal {c : CmdWord} {why : IllegalWord} (h : decode c = .illegal why) (s : State) :
    runCommand c s = .next (illegalResponse (s.withCmd c)) := by
  simp only [runCommand, h]

/-- Everything a write to CMD can do. -/
theorem runCommand_cases {c : CmdWord} {s t : State} (h : runCommand c s = .next t) :
    CommandEnds (s.withCmd c) t ∨ t = illegalResponse (s.withCmd c) := by
  cases hd : decode c with
  | instr i =>
    rw [runCommand_instr hd] at h
    exact .inl (exec_cases h)
  | illegal why =>
    rw [runCommand_illegal hd] at h
    cases h
    exact .inr rfl

theorem hostAct_cfg_host {a : HostAction} {s t : State} (h : hostAct a s = .next t) :
    t.cfg = s.cfg ∧ t.host = s.host := by
  cases a with
  | writeCmd c =>
    rcases runCommand_cases h with h | rfl
    · obtain ⟨_, _, _, _, hcfg, hhost, _⟩ := h.sameInputs
      exact ⟨hcfg, hhost⟩
    · exact ⟨rfl, rfl⟩
  | reset | setArg | loadSrc | loadSrcDst | loadEin | writeReadOnly | readReg | readDst | readEout =>
    cases h
    exact ⟨rfl, rfl⟩

theorem resetOf_inv (cfg : Config) : (State.resetOf cfg).Inv := by simp [State.Inv, State.resetOf]

theorem hostAct_inv {a : HostAction} {s t : State} (hs : s.Inv) (h : hostAct a s = .next t) : t.Inv := by
  cases a with
  | reset =>
    cases h
    exact resetOf_inv s.cfg
  | loadSrc | loadSrcDst =>
    cases h
    exact ⟨Nat.zero_le _, hs.2⟩
  | writeCmd c =>
    rcases runCommand_cases h with h | rfl
    · exact h.inv hs
    · exact hs
  | setArg | loadEin | writeReadOnly | readReg | readDst | readEout =>
    cases h
    exact hs

/-! ## STATUS as a number -/

theorem toNat_append_eq_add {m n : Nat} (x : BitVec m) (y : BitVec n) :
    (x ++ y).toNat = x.toNat * 2 ^ n + y.toNat := by
  rw [BitVec.toNat_append, ← Nat.shiftLeft_add_eq_or_of_lt y.isLt, Nat.shiftLeft_eq]

/-- The numbers of the result codes (60_exceptions.md R401). -/
theorem ResultCode.number_mem (e : ResultCode) :
    (e, e.toBits.toNat) ∈ [(ResultCode.ok, 0), (.notFound, 1), (.alreadyExists, 2), (.isADirectory, 3),
      (.invalidArgument, 4), (.endOfStream, 5), (.corruptData, 6), (.ioError, 7), (.illegalCommand, 8)] := by
  cases e <;> decide

theorem State.exhausted_iff {s : State} (h : s.Inv) : s.exhausted = true ↔ s.rpos = 8 * s.src.length := by
  obtain ⟨hr, _⟩ := h
  rw [State.exhausted, decide_eq_true_eq]
  omega

/-- The fields of STATUS in their places (10_state.md R36). -/
theorem State.statusWord_toNat {s : State} (h : s.Inv) :
    s.statusWord.toNat =
      s.code.toBits.toNat + 2 ^ 4 * s.wcnt + 2 ^ 7 * (if s.rpos = 8 * s.src.length then 1 else 0) := by
  have hx := State.exhausted_iff h
  obtain ⟨_, hc, _⟩ := h
  have hw : s.wcnt % 2 ^ 3 = s.wcnt := Nat.mod_eq_of_lt hc
  simp only [State.statusWord, toNat_append_eq_add, BitVec.toNat_ofNat, hw, ← hx, BitVec.toNat_ofBool]
  cases s.exhausted <;> simp <;> omega

theorem cfgRValue_toNat (cfg : Config) : (cfgRValue cfg).toNat = cfg.R := by
  obtain ⟨⟨_, hR⟩, _⟩ := cfg.legal
  rw [cfgRValue, BitVec.toNat_ofNat, Nat.mod_eq_of_lt (by omega)]

theorem cfgLValue_toNat {cfg : Config} (h : cfg.L < 2 ^ 32) : (cfgLValue cfg).toNat = cfg.L := by
  rw [cfgLValue, if_pos h, BitVec.toNat_ofNat, Nat.mod_eq_of_lt h]

theorem cfgWValue_toNat (cfg : Config) : (cfgWValue cfg).toNat = cfg.W := by
  obtain ⟨_, _, _, hW⟩ := cfg.legal
  rw [cfgWValue, BitVec.toNat_ofNat, Nat.mod_eq_of_lt (by omega)]

/-! ## The insertions into the dictionary -/

theorem encoderInsert_keeps {cfg : Config} {d : Dict} (h : d.Wf cfg) {data : Bytes} {t : Nat}
    (ht : t ≤ d.next - cfg.R) :
    (encoderInsert cfg d data t).Wf cfg ∧ d.next ≤ (encoderInsert cfg d data t).next := by
  unfold encoderInsert
  split
  · next hcond =>
    obtain ⟨hlt, hroom⟩ := Bool.and_eq_true_iff.mp hcond
    have hlen : (data.take (t + 1)).length = t + 1 := List.length_take_of_le (of_decide_eq_true hlt)
    exact ⟨Dict.add_wf h hroom (by omega) (by omega), Nat.le_succ _⟩
  · exact ⟨h, Nat.le_refl _⟩

theorem decoderInsert_keeps {cfg : Config} {d : Dict} (h : d.Wf cfg) {p : Bytes} (hp : 1 ≤ p.length)
    (hle : p.length ≤ d.next - cfg.R) (s : Bytes) :
    (decoderInsert cfg d (some p) s).Wf cfg ∧ d.next ≤ (decoderInsert cfg d (some p) s).next := by
  unfold decoderInsert
  split
  · exact ⟨h, Nat.le_refl _⟩
  · next q hq =>
    cases hq
    split
    · next hroom =>
      have hlen : (p ++ s.take 1).length ≤ p.length + 1 := by simp
      have hpos : p.length ≤ (p ++ s.take 1).length := by simp
      exact ⟨Dict.add_wf h hroom (by omega) (by omega), Nat.le_succ _⟩
    · exact ⟨h, Nat.le_refl _⟩

/-! ## The statements -/

/-- Settles O11: a step takes a host action or none, and a command ends in one of the forms of `CommandEnds`. -/
theorem stepKeepsInvariant : Obligations.StepKeepsInvariant := by
  intro s t hs h
  cases hh : s.host with
  | nil =>
    cases (step_idle hh).symm.trans h
    exact hs
  | cons a rest =>
    rw [step_action hh] at h
    exact hostAct_inv (s := s.withHost rest) hs h

/-- Settles O13: neither a host action nor the command it starts writes the configuration or the actions pending. -/
theorem stepKeepsConfigAndActions : Obligations.StepKeepsConfigAndActions := by
  refine fun s => ⟨step_idle, fun t h => ?_⟩
  cases hh : s.host with
  | nil =>
    cases (step_idle hh).symm.trans h
    exact ⟨rfl, hh⟩
  | cons a rest =>
    rw [step_action hh] at h
    exact hostAct_cfg_host h

/-- Settles O16, from the forms of `CommandEnds`. -/
theorem resultKeptOnFailure : Obligations.ResultKeptOnFailure :=
  fun _ _ _ h => ⟨(exec_cases h).res_of_failure, exec_res_of_no_result h⟩

/-- Settles O17: the inputs are kept in each form of `CommandEnds`, and only a write command looks at ARG. -/
theorem commandsNeverWriteTheirInputs : Obligations.CommandsNeverWriteTheirInputs :=
  fun _ _ _ h => ⟨(exec_cases h).sameInputs, exec_withArg h⟩

/-- Settles O19: both runs end with the one outcome their input determines. -/
theorem codecDependsOnlyOnItsInput : Obligations.CodecDependsOnlyOnItsInput := by
  intro i s s' t t' hi h h' hcfg hin
  obtain ⟨o, ho⟩ := codecOutcome_of_isCodec hi s.cfg s.src s.ein
  have ho' : codecOutcome s'.cfg s'.src s'.ein i = some o := by rw [← hcfg, ← codecOutcome_congr hin, ho]
  cases h.symm.trans (exec_codec ho)
  cases h'.symm.trans (exec_codec ho')
  refine ⟨rfl, rfl, rfl, rfl, fun hne => ?_, fun hok => CodecEnd.res_of_code_ok hok _ _, ?_⟩
  · obtain ⟨_, _, hp⟩ := (codecOutcome_rpos ho).resolve_left fun hpack => hne hpack.1
    rw [State.endCodec_rpos hp, State.endCodec_rpos hp]
  · rintro rfl
    cases ho
    obtain ⟨_, he⟩ := unpackOutcome_eout s.cfg s.src.length (lzwDecode s.cfg (streamBits s.src))
    rw [State.endCodec_eout he, State.endCodec_eout he]

/-- Settles O40: both insertions add, if anything, one string at most one byte longer than `NEXT - R`. -/
theorem dictionaryFormKept : Obligations.DictionaryFormKept := by
  refine fun cfg => ⟨seedDict_wf, fun d data e hd he => ?_, fun d p s hd hp hle _ => ?_, fun d hd e he => ?_⟩
  · exact encoderInsert_keeps hd (hd.strings e he).2
  · exact decoderInsert_keeps hd hp hle s
  · exact (hd.strings e he).2.trans (Nat.sub_le_sub_right hd.next_high _)

/-- Settles O5. -/
theorem stepRunsTheDecodedCommand : Obligations.StepRunsTheDecodedCommand := by
  refine ⟨fun s c rest hh => ⟨fun i hd => ?_, fun why hd => ?_⟩, fun s => ?_, rfl, by decide⟩
  · exact (step_action hh).trans (runCommand_instr hd _)
  · exact (step_action hh).trans (runCommand_illegal hd _)
  · exact BitVec.setWidth_setWidth_of_le s.cmd (by decide)

/-- Settles O8. -/
theorem readsAndIgnoredWritesHaveNoEffect : Obligations.ReadsAndIgnoredWritesHaveNoEffect :=
  fun _ _ => ⟨fun _ _ => step_action, step_action, fun _ => step_action, step_action, step_action⟩

/-- Settles O9. -/
theorem registerValuesTheHostReads : Obligations.RegisterValuesTheHostReads := by
  refine fun s h => ⟨⟨_, s.code.number_mem, State.statusWord_toNat h⟩, BitVec.toNat_setWidth_of_le (by decide),
    BitVec.toNat_setWidth_of_le (by decide), rfl, rfl, ?_, fun hL => ?_, ?_⟩
  · exact (BitVec.toNat_setWidth_of_le (by decide)).trans (cfgRValue_toNat _)
  · exact (BitVec.toNat_setWidth_of_le (by decide)).trans (cfgLValue_toNat hL)
  · exact (BitVec.toNat_setWidth_of_le (by decide)).trans (cfgWValue_toNat _)

/-- Settles O12. -/
theorem resetHasInvariant : Obligations.ResetHasInvariant := ⟨resetOf_inv _, resetOf_inv⟩

end Sys2Proof.Machine

/-! Reads and writes of mixed widths (20_memory.md R71, R75): how two reads, or two writes, in a row compose, and the
statement derived from that. -/

namespace Sys2Proof.Machine

/-! ## Reads in a row -/

/-- After `n` bits were consumed the rest of the stream is unread (10_state.md R40). -/
theorem State.unread_withRpos_add (s : State) (n : Nat) : (s.withRpos (s.rpos + n)).unread = s.unread.drop n := by
  rw [State.unread, State.unread, State.withRpos_src, State.withRpos_rpos, List.drop_drop]

/-- When a read succeeds, and with what value and what state (40_reader.md R151). -/
theorem State.readBits_eq_some_iff {n x : Nat} {s t : State} :
    s.readBits n = (some x, t) ↔
      n ≤ s.unread.length ∧ bitsVal (s.unread.take n) = x ∧ s.withRpos (s.rpos + n) = t := by
  rw [State.readBits]
  rcases takeBits_cases n s.unread with ⟨hn, h⟩ | ⟨hn, h⟩ <;> rw [h]
  · simp only [Prod.mk.injEq, Option.some.injEq, hn, true_and]
  · simp only [Prod.mk.injEq, reduceCtorEq, false_and, false_iff, not_and]
    omega

/-- The value of a longer field is that of its two parts, the first part the more significant (20_memory.md R71). -/
theorem bitsVal_take_add {a b : Nat} {bits : Bits} (h : b ≤ (bits.drop a).length) :
    bitsVal (bits.take (a + b)) = bitsVal (bits.take a) * 2 ^ b + bitsVal ((bits.drop a).take b) := by
  rw [List.take_add, bitsVal_append, List.length_take_of_le h]

/-- Two reads that succeed in a row are one read of both widths, and leave the same state. -/
theorem State.readBits_add {a b x y : Nat} {s t u : State} (hx : s.readBits a = (some x, t))
    (hy : t.readBits b = (some y, u)) : s.readBits (a + b) = (some (x * 2 ^ b + y), u) := by
  obtain ⟨ha, rfl, rfl⟩ := State.readBits_eq_some_iff.mp hx
  obtain ⟨hb, rfl, rfl⟩ := State.readBits_eq_some_iff.mp hy
  rw [State.unread_withRpos_add] at hb ⊢
  refine State.readBits_eq_some_iff.mpr ⟨?_, bitsVal_take_add hb, ?_⟩
  · rw [List.length_drop] at hb
    omega
  · rw [← Nat.add_assoc]
    rfl

/-- With `n + m` bits left a read of `n` bits succeeds and leaves `m`. -/
theorem State.exists_readBits {n m : Nat} {s : State} (h : s.rpos + (n + m) ≤ 8 * s.src.length) :
    ∃ x t, s.readBits n = (some x, t) ∧ t.rpos + m ≤ 8 * t.src.length :=
  ⟨_, _, State.readBits_ok (by omega), by rw [State.withRpos_rpos, State.withRpos_src]; omega⟩

/-- Two reads, and the one they make up. -/
theorem State.exists_readBits_add {a b : Nat} {s : State} (h : s.rpos + (a + b) ≤ 8 * s.src.length) :
    ∃ x y t u, s.readBits a = (some x, t) ∧ t.readBits b = (some y, u) ∧
      s.readBits (a + b) = (some (x * 2 ^ b + y), u) := by
  obtain ⟨x, t, hx, ht⟩ := State.exists_readBits h
  obtain ⟨y, u, hy, _⟩ := State.exists_readBits (m := 0) ht
  exact ⟨x, y, t, u, hx, hy, State.readBits_add hx hy⟩

/-- Four byte reads, and the 32-bit read they make up, the first byte the most significant (20_memory.md R75). -/
theorem State.exists_readBits_bytes {s : State} (h : s.rpos + 32 ≤ 8 * s.src.length) :
    ∃ b₀ b₁ b₂ b₃ t₀ t₁ t₂ u, s.readBits 8 = (some b₀, t₀) ∧ t₀.readBits 8 = (some b₁, t₁) ∧
      t₁.readBits 8 = (some b₂, t₂) ∧ t₂.readBits 8 = (some b₃, u) ∧
      s.readBits 32 = (some (b₀ * 2 ^ 24 + b₁ * 2 ^ 16 + b₂ * 2 ^ 8 + b₃), u) := by
  obtain ⟨b₀, t₀, h₀, l₀⟩ := State.exists_readBits (n := 8) (m := 24) h
  obtain ⟨b₁, t₁, h₁, l₁⟩ := State.exists_readBits (n := 8) (m := 16) l₀
  obtain ⟨b₂, b₃, t₂, u, h₂, h₃, _⟩ := State.exists_readBits_add (a := 8) (b := 8) l₁
  have h32 := State.readBits_add (State.readBits_add (State.readBits_add h₀ h₁) h₂) h₃
  have hval : ((b₀ * 2 ^ 8 + b₁) * 2 ^ 8 + b₂) * 2 ^ 8 + b₃ = b₀ * 2 ^ 24 + b₁ * 2 ^ 16 + b₂ * 2 ^ 8 + b₃ := by omega
  exact ⟨b₀, b₁, b₂, b₃, t₀, t₁, t₂, u, h₀, h₁, h₂, h₃, hval ▸ h32⟩

/-! ## Writes in a row -/

/-- Two writes in a row are one write of both widths (41_writer.md R181). The first value needs no bound: the same low
bits of it are written either way. -/
theorem State.writeBits_writeBits {b y : Nat} (hy : y < 2 ^ b) (a x : Nat) (s : State) :
    (s.writeBits x a).writeBits y b = s.writeBits (x * 2 ^ b + y) (a + b) := by
  rw [State.writeBits, State.writeBits, State.writeBits, bitsOf_add a b x y hy, State.writeBitList_append]

/-! ## The statement -/

/-- Settles O25: reads compose by `State.readBits_add` and writes by `State.writeBits_writeBits`. -/
theorem splitReadsAndWritesAgree : Obligations.SplitReadsAndWritesAgree :=
  ⟨fun _ _ _ _ _ _ h => State.exists_readBits_add h, fun _ h => State.exists_readBits_bytes h,
    fun s a _ x _ _ _ _ _ hy => State.writeBits_writeBits hy a x s⟩

end Sys2Proof.Machine

/-! The decoder and the encoder (30_encoding.md R100 to R106): the opcode map said once as an equivalence, and the
statements derived from it. -/

namespace Sys2Proof.Machine

/-! ## The opcode map -/

theorem decodePlain_eq_instr {i j : Instr} {w : Nat} : decodePlain i w = .instr j ↔ i = j ∧ w = 0 := by
  unfold decodePlain
  split <;> simp [*]

/-- The opcode map in both directions: a pair of fields decodes to a command exactly when they are the command's own
(30_encoding.md R103, R104). -/
theorem decodeOpcode_eq_instr {op w : Nat} {i : Instr} :
    decodeOpcode op w = .instr i ↔ opcodeOf i = op ∧ widthOf i = w := by
  constructor
  · intro h
    unfold decodeOpcode at h
    split at h
    -- The two width commands carry the width, the last arm is no command, and the others ask for width 0.
    case h_7 | h_14 =>
      cases h
      exact ⟨rfl, rfl⟩
    case h_22 => cases h
    all_goals
      obtain ⟨rfl, rfl⟩ := decodePlain_eq_instr.mp h
      exact ⟨rfl, rfl⟩
  · rintro ⟨rfl, rfl⟩
    cases i <;> rfl

theorem decode_eq_instr {c : CmdWord} {i : Instr} :
    decode c = .instr i ↔ reservedField c = 0 ∧ opcodeOf i = opcodeField c ∧ widthOf i = widthField c := by
  unfold decode
  split
  · simp [*]
  · next h => simp [decodeOpcode_eq_instr, not_not.mp h]

theorem exists_decode_eq_illegal {c : CmdWord} : (∃ why, decode c = .illegal why) ↔ ∀ i, decode c ≠ .instr i := by
  cases decode c <;> simp

/-! ## Commands and their words -/

/-- The word of a well-formed command holds its fields: the per-command facts of Laws/PerInstr together. -/
theorem encode_fields (i : Instr) : Laws.EncodeFields.Statement i := by
  cases i with
  | nop => exact Laws.EncodeFields.nop
  | rdOpen => exact Laws.EncodeFields.rdOpen
  | rdBit => exact Laws.EncodeFields.rdBit
  | rdByte => exact Laws.EncodeFields.rdByte
  | rdInt32 => exact Laws.EncodeFields.rdInt32
  | rdInt64 => exact Laws.EncodeFields.rdInt64
  | rdBits w => exact Laws.EncodeFields.rdBits w
  | rdExhausted => exact Laws.EncodeFields.rdExhausted
  | wrOpen => exact Laws.EncodeFields.wrOpen
  | wrBit => exact Laws.EncodeFields.wrBit
  | wrByte => exact Laws.EncodeFields.wrByte
  | wrInt32 => exact Laws.EncodeFields.wrInt32
  | wrInt64 => exact Laws.EncodeFields.wrInt64
  | wrBits w => exact Laws.EncodeFields.wrBits w
  | wrFlush => exact Laws.EncodeFields.wrFlush
  | hufCompress => exact Laws.EncodeFields.hufCompress
  | hufDecompress => exact Laws.EncodeFields.hufDecompress
  | lzwCompress => exact Laws.EncodeFields.lzwCompress
  | lzwDecompress => exact Laws.EncodeFields.lzwDecompress
  | arcPack => exact Laws.EncodeFields.arcPack
  | arcUnpack => exact Laws.EncodeFields.arcUnpack

theorem encode_rdBits (w : Nat) : encode (.rdBits w) = BitVec.ofNat 32 (0x06000000 + w) :=
  congrArg (fun base => BitVec.ofNat 32 (base + w)) (show 0x06 * 2 ^ 24 = 0x06000000 by norm_num)

theorem encode_wrBits (w : Nat) : encode (.wrBits w) = BitVec.ofNat 32 (0x15000000 + w) :=
  congrArg (fun base => BitVec.ofNat 32 (base + w)) (show 0x15 * 2 ^ 24 = 0x15000000 by norm_num)

theorem decode_encode {i : Instr} (h : i.WellFormed) : decode (encode i) = .instr i := by
  obtain ⟨hop, hres, hw⟩ := encode_fields i h
  exact decode_eq_instr.mpr ⟨hres, hop.symm, hw.symm⟩

theorem widthField_lt (c : CmdWord) : widthField c < 64 := by
  rw [widthField_eq]
  exact Nat.mod_lt _ (by decide)

theorem wellFormed_of_widthOf_lt {i : Instr} (h : widthOf i < 64) : i.WellFormed := by
  cases i with
  | rdBits w | wrBits w => exact decide_eq_true h
  | _ => rfl

/-- A word is put together from its three fields (30_encoding.md R100). -/
theorem word_of_fields (c : CmdWord) :
    BitVec.ofNat 32 (opcodeField c * 2 ^ 24 + reservedField c * 2 ^ 6 + widthField c) = c := by
  apply BitVec.eq_of_toNat_eq
  have hc := c.isLt
  rw [BitVec.toNat_ofNat, opcodeField_eq, reservedField_eq, widthField_eq]
  omega

theorem encode_of_decode {c : CmdWord} {i : Instr} (h : decode c = .instr i) : encode i = c := by
  obtain ⟨hres, hop, hw⟩ := decode_eq_instr.mp h
  have hword := word_of_fields c
  rwa [hres, Nat.zero_mul, Nat.add_zero, ← hop, ← hw] at hword

/-! ## The illegal words -/

/-- The 21 opcodes of 30_encoding.md R104. -/
def opcodes : List Nat :=
  [0x00, 0x01, 0x02, 0x03, 0x04, 0x05, 0x06, 0x07, 0x10, 0x11, 0x12, 0x13, 0x14, 0x15, 0x16, 0x20, 0x21, 0x30, 0x31, 0x40,
    0x41]

/-- The fields a command can have: one of the opcodes, and a width other than 0 on the two width commands only
(30_encoding.md R103, R104). -/
theorem exists_instr_fields {op w : Nat} :
    (∃ i, opcodeOf i = op ∧ widthOf i = w) ↔ op ∈ opcodes ∧ (w = 0 ∨ op = 0x06 ∨ op = 0x15) := by
  constructor
  · rintro ⟨i, rfl, rfl⟩
    cases i <;> simp [opcodes, opcodeOf, widthOf]
  · rintro ⟨hop, rfl | rfl | rfl⟩
    · have hall : ∀ op ∈ opcodes, ∃ i, decodeOpcode op 0 = .instr i := by simp [opcodes, decodeOpcode, decodePlain]
      obtain ⟨i, hi⟩ := hall op hop
      exact ⟨i, decodeOpcode_eq_instr.mp hi⟩
    · exact ⟨.rdBits w, rfl, rfl⟩
    · exact ⟨.wrBits w, rfl, rfl⟩

/-- A word is illegal by its fields (30_encoding.md R106). -/
theorem exists_illegal_iff_fields {c : CmdWord} :
    (∃ why, decode c = .illegal why) ↔
      (reservedField c ≠ 0 ∨ ¬ ∃ i, opcodeOf i = opcodeField c ∧ widthOf i = widthField c) := by
  by_cases h : reservedField c = 0 <;> simp [exists_decode_eq_illegal, decode_eq_instr, h]

/-- The response to an illegal word (45_control.md R351): CMD and STATUS.CODE. -/
theorem step_illegal {c : CmdWord} {why : IllegalWord} (h : decode c = .illegal why) {s : State} {rest : List HostAction}
    (hs : s.host = .writeCmd c :: rest) : step s = .next { s with cmd := c, code := .illegalCommand, host := rest } :=
  (step_action hs).trans (runCommand_illegal h _)

/-! ## The statements -/

/-- Settles O1: the fields of the word are the command's own, and these decode to it. -/
theorem encodeThenDecode : Obligations.EncodeThenDecode := fun _ => decode_encode

/-- Settles O2: the decoded command's fields are the word's, whose WIDTH field has 6 bits. -/
theorem decodeThenEncode : Obligations.DecodeThenEncode := by
  intro c i h
  obtain ⟨_, _, hw⟩ := decode_eq_instr.mp h
  exact ⟨encode_of_decode h, wellFormed_of_widthOf_lt (hw ▸ widthField_lt c)⟩

/-- Settles O3: each word is the word of its command. -/
theorem opcodeMapDecodes : Obligations.OpcodeMapDecodes :=
  ⟨⟨decode_encode (i := .nop) rfl, decode_encode (i := .rdOpen) rfl, decode_encode (i := .rdBit) rfl,
      decode_encode (i := .rdByte) rfl, decode_encode (i := .rdInt32) rfl, decode_encode (i := .rdInt64) rfl,
      decode_encode (i := .rdExhausted) rfl, decode_encode (i := .wrOpen) rfl, decode_encode (i := .wrBit) rfl,
      decode_encode (i := .wrByte) rfl, decode_encode (i := .wrInt32) rfl, decode_encode (i := .wrInt64) rfl,
      decode_encode (i := .wrFlush) rfl, decode_encode (i := .hufCompress) rfl, decode_encode (i := .hufDecompress) rfl,
      decode_encode (i := .lzwCompress) rfl, decode_encode (i := .lzwDecompress) rfl, decode_encode (i := .arcPack) rfl,
      decode_encode (i := .arcUnpack) rfl⟩,
    fun w hw => ⟨encode_rdBits w ▸ decode_encode (decide_eq_true hw), encode_wrBits w ▸ decode_encode (decide_eq_true hw)⟩⟩

/-- Settles O4: the three causes are the negations of what `decode_eq_instr` asks of a word that is legal. -/
theorem illegalWordsAndTheirResponse : Obligations.IllegalWordsAndTheirResponse := by
  refine fun c => ⟨?_, fun why s rest hd hs => step_illegal hd hs⟩
  have hop : c.toNat / 2 ^ 24 % 256 = c.toNat / 2 ^ 24 := by
    have hc := c.isLt
    omega
  rw [exists_illegal_iff_fields, exists_instr_fields, opcodes, reservedField_eq, opcodeField_eq, widthField_eq]
  simp only [Nat.reducePow] at hop ⊢
  rw [hop]
  tauto

end Sys2Proof.Machine

/-! The archive blob (30_encoding.md R116): its length fields as bits, the frames with separators between them, and the
statement derived from that. -/

namespace Sys2Proof.Machine

/-- The bytes of a big-endian field are its bits in order (20_memory.md R70, R71). -/
theorem streamBits_bytesOf (k v : Nat) : streamBits (bytesOf k v) = bitsOf (8 * k) v := by
  induction k with
  | zero => rfl
  | succ k ih =>
    have hbyte : byteBits (BitVec.ofNat 8 (v / 256 ^ k)) = bitsOf 8 (v / 2 ^ (8 * k)) := by
      rw [byteBits, BitVec.toNat_ofNat, bitsOf_mod, pow_mul]
      rfl
    have hfield := bitsOf_add 8 (8 * k) (v / 2 ^ (8 * k)) (v % 2 ^ (8 * k)) (Nat.mod_lt _ (Nat.two_pow_pos _))
    rw [Nat.div_add_mod', bitsOf_mod] at hfield
    rw [bytesOf, streamBits_cons, hbyte, ih, Nat.mul_succ, Nat.add_comm, hfield]

theorem streamOf_bytesOf (k v : Nat) : streamOf (bytesOf k v) = fieldOf (8 * k) v := by
  rw [streamOf_eq, streamBits_bytesOf, fieldOf_eq]

/-- The separator is a byte: `R` is at most 256. -/
theorem separator_toNat (cfg : Config) : (separator cfg).toNat = cfg.R - 1 := by
  obtain ⟨⟨hlow, hhigh⟩, _⟩ := cfg.legal
  rw [separator, BitVec.toNat_ofNat, Nat.mod_eq_of_lt (by omega)]

theorem blobOf_eq_intersperse (cfg : Config) (es : List Entry) :
    blobOf cfg es = ((es.map (frameOf cfg)).intersperse [separator cfg]).flatten := by
  induction es with
  | nil => rfl
  | cons e es ih =>
    cases es with
    | nil => simp [blobOf]
    | cons e' es => simp [blobOf_cons_cons, ih]

theorem blobOf_length {cfg : Config} {es : List Entry} (h : es ≠ []) :
    (blobOf cfg es).length = (es.map fun e => 15 + e.name.length + e.content.length).sum + (es.length - 1) := by
  induction es with
  | nil => exact absurd rfl h
  | cons e es ih =>
    cases es with
    | nil => simp [blobOf, frameOf_length]
    | cons e' es =>
      have ih := ih (by simp)
      rw [blobOf_cons_cons, List.length_append, List.length_cons, frameOf_length, ih]
      simp only [List.map_cons, List.sum_cons, List.length_cons]
      omega

/-- Settles O47: a frame's fields are the definition's, its length fields by `streamOf_bytesOf`. -/
theorem blobLayout : Obligations.BlobLayout :=
  fun cfg => ⟨separator_toNat cfg, fun _ => ⟨_, _, streamOf_bytesOf 4 _, streamOf_bytesOf 8 _, rfl⟩,
    fun es => ⟨blobOf_eq_intersperse cfg es, blobOf_length⟩⟩

end Sys2Proof.Machine

/-! The packed output of the encoders (30_encoding.md R110, R114): its bytes, its length and how RES holds it. -/

namespace Sys2Proof.Machine

theorem packs_iff {bytes : Bytes} {bits : Bits} :
    Packs bytes bits ↔ ∃ k < 8, streamBits bytes = bits ++ List.replicate k false := by
  rw [Packs, streamOf_eq]

theorem packs_packBits (bits : Bits) : Packs (packBits bits) bits := by
  obtain ⟨bytes, pad, hw, hs, hlen, hpad⟩ := Writer.packed bits
  rw [packBits, hw]
  exact packs_iff.mpr ⟨pad.length, hlen, hs.trans (congrArg _ hpad)⟩

/-- Packing takes the least number of bytes that hold the bits. -/
theorem Packs.length_eq {bytes : Bytes} {bits : Bits} (h : Packs bytes bits) :
    bytes.length = (bits.length + 7) / 8 := by
  obtain ⟨k, hk, hs⟩ := packs_iff.mp h
  have hlen := congrArg List.length hs
  rw [streamBits_length, List.length_append, List.length_replicate] at hlen
  omega

/-- A bit sequence has one packing. -/
theorem Packs.unique {bytes bytes' : Bytes} {bits : Bits} (h : Packs bytes bits) (h' : Packs bytes' bits) :
    bytes = bytes' := by
  have hlen := h.length_eq.trans h'.length_eq.symm
  obtain ⟨k, _, hs⟩ := packs_iff.mp h
  obtain ⟨k', _, hs'⟩ := packs_iff.mp h'
  have hk := congrArg List.length hs
  have hk' := congrArg List.length hs'
  rw [streamBits_length, List.length_append, List.length_replicate] at hk hk'
  obtain rfl : k = k' := by omega
  exact streamBits_inj (hs.trans hs'.symm)

theorem holdsLength_lengthValue (n : Nat) : HoldsLength (lengthValue n) n := by
  intro h
  rw [lengthValue_small h, BitVec.toNat_ofNat, Nat.mod_eq_of_lt h]

/-- The outcome of an encoder that accepts its input, field by field. -/
theorem State.endCodec_packed (s : State) (p : Nat) (bits : Bits) :
    s.endCodec (encoderOutcome (some p) (some bits)) =
      { s with rpos := p, dst := packBits bits, wacc := 0, wcnt := 0, res := lengthValue (packBits bits).length,
               code := .ok } := rfl

theorem hufOutput_accepted {data : Bytes} (h : data.length ≤ 2 ^ 32 - 1) : hufOutput data = some (hufEncode data) := by
  rw [hufOutput, hufMaxLen, if_neg (Nat.not_lt.mpr h)]

theorem exec_hufCompress_accepted {s : State} (h : s.src.length ≤ 2 ^ 32 - 1) :
    exec .hufCompress s =
      .next { s with rpos := 8 * s.src.length, dst := packBits (hufEncode s.src), wacc := 0, wcnt := 0,
                     res := lengthValue (packBits (hufEncode s.src)).length, code := .ok } := by
  rw [exec_hufCompress, hufOutput_accepted h, State.endCodec_packed]

theorem inAlphabet_iff {cfg : Config} {data : Bytes} : inAlphabet cfg data = true ↔ ∀ b ∈ data, b.toNat < cfg.R := by
  simp [inAlphabet]

theorem lzwOutput_accepted {cfg : Config} {data : Bytes} (h : ∀ b ∈ data, b.toNat < cfg.R) :
    lzwOutput cfg data = some (lzwEncode cfg data) := if_pos (inAlphabet_iff.mpr h)

theorem exec_lzwCompress_accepted {s : State} (h : ∀ b ∈ s.src, b.toNat < s.cfg.R) :
    exec .lzwCompress s =
      .next { s with rpos := 8 * s.src.length, dst := packBits (lzwEncode s.cfg s.src), wacc := 0, wcnt := 0,
                     res := lengthValue (packBits (lzwEncode s.cfg s.src)).length, code := .ok } := by
  rw [exec_lzwCompress, lzwOutput_accepted h, State.endCodec_packed]

end Sys2Proof.Machine

/-! The size of the Huffman trie and of its stream (42_huffman.md R213 to R216; 30_encoding.md R110 to R113), and the
statement derived from that. -/

namespace Sys2Proof.Machine

/-! ## The symbols that occur -/

/-- The symbols that get a leaf, in ascending order (42_huffman.md R214). -/
def occurring (data : Bytes) : Bytes :=
  ((List.range 256).map (BitVec.ofNat 8)).filter fun s => decide (0 < tally data s)

theorem leafQueue_eq (data : Bytes) :
    leafQueue data = ((occurring data).map fun s => WTrie.leaf s (tally data s)).zipIdx := rfl

theorem mem_occurring {data : Bytes} {b : Byte} : b ∈ occurring data ↔ b ∈ data := by
  have hb : b ∈ (List.range 256).map (BitVec.ofNat 8) :=
    List.mem_map.mpr ⟨b.toNat, List.mem_range.mpr b.isLt, by simp⟩
  rw [occurring, List.mem_filter, decide_eq_true_eq, tally, List.count_pos_iff]
  exact and_iff_right hb

theorem occurring_nodup (data : Bytes) : (occurring data).Nodup := by
  refine List.Nodup.filter _ (List.Nodup.map_on (fun x hx y hy h => ?_) List.nodup_range)
  have hv := congrArg BitVec.toNat h
  rwa [BitVec.toNat_ofNat, BitVec.toNat_ofNat, Nat.mod_eq_of_lt (List.mem_range.mp hx),
    Nat.mod_eq_of_lt (List.mem_range.mp hy)] at hv

theorem occurring_length (data : Bytes) : (occurring data).length = data.dedup.length := by
  have hperm : (occurring data).Perm data.dedup :=
    (List.perm_ext_iff_of_nodup (occurring_nodup data) data.nodup_dedup).mpr fun b => by
      rw [mem_occurring, List.mem_dedup]
  exact hperm.length_eq

theorem occurring_length_le (data : Bytes) : (occurring data).length ≤ 256 := by
  simpa [occurring] using List.length_filter_le (fun s => decide (0 < tally data s)) ((List.range 256).map (BitVec.ofNat 8))

theorem occurring_ne_nil {data : Bytes} (h : data ≠ []) : occurring data ≠ [] := by
  obtain ⟨b, hb⟩ := List.exists_mem_of_ne_nil data h
  exact List.ne_nil_of_mem (mem_occurring.mpr hb)

/-! ## The trie of an input -/

theorem buildTrie_nil : buildTrie [] = .leaf 0 0 := by
  simp [buildTrie, leafQueue, tally, mergeLoop]

theorem buildTrie_builtFrom {data : Bytes} (h : data ≠ []) : BuiltFrom (leafQueue data) (buildTrie data) := by
  have hne : leafQueue data ≠ [] := by simpa [leafQueue_eq] using occurring_ne_nil h
  obtain ⟨root, hroot, hbuilt⟩ := mergeLoop_built (leafQueue data).length (leafQueue data).length _ hne le_rfl
  rwa [buildTrie, hroot, Option.getD_some]

theorem leafQueue_leaves (data : Bytes) :
    (leafQueue data).flatMap (fun x => x.1.leaves) = (occurring data).map fun s => (s, tally data s) := by
  have hfst : (leafQueue data).map Prod.fst = (occurring data).map fun s => WTrie.leaf s (tally data s) := by
    rw [leafQueue_eq, List.zipIdx_map_fst]
  calc (leafQueue data).flatMap (fun x => x.1.leaves)
      = ((leafQueue data).map Prod.fst).flatMap WTrie.leaves := by rw [List.flatMap_map]
    _ = (occurring data).map fun s => (s, tally data s) := by
        rw [hfst, List.flatMap_map, List.map_eq_flatMap]
        rfl

/-- The leaves of a built trie: one for each symbol that occurs, with its count (42_huffman.md R215). -/
theorem buildTrie_leaves {data : Bytes} (h : data ≠ []) :
    (buildTrie data).leaves.Perm ((occurring data).map fun s => (s, tally data s)) :=
  leafQueue_leaves data ▸ (buildTrie_builtFrom h).leaves

theorem mem_buildTrie_symbols {data : Bytes} {b : Byte} (hb : b ∈ data) :
    b ∈ (buildTrie data).leaves.map Prod.fst := by
  have hperm := (buildTrie_leaves (List.ne_nil_of_mem hb)).map Prod.fst
  rw [hperm.mem_iff, List.map_map]
  exact List.mem_map.mpr ⟨b, mem_occurring.mpr hb, rfl⟩

theorem buildTrie_leaves_length (data : Bytes) :
    (buildTrie data).leaves.length = if data = [] then 1 else (occurring data).length := by
  split
  · next h =>
    rw [h, buildTrie_nil]
    rfl
  · next h => simpa using (buildTrie_leaves h).length_eq

/-! ## Sizes -/

/-- A trie has one internal node less than leaves. -/
theorem WTrie.shape_nodeCount (w : WTrie) : w.shape.nodeCount + 1 = 2 * w.leaves.length := by
  induction w with
  | leaf s n => rfl
  | internal n l r hl hr =>
    simp only [WTrie.shape, Trie.nodeCount, WTrie.leaves, List.length_append]
    omega

/-- Every trie HUF_COMPRESS builds keeps to the node limit (42_huffman.md R232). -/
theorem buildTrie_nodeCount_le (data : Bytes) : (buildTrie data).shape.nodeCount ≤ hufMaxNodes := by
  have hcount := (buildTrie data).shape_nodeCount
  have hleaves := buildTrie_leaves_length data
  have hsymbols := occurring_length_le data
  rw [hufMaxNodes]
  split at hleaves <;> omega

/-- A preamble has nine bits for each leaf and one for each internal node (30_encoding.md R111). -/
theorem serialize_length (w : WTrie) : (serialize w).length + 1 = 10 * w.leaves.length := by
  induction w with
  | leaf s n => simp [serialize, WTrie.leaves]
  | internal n l r hl hr =>
    simp only [serialize, WTrie.leaves, List.length_cons, List.length_append]
    omega

theorem payload_length (table : List (Byte × Bits)) (data : Bytes) :
    (payload table data).length = (data.map fun b => (codeOf table b).length).sum := List.length_flatMap

/-- The length of a Huffman stream before padding (30_encoding.md R113). -/
theorem hufEncode_length (data : Bytes) :
    (hufEncode data).length = 10 * (if data = [] then 1 else data.dedup.length) - 1 + 32 +
      (data.map fun b => (codeOf (codeTable (buildTrie data)) b).length).sum := by
  have hpreamble := serialize_length (buildTrie data)
  rw [buildTrie_leaves_length, occurring_length] at hpreamble
  rw [hufEncode, List.length_append, List.length_append, bitsOf_length, payload_length]
  omega

theorem packBits_hufEncode_nil : packBits (hufEncode []) = [0x80, 0, 0, 0, 0, 0] := by
  refine (packs_packBits _).unique (packs_iff.mpr ⟨7, by decide, ?_⟩)
  rw [hufEncode, buildTrie_nil]
  decide

/-- Settles O35: the bits are those of `hufEncode`. -/
theorem hufStreamLength : Obligations.HufStreamLength := by
  refine ⟨fun s k hlen hk => ?_, fun s hnil => ?_⟩
  · have hpacks := packs_packBits (hufEncode s.src)
    exact ⟨_, _, exec_hufCompress_accepted hlen, hpacks, hk ▸ hufEncode_length s.src, hpacks.length_eq⟩
  · refine ⟨_, exec_hufCompress_accepted (by simp [hnil]), ?_⟩
    simp only [hnil]
    exact packBits_hufEncode_nil

end Sys2Proof.Machine

/-! The LZW encoder (43_lzw.md R262 to R265; 30_encoding.md R114): where it stands between two codewords, what the rest
of its codewords are from there, and the statement derived from that. -/

namespace Sys2Proof.Machine

variable {cfg : Config}

/-! ## The strings the dictionary learns -/

/-- Dictionary string `i` of a stream of strings: string `i` and the first byte of the next one, while the table has room
(43_lzw.md R264). Its code is `R + 1 + i`. -/
def Learned (cfg : Config) (strings : List Bytes) (i : Nat) (p : Bytes) : Prop :=
  cfg.R + 1 + i < cfg.L ∧ ∃ q q', strings[i]? = some q ∧ strings[i + 1]? = some q' ∧ p = q ++ q'.take 1

/-- What is learned before the end of `done` depends on what follows only by the first byte after it. -/
theorem learned_append {done ys zs : List Bytes} {y z : Bytes} (h : y.take 1 = z.take 1) {i : Nat}
    (hi : i < done.length) {p : Bytes} : Learned cfg (done ++ y :: ys) i p ↔ Learned cfg (done ++ z :: zs) i p := by
  unfold Learned
  rw [List.getElem?_append_left hi, List.getElem?_append_left hi]
  rcases Nat.lt_or_ge (i + 1) done.length with hlt | hge
  · rw [List.getElem?_append_left hlt, List.getElem?_append_left hlt]
  · have hlast : i + 1 = done.length := by omega
    simp [hlast, h]

/-- The string learned from the last of `done` and what follows it. -/
theorem learned_last {done : List Bytes} {m x p : Bytes} :
    Learned cfg (done ++ [m] ++ [x]) done.length p ↔ cfg.R + 1 + done.length < cfg.L ∧ p = m ++ x.take 1 := by
  simp [Learned]

/-! ## Where the encoder stands -/

/-- Where the encoder stands when it has emitted codewords for the strings `done` and the input `x` remains: the
dictionary holds the single bytes below `R` and the strings learned from `done` and the next byte of `x`, and no other. -/
structure EncoderAt (cfg : Config) (done : List Bytes) (x : Bytes) (d : Dict) : Prop where
  next : d.next = min (cfg.R + 1 + done.length) cfg.L
  entries : ∀ c p, (c, p) ∈ d.entries ↔
    (c < cfg.R ∧ p = [BitVec.ofNat 8 c]) ∨ ∃ i < done.length, c = cfg.R + 1 + i ∧ Learned cfg (done ++ [x]) i p

theorem EncoderAt.start (x : Bytes) : EncoderAt cfg [] x (seedDict cfg) where
  next := by
    obtain ⟨_, ⟨hlow, _⟩, _⟩ := cfg.legal
    exact (min_eq_left hlow).symm
  entries := fun c p => by simp [seedDict, eq_comm]

/-- A match exists, because each byte of the input is an entry; it is not empty, and no entry that begins the input is
longer (43_lzw.md R262, R265). -/
theorem EncoderAt.exists_match {done : List Bytes} {b : Byte} {bs : Bytes} {d : Dict}
    (h : EncoderAt cfg done (b :: bs) d) (hb : b.toNat < cfg.R) :
    ∃ m, longestMatch d.entries (b :: bs) = some m ∧ m ∈ d.entries ∧ m.2 <+: b :: bs ∧ m.2 ≠ [] ∧
      ∀ e ∈ d.entries, e.2 <+: b :: bs → e.2.length ≤ m.2.length := by
  have hseed : (b.toNat, [b]) ∈ d.entries := (h.entries _ _).mpr (.inl ⟨hb, by simp⟩)
  have hpre : [b] <+: b :: bs := ⟨bs, rfl⟩
  rcases longestMatch_spec d.entries (b :: bs) with ⟨m, hm, hmem, hmpre, hmax⟩ | ⟨_, hno⟩
  · exact ⟨m, hm, hmem, hmpre, List.length_pos_iff.mp (hmax _ hseed hpre), hmax⟩
  · exact absurd hpre (hno _ hseed)

/-- The insertion where the match `m` leaves input unread: one more string, when the table has room (43_lzw.md R264). -/
theorem encoderInsert_append {m x : Bytes} (hx : x ≠ []) (d : Dict) :
    encoderInsert cfg d (m ++ x) m.length = if d.next < cfg.L then d.add (m ++ x.take 1) else d := by
  have hpos := List.length_pos_iff.mpr hx
  simp [encoderInsert, Dict.hasRoom, hpos, List.take_length_add_append]

/-- After the match `m` the encoder stands behind it, if input is left. -/
theorem EncoderAt.next_match {done : List Bytes} {m x : Bytes} {d : Dict} (h : EncoderAt cfg done (m ++ x) d)
    (hm : m ≠ []) (hx : x ≠ []) : EncoderAt cfg (done ++ [m]) x (encoderInsert cfg d (m ++ x) m.length) := by
  have hfirst : (m ++ x).take 1 = m.take 1 := List.take_append_of_le_length (List.length_pos_iff.mpr hm)
  have hold : ∀ i < done.length, ∀ p, Learned cfg (done ++ [m ++ x]) i p ↔ Learned cfg (done ++ [m] ++ [x]) i p :=
    fun i hi p => by rw [List.append_assoc]; exact learned_append hfirst hi
  have hsplit : ∀ c p, (∃ i < (done ++ [m]).length, c = cfg.R + 1 + i ∧ Learned cfg (done ++ [m] ++ [x]) i p) ↔
      (∃ i < done.length, c = cfg.R + 1 + i ∧ Learned cfg (done ++ [m ++ x]) i p) ∨
        (c = cfg.R + 1 + done.length ∧ cfg.R + 1 + done.length < cfg.L ∧ p = m ++ x.take 1) := by
    intro c p
    rw [List.length_append, List.length_singleton, Nat.exists_lt_succ_right, learned_last]
    exact or_congr_left (exists_congr fun i => and_congr_right fun hi => and_congr_right fun _ => (hold i hi p).symm)
  have hnext := h.next
  have hlow := cfg.legal.2.1.1
  rw [encoderInsert_append hx]
  split
  · next hroom =>
    refine ⟨?_, fun c p => ?_⟩
    · simp only [Dict.add, List.length_append, List.length_singleton]
      omega
    · have hcode : d.next = cfg.R + 1 + done.length := by omega
      have hfits : cfg.R + 1 + done.length < cfg.L := by omega
      rw [hsplit, ← or_assoc, ← h.entries]
      simp [Dict.add, hcode, hfits]
  · next hfull =>
    refine ⟨?_, fun c p => ?_⟩
    · simp only [List.length_append, List.length_singleton]
      omega
    · have hno : ¬ cfg.R + 1 + done.length < cfg.L := by omega
      rw [hsplit, ← or_assoc, ← h.entries]
      simp [hno]

/-! ## The codewords from there -/

/-- What the encoder does from where it stands: codewords `codes` for the strings `strings`, which make up the rest of the
input `x`. Each codeword is a byte's or that of a string learned before it, and its string is as long as any of these that
begins the input then left. -/
structure EncodesFrom (cfg : Config) (done : List Bytes) (x : Bytes) (codes : List Nat) (strings : List Bytes) : Prop where
  length : codes.length = strings.length
  flatten : strings.flatten = x
  spells : ∀ j c p, codes[j]? = some c → strings[j]? = some p →
    (c < cfg.R ∧ p = [BitVec.ofNat 8 c]) ∨
      ∃ i < done.length + j, c = cfg.R + 1 + i ∧ Learned cfg (done ++ strings) i p
  greedy : ∀ j i p q, strings[j]? = some p → i < done.length + j → Learned cfg (done ++ strings) i q →
    q <+: (strings.drop j).flatten → q.length ≤ p.length

theorem EncodesFrom.nil (done : List Bytes) : EncodesFrom cfg done [] [] [] := ⟨rfl, rfl, by simp, by simp⟩

/-- One codeword more at the front: the entry `m`, the longest that begins the input. -/
theorem EncodesFrom.cons {done strings : List Bytes} {x : Bytes} {d : Dict} {m : Nat × Bytes} {codes : List Nat}
    (h : EncoderAt cfg done (m.2 ++ x) d) (hm : m ∈ d.entries) (hne : m.2 ≠ [])
    (hmax : ∀ e ∈ d.entries, e.2 <+: m.2 ++ x → e.2.length ≤ m.2.length)
    (hrest : EncodesFrom cfg (done ++ [m.2]) x codes strings) :
    EncodesFrom cfg done (m.2 ++ x) (m.1 :: codes) (m.2 :: strings) := by
  have hfirst : (m.2 ++ x).take 1 = m.2.take 1 := List.take_append_of_le_length (List.length_pos_iff.mpr hne)
  have hflat : (m.2 :: strings).flatten = m.2 ++ x := by rw [List.flatten_cons, hrest.flatten]
  have happ : done ++ [m.2] ++ strings = done ++ m.2 :: strings := by simp
  have hlen (j : Nat) : (done ++ [m.2]).length + j = done.length + (j + 1) := by simp; omega
  refine ⟨by simp [hrest.length], hflat, fun j c p hc hp => ?_, fun j i p q hp hi hq hpre => ?_⟩
  · cases j with
    | zero =>
      cases hc
      cases hp
      refine ((h.entries _ _).mp hm).imp_right ?_
      rintro ⟨i, hi, hcode, hlearned⟩
      exact ⟨i, hi, hcode, (learned_append hfirst hi).mp hlearned⟩
    | succ j => simpa only [happ, hlen] using hrest.spells j c p hc hp
  · cases j with
    | zero =>
      cases hp
      have hentry : (cfg.R + 1 + i, q) ∈ d.entries :=
        (h.entries _ _).mpr (.inr ⟨i, hi, rfl, (learned_append hfirst hi).mpr hq⟩)
      exact hmax _ hentry (by simpa [hflat] using hpre)
    | succ j => exact hrest.greedy j i p q hp (by rwa [hlen]) (by rwa [happ]) hpre

/-- Everything the loop of `LzwEncode` does, from wherever it stands, on an input in the alphabet (43_lzw.md R263). -/
theorem lzwCodes_encodesFrom {fuel : Nat} {d : Dict} {done : List Bytes} {x : Bytes}
    (hx : ∀ b ∈ x, b.toNat < cfg.R) (hfuel : x.length ≤ fuel) (h : x ≠ [] → EncoderAt cfg done x d) :
    ∃ strings, EncodesFrom cfg done x (lzwCodes cfg fuel d x) strings := by
  induction fuel generalizing d done x with
  | zero =>
    obtain rfl := List.length_eq_zero_iff.mp (Nat.le_zero.mp hfuel)
    exact ⟨[], .nil done⟩
  | succ fuel ih =>
    cases x with
    | nil => exact ⟨[], .nil done⟩
    | cons b bs =>
      have hat := h (by simp)
      obtain ⟨m, hmatch, hmem, ⟨rest, hrest⟩, hne, hmax⟩ := hat.exists_match (hx b (by simp))
      rw [lzwCodes, hmatch]
      simp only
      rw [← hrest] at hat hmax hx hfuel ⊢
      have hpos := List.length_pos_iff.mpr hne
      have hshort : rest.length ≤ fuel := by rw [List.length_append] at hfuel; omega
      obtain ⟨strings, hs⟩ := ih (fun b hb => hx b (by simp [hb])) hshort fun hleft => hat.next_match hne hleft
      refine ⟨m.2 :: strings, .cons hat hmem hne hmax ?_⟩
      rwa [List.drop_left]

theorem lzwCodes_length_le (fuel : Nat) (d : Dict) (x : Bytes) : (lzwCodes cfg fuel d x).length ≤ fuel := by
  induction fuel generalizing d x with
  | zero => exact Nat.le_refl 0
  | succ fuel ih =>
    cases x with
    | nil => exact Nat.zero_le _
    | cons b bs =>
      rw [lzwCodes]
      split
      · exact Nat.zero_le _
      · exact Nat.succ_le_succ (ih _ _)

/-! ## The whole stream -/

theorem EncodesFrom.toSpells {x : Bytes} {codes : List Nat} {strings : List Bytes}
    (h : EncodesFrom cfg [] x codes strings) : Spells cfg codes strings := by
  refine ⟨h.length, fun j c p hc hp => (h.spells j c p hc hp).imp_right ?_⟩
  rintro ⟨i, hi, rfl, hlow, q, q', hq, hq', rfl⟩
  exact ⟨i, q, q', by simpa using hi, rfl, hlow, hq, hq', rfl⟩

/-- The codewords of an input in the alphabet, from the seeded dictionary. -/
theorem lzwCodes_encodes {data : Bytes} (h : ∀ b ∈ data, b.toNat < cfg.R) :
    ∃ strings, EncodesFrom cfg [] data (lzwCodes cfg data.length (seedDict cfg) data) strings :=
  lzwCodes_encodesFrom h le_rfl fun _ => .start data

theorem lzwEncode_eq (data : Bytes) :
    lzwEncode cfg data = lzwBits cfg (lzwCodes cfg data.length (seedDict cfg) data) := by
  rw [lzwBits, show fieldOf cfg.W = bitsOf cfg.W from funext (fieldOf_eq _)]
  rfl

theorem lzwBits_length (codes : List Nat) : (lzwBits cfg codes).length = cfg.W * (codes.length + 1) := by
  simp [lzwBits, List.length_flatMap, fieldOf, Nat.mul_add, Nat.mul_comm]

/-- Settles O41: the strings are those of `lzwCodes_encodes`. -/
theorem lzwCompressWritesTheGreedyStream : Obligations.LzwCompressWritesTheGreedyStream := by
  intro s hs
  obtain ⟨strings, h⟩ := lzwCodes_encodes hs
  have hpacks := packs_packBits (lzwEncode s.cfg s.src)
  refine ⟨_, strings, _, _, exec_lzwCompress_accepted hs, holdsLength_lengthValue _, h.toSpells, h.flatten,
    lzwCodes_length_le _ _ _, lzwEncode_eq s.src ▸ hpacks, ?_, fun j i p q q' hp hi hL hq hq' hpre => ?_⟩
  · rw [hpacks.length_eq, lzwEncode_eq, lzwBits_length]
  · exact h.greedy j i p _ hp (by simpa using hi) ⟨hL, q, q', hq, hq', rfl⟩ hpre

end Sys2Proof.Machine

/-! The decoders on what the encoders write (42_huffman.md R239; 43_lzw.md R279): each decodes it to its input. -/

namespace Sys2Proof.Machine

@[simp] theorem encoderOutcome_some_dst (p : Option Nat) (bits : Bits) :
    (encoderOutcome p (some bits)).dst = packBits bits := rfl

@[simp] theorem decoderOutcome_dst (n : Nat) (r : DecodeResult) : (decoderOutcome n r).dst = r.out := by
  unfold decoderOutcome
  split <;> rfl

theorem exists_streamBits_packBits (bits : Bits) : ∃ pad, streamBits (packBits bits) = bits ++ pad := by
  obtain ⟨_, _, hs⟩ := packs_iff.mp (packs_packBits bits)
  exact ⟨_, hs⟩

/-- A Huffman stream of any trie within the node limit and any paths to its leaves decodes to their symbols, and what
follows stays unread (42_huffman.md R233, R234, R236). -/
theorem hufDecode_stream {t : Trie} {codes : List (Bits × Byte)} (ht : t.nodeCount ≤ hufMaxNodes)
    (hlen : codes.length < 2 ^ 32) (hcodes : ∀ e ∈ codes, t.leafAt e.1 = some e.2) (rest : Bits) :
    hufDecode (t.preamble ++ bitsOf 32 codes.length ++ codes.flatMap Prod.fst ++ rest) =
      ⟨codes.map Prod.snd, rest, none⟩ := by
  have hsyms := decodeSymbols_paths t codes 0 rest hcodes
  simp only [Nat.add_zero, decodeSymbols, DecodeResult.emit, List.append_nil] at hsyms
  rw [hufDecode, List.append_assoc, List.append_assoc, readTrie_preamble t _ 0 _ (by omega) (by omega)]
  simp only
  rw [takeBits_field hlen]
  exact hsyms

theorem hufDecode_hufEncode {data : Bytes} (h : data.length ≤ 2 ^ 32 - 1) (rest : Bits) :
    hufDecode (hufEncode data ++ rest) = ⟨data, rest, none⟩ := by
  have hpath : ∀ e ∈ data.map fun b => (codeOf (codeTable (buildTrie data)) b, b),
      (buildTrie data).shape.leafAt e.1 = some e.2 := by
    intro e he
    obtain ⟨b, hb, rfl⟩ := List.mem_map.mp he
    exact codeOf_path (mem_buildTrie_symbols hb)
  have hstream := hufDecode_stream (buildTrie_nodeCount_le data) (by rw [List.length_map]; omega) hpath rest
  rw [List.length_map, List.flatMap_map, List.map_map] at hstream
  rw [hufEncode, serialize_eq, payload]
  exact hstream.trans (congrArg (DecodeResult.mk · rest none) (List.map_id data))

theorem lzwDecode_lzwEncode {cfg : Config} {data : Bytes} (h : ∀ b ∈ data, b.toNat < cfg.R) (rest : Bits) :
    lzwDecode cfg (lzwEncode cfg data ++ rest) = ⟨data, rest, none⟩ := by
  obtain ⟨strings, hs⟩ := lzwCodes_encodes h
  have hfits : cfg.R < 2 ^ cfg.W := by
    obtain ⟨_, ⟨hlow, hhigh⟩, _⟩ := cfg.legal
    omega
  rw [lzwEncode_eq, lzwBits, lzwDecode_stops hs.toSpells ⟨cfg.R, hfits, .inl rfl, rfl⟩, hs.flatten]

end Sys2Proof.Machine

/-! Programs of several host actions and the pseudo-commands (30_encoding.md R109): how a run goes from action to action,
and the statement derived from that. -/

namespace Sys2Proof.Machine

/-! ## Runs -/

theorem run_succ {M : Host.Core} {s t : M.State} (h : M.step s = .next t) (k : Nat) : M.run (k + 1) s = M.run k t := by
  rw [Host.Core.run, h]

theorem core_run_succ {s t : State} (h : step s = .next t) (k : Nat) :
    Sys2Proof.core.run (k + 1) s = Sys2Proof.core.run k t := run_succ (M := Sys2Proof.core) h k

theorem step_setArg {s : State} {v : BitVec 64} {rest : List HostAction} (hs : s.host = .setArg v :: rest) :
    step s = .next ((s.withHost rest).withArg v) := step_action hs

theorem step_loadSrcDst {s : State} {rest : List HostAction} (hs : s.host = .loadSrcDst :: rest) :
    step s = .next ((s.withHost rest).loadSrc s.dst) := step_action hs

/-- A command by its mnemonic is the command (30_encoding.md R108), run with its word in CMD. The word is left open: the
kernel would otherwise compute it wherever two states are compared. -/
theorem step_command {i : Instr} (hi : i.WellFormed) {s : State} {rest : List HostAction}
    (hs : s.host = command i :: rest) : ∃ c, step s = exec i ((s.withHost rest).withCmd c) :=
  ⟨encode i, (step_action hs).trans (runCommand_instr (decode_encode hi) _)⟩

theorem step_codec {i : Instr} (hi : i.WellFormed) {s : State} {rest : List HostAction}
    (hs : s.host = command i :: rest) {o : CodecOutcome} (ho : codecOutcome s.cfg s.src s.ein i = some o) :
    ∃ c, step s = .next (((s.withHost rest).withCmd c).endCodec o) := by
  obtain ⟨c, hc⟩ := step_command hi hs
  exact ⟨c, hc.trans (exec_codec ho)⟩

/-- The output loaded as the next input, and a codec command. -/
theorem run_loadSrcDst_codec {j : Instr} (hj : j.WellFormed) {s : State} {rest : List HostAction}
    (hs : s.host = .loadSrcDst :: command j :: rest) {o : CodecOutcome}
    (ho : codecOutcome s.cfg s.dst s.ein j = some o) (k : Nat) :
    ∃ t : State, Sys2Proof.core.run (k + 2) s = Sys2Proof.core.run k t ∧ t.dst = o.dst ∧ t.code = o.last.code := by
  obtain ⟨c, hc⟩ := step_codec hj (s := (s.withHost (command j :: rest)).loadSrc s.dst) rfl ho
  exact ⟨_, (core_run_succ (step_loadSrcDst hs) (k + 1)).trans (core_run_succ hc k), rfl, rfl⟩

/-- A codec command, its output loaded as the next input, and another codec command. -/
theorem run_codec_loadSrcDst_codec {i j : Instr} (hi : i.WellFormed) (hj : j.WellFormed) {s : State}
    {rest : List HostAction} (hs : s.host = command i :: .loadSrcDst :: command j :: rest) {o o' : CodecOutcome}
    (ho : codecOutcome s.cfg s.src s.ein i = some o) (ho' : codecOutcome s.cfg o.dst s.ein j = some o') (k : Nat) :
    ∃ t : State, Sys2Proof.core.run (k + 3) s = Sys2Proof.core.run k t ∧ t.dst = o'.dst ∧ t.code = o'.last.code := by
  obtain ⟨c, hc⟩ := step_codec hi hs ho
  obtain ⟨t, ht, hend⟩ := run_loadSrcDst_codec hj
    (s := ((s.withHost (.loadSrcDst :: command j :: rest)).withCmd c).endCodec o) rfl ho' k
  exact ⟨t, (core_run_succ hc (k + 2)).trans ht, hend⟩

/-- `SETARG v` and a command that writes ARG as `n` bits: the bits are appended. -/
theorem run_setArg_write {i : Instr} (hi : i.WellFormed) {n : Nat} {v : BitVec 64}
    (hexec : ∀ u : State, u.arg = v → exec i u = .next (u.writeBits v.toNat n).done) {s : State}
    {rest : List HostAction} (hs : s.host = .setArg v :: command i :: rest) (k : Nat) :
    ∃ t : State, Sys2Proof.core.run (k + 2) s = Sys2Proof.core.run k t ∧ t.host = rest ∧ t.code = .ok ∧
      t.writer = s.writer.pushBits (bitsOf n v.toNat) := by
  obtain ⟨c, hc⟩ := step_command hi (s := (s.withHost (command i :: rest)).withArg v) rfl
  have harg := core_run_succ (step_setArg hs) (k + 1)
  exact ⟨_, harg.trans (core_run_succ (hc.trans (hexec _ rfl)) k), rfl, rfl, rfl⟩

/-! ## The equivalences -/

theorem exec_wrBits_of_fits {w : Nat} {v : BitVec 64} (hw : widthLegal w = true) (hv : v.toNat < 2 ^ w) (u : State)
    (hu : u.arg = v) : exec (.wrBits w) u = .next (u.writeBits v.toNat w).done := by
  subst hu
  rw [exec_wrBits_legal hw, State.writeArg_fits hv]

theorem exec_wrInt64_of_arg {v : BitVec 64} (u : State) (hu : u.arg = v) :
    exec .wrInt64 u = .next (u.writeBits v.toNat 64).done := by
  subst hu
  rfl

/-- `WR64 v` and its two 32-bit halves, the high one first, leave the same writer registers. -/
theorem run_pseudoWr64_halves (s : State) (v : BitVec 64) (rest rest' : List HostAction) :
    ∃ t u : State, Sys2Proof.core.run 2 (s.withHost (pseudoWr64 v ++ rest)) = .next t ∧
      Sys2Proof.core.run 4 (s.withHost (pseudoWr (BitVec.ofNat 64 (v.toNat / 2 ^ 32)) 32 ++
        pseudoWr (BitVec.ofNat 64 (v.toNat % 2 ^ 32)) 32 ++ rest')) = .next u ∧
      t.code = .ok ∧ u.code = .ok ∧ t.writer = u.writer := by
  have hv := v.isLt
  have hhigh : (BitVec.ofNat 64 (v.toNat / 2 ^ 32)).toNat = v.toNat / 2 ^ 32 := by
    rw [BitVec.toNat_ofNat, Nat.mod_eq_of_lt (by omega)]
  have hlow : (BitVec.ofNat 64 (v.toNat % 2 ^ 32)).toNat = v.toNat % 2 ^ 32 := by
    rw [BitVec.toNat_ofNat, Nat.mod_eq_of_lt (by omega)]
  have hbits := bitsOf_add 32 32 (v.toNat / 2 ^ 32) (v.toNat % 2 ^ 32) (Nat.mod_lt _ (by decide))
  rw [Nat.div_add_mod'] at hbits
  obtain ⟨t, ht, _, htcode, htw⟩ := run_setArg_write (i := .wrInt64) rfl exec_wrInt64_of_arg
    (s := s.withHost (pseudoWr64 v ++ rest)) rfl 0
  obtain ⟨u, hu, huhost, _, huw⟩ := run_setArg_write (i := .wrBits 32) rfl
    (exec_wrBits_of_fits (by decide) (by omega))
    (s := s.withHost (pseudoWr (BitVec.ofNat 64 (v.toNat / 2 ^ 32)) 32 ++
      pseudoWr (BitVec.ofNat 64 (v.toNat % 2 ^ 32)) 32 ++ rest')) rfl 2
  obtain ⟨u', hu', _, hucode, huw'⟩ := run_setArg_write (i := .wrBits 32) rfl
    (exec_wrBits_of_fits (by decide) (by omega)) huhost 0
  refine ⟨t, u', ht, hu.trans hu', htcode, hucode, ?_⟩
  rw [htw, huw', huw, hhigh, hlow, ← Writer.pushBits_append, ← hbits]
  rfl

/-- `ROUNDTRIP_HUF` gives SRC back. -/
theorem run_roundtripHuf {s : State} (h : s.src.length ≤ 2 ^ 32 - 1) (rest : List HostAction) :
    ∃ t : State, Sys2Proof.core.run 3 (s.withHost (pseudoRoundtripHuf ++ rest)) = .next t ∧ t.dst = s.src := by
  obtain ⟨t, ht, hdst, _⟩ := run_codec_loadSrcDst_codec (i := .hufCompress) (j := .hufDecompress) rfl rfl
    (s := s.withHost (pseudoRoundtripHuf ++ rest)) rfl rfl rfl 0
  obtain ⟨pad, hpad⟩ := exists_streamBits_packBits (hufEncode s.src)
  refine ⟨t, ht, hdst.trans ?_⟩
  rw [decoderOutcome_dst, State.withHost_src, hufOutput_accepted h, encoderOutcome_some_dst, hpad, hufDecode_hufEncode h]

/-- `ROUNDTRIP_LZW` gives SRC back. -/
theorem run_roundtripLzw {s : State} (h : ∀ b ∈ s.src, b.toNat < s.cfg.R) (rest : List HostAction) :
    ∃ t : State, Sys2Proof.core.run 3 (s.withHost (pseudoRoundtripLzw ++ rest)) = .next t ∧ t.dst = s.src := by
  obtain ⟨t, ht, hdst, _⟩ := run_codec_loadSrcDst_codec (i := .lzwCompress) (j := .lzwDecompress) rfl rfl
    (s := s.withHost (pseudoRoundtripLzw ++ rest)) rfl rfl rfl 0
  obtain ⟨pad, hpad⟩ := exists_streamBits_packBits (lzwEncode s.cfg s.src)
  refine ⟨t, ht, hdst.trans ?_⟩
  rw [decoderOutcome_dst, State.withHost_src, State.withHost_cfg, lzwOutput_accepted h, encoderOutcome_some_dst, hpad,
    lzwDecode_lzwEncode h]

/-- Settles O54: the expansions are the definitions. -/
theorem pseudoCommandsAgree : Obligations.PseudoCommandsAgree := by
  refine ⟨fun _ _ => ⟨rfl, rfl, rfl, rfl, rfl⟩, ⟨rfl, rfl, rfl⟩, ⟨rfl, rfl⟩, fun s => ?_, fun s v rest rest' => ?_,
    fun s rest h => run_roundtripHuf h rest, fun s rest h => run_roundtripLzw h rest⟩
  · exact ⟨(exec_wrBits_legal rfl s).symm, (exec_wrBits_legal rfl s).symm, (exec_wrBits_legal rfl s).symm,
      (exec_rdBits_legal rfl s).symm, (exec_rdBits_legal rfl s).symm, (exec_rdBits_legal rfl s).symm⟩
  · obtain ⟨t, u, ht, hu, htcode, hucode, hw⟩ := run_pseudoWr64_halves s v rest rest'
    exact ⟨t, u, ht, hu, htcode, hucode, congrArg Writer.dst hw, congrArg Writer.wacc hw, congrArg Writer.wcnt hw⟩

end Sys2Proof.Machine

/-! The reader commands (40_reader.md): what each gives as a function of SRC and RPOS, said once, and the statements
derived from that. -/

namespace Sys2Proof.Machine

/-! ## What a reader command gives -/

/-- The state as a reader command leaves it: RPOS, RES where the command gives one, and the code (40_reader.md R150). -/
def State.endReader (p : Nat) (v : Option (BitVec 64)) (e : ResultCode) (s : State) : State :=
  { s with rpos := p, res := v.getD s.res, code := e }

/-- An operation that SRC and RPOS determine: from every state with these two it leaves the same RPOS, the same code, and
the same value in RES or RES as it was (40_reader.md R150). -/
def DependsOnlyOnReader (f : State → Host.Outcome State Fault Refusal) : Prop :=
  ∀ src r, ∃ p v e, ∀ s : State, s.src = src → s.rpos = r → f s = .next (s.endReader p v e)

theorem readToRes_dependsOnlyOnReader (n : Nat) : DependsOnlyOnReader fun s => .next (s.readToRes n) := by
  intro src r
  rcases takeBits_cases n ((streamBits src).drop r) with ⟨_, h⟩ | ⟨_, h⟩
  · refine ⟨r + n, some (BitVec.ofNat 64 (bitsVal (((streamBits src).drop r).take n))), .ok, ?_⟩
    rintro s rfl rfl
    simp only [State.readToRes, State.readBits, State.unread, h]
    rfl
  · refine ⟨8 * src.length, none, .endOfStream, ?_⟩
    rintro s rfl rfl
    simp only [State.readToRes, State.readBits, State.unread, h]
    rfl

theorem raise_dependsOnlyOnReader (e : ResultCode) : DependsOnlyOnReader fun s => .next (s.raise e) := by
  refine fun _ r => ⟨r, none, e, ?_⟩
  rintro s rfl rfl
  rfl

theorem execRdExhausted_dependsOnlyOnReader : DependsOnlyOnReader execRdExhausted := by
  refine fun src r => ⟨r, some (if decide (8 * src.length ≤ r) then 1 else 0), .ok, ?_⟩
  rintro s rfl rfl
  rfl

theorem exec_dependsOnlyOnReader {i : Instr}
    (hi : i ∈ [.rdOpen, .rdBit, .rdByte, .rdInt32, .rdInt64, .rdExhausted] ∨ ∃ w, i = .rdBits w) :
    DependsOnlyOnReader (exec i) := by
  cases i with
  | rdOpen => exact fun _ _ => ⟨0, none, .ok, fun _ _ _ => rfl⟩
  | rdBit => exact readToRes_dependsOnlyOnReader 1
  | rdByte => exact readToRes_dependsOnlyOnReader 8
  | rdInt32 => exact readToRes_dependsOnlyOnReader 32
  | rdInt64 => exact readToRes_dependsOnlyOnReader 64
  | rdBits w =>
    by_cases hl : widthLegal w = true
    · rw [funext (exec_rdBits_legal hl)]
      exact readToRes_dependsOnlyOnReader w
    · rw [funext (exec_rdBits_illegal hl)]
      exact raise_dependsOnlyOnReader .invalidArgument
  | rdExhausted => exact execRdExhausted_dependsOnlyOnReader
  | nop | wrOpen | wrBit | wrByte | wrInt32 | wrInt64 | wrBits | wrFlush | hufCompress | hufDecompress | lzwCompress
    | lzwDecompress | arcPack | arcUnpack => simp at hi

/-! ## The bits a read gives -/

theorem State.unread_eq (s : State) : s.unread = (streamOf s.src).drop s.rpos := by rw [State.unread, streamOf_eq]

/-- The value of some bits is the one whose field they are (20_memory.md R71). -/
theorem fieldOf_bitsVal {n : Nat} {bs : Bits} (h : bs.length = n) : fieldOf n (bitsVal bs) = bs := by
  subst h
  rw [fieldOf_eq, bitsOf_bitsVal]

/-- A command that ends as a read of `n` bits does what 40_reader.md R151 says. Of no bits it is not true with the cursor
past the end, where a read of none succeeds. -/
theorem readsNext_of_readToRes {i : Instr} {n : Nat} {s : State} (hn : 1 ≤ n)
    (h : exec i s = .next (s.readToRes n)) : ReadsNext i n s := by
  refine ⟨fun hle => ?_, fun hlt => h.trans (congrArg _ (State.readToRes_short hn hlt))⟩
  have hlen : (s.unread.take n).length = n := List.length_take_of_le (by rw [State.unread_length]; omega)
  refine ⟨bitsVal (s.unread.take n), ?_, ?_, h.trans (congrArg _ (State.readToRes_ok hle))⟩
  · exact (bitsVal_lt _).trans_eq (congrArg (2 ^ ·) hlen)
  · rw [fieldOf_bitsVal hlen, State.unread_eq]

theorem decode_rdBits {w : Nat} (hw : w < 64) : decode (BitVec.ofNat 32 (0x06000000 + w)) = .instr (.rdBits w) :=
  encode_rdBits w ▸ decode_encode (decide_eq_true hw)

/-! ## Exhaustion -/

theorem State.exhausted_iff_le {s : State} : s.exhausted = true ↔ 8 * s.src.length ≤ s.rpos := decide_eq_true_iff

/-- STATUS.RDEXH is bit 7 (10_state.md R36). -/
theorem State.statusWord_getLsbD_seven (s : State) : s.statusWord.getLsbD 7 = s.exhausted := by
  rw [State.statusWord, BitVec.getLsbD_append, BitVec.getLsbD_append, BitVec.getLsbD_append]
  simp

/-- A read fails exactly when too few bits remain (40_reader.md R151). -/
theorem State.readToRes_code_iff {n : Nat} {s : State} (hn : 1 ≤ n) :
    (s.readToRes n).code = .endOfStream ↔ 8 * s.src.length < s.rpos + n := by
  rcases Nat.lt_or_ge (8 * s.src.length) (s.rpos + n) with h | h
  · rw [State.readToRes_short hn h]
    exact iff_of_true rfl h
  · rw [State.readToRes_ok h]
    exact iff_of_false nofun (Nat.not_lt.mpr h)

/-- The exhaustion test is whether RD_BIT would fail (40_reader.md R152). -/
theorem State.exhausted_iff_rdBit {s : State} :
    s.exhausted = true ↔ ∃ t, exec .rdBit s = .next t ∧ t.code = .endOfStream := by
  have hbit : exec .rdBit s = .next (s.readToRes 1) := rfl
  simp only [hbit, Host.Outcome.next.injEq, exists_eq_left', State.readToRes_code_iff (Nat.le_refl 1),
    State.exhausted_iff_le, Nat.lt_succ_iff]

/-! ## The statements -/

/-- Settles O20: both runs give what the one SRC and RPOS determine. -/
theorem readerCommandsTouchOnlyTheReader : Obligations.ReaderCommandsTouchOnlyTheReader := by
  intro i s t hi h
  obtain ⟨p, v, e, hexec⟩ := exec_dependsOnlyOnReader hi s.src s.rpos
  cases h.symm.trans (hexec s rfl rfl)
  refine ⟨rfl, fun s' t' hs hr h' => ?_⟩
  cases h'.symm.trans (hexec s' hs hr)
  cases v with
  | none => exact ⟨rfl, rfl, .inl ⟨rfl, rfl⟩⟩
  | some v => exact ⟨rfl, rfl, .inr rfl⟩

/-- Settles O22: each command ends as the read of its width. -/
theorem readCommandsGiveTheNextBits : Obligations.ReadCommandsGiveTheNextBits :=
  ⟨⟨decode_encode (i := .rdBit) rfl, decode_encode (i := .rdByte) rfl, decode_encode (i := .rdInt32) rfl,
      decode_encode (i := .rdInt64) rfl⟩,
    fun _ => ⟨readsNext_of_readToRes (by decide) rfl, readsNext_of_readToRes (by decide) rfl,
      readsNext_of_readToRes (by decide) rfl, readsNext_of_readToRes (by decide) rfl⟩⟩

/-- Settles O23: a legal width is a read of that many bits, and at least one. -/
theorem rdBitsByWidth : Obligations.RdBitsByWidth := by
  refine fun w hw => ⟨decode_rdBits hw, fun s => ⟨fun hl => ?_, fun hl => ?_⟩⟩
  · have hlow : 1 ≤ w := hl.left
    exact readsNext_of_readToRes hlow (exec_rdBits_legal (decide_eq_true hl) s)
  · have hill : ¬ widthLegal w = true := by
      rw [widthLegal, decide_eq_true_iff]
      omega
    exact exec_rdBits_illegal hill s

/-- Settles O21: at RPOS 0 no bit remains just when SRC has none. -/
theorem rdOpenRewindsTheReader : Obligations.RdOpenRewindsTheReader := by
  refine ⟨decode_encode (i := .rdOpen) rfl, fun s => ⟨rfl, ?_⟩⟩
  rw [State.statusWord_getLsbD_seven, State.exhausted_iff_le]
  simp

/-- Settles O24: within SRC the cursor is at or past the end only at the end. -/
theorem exhaustedTellsWhetherABitRemains : Obligations.ExhaustedTellsWhetherABitRemains := by
  refine ⟨decode_encode (i := .rdExhausted) rfl, fun s hr => ?_⟩
  have hend : s.exhausted = true ↔ s.rpos = 8 * s.src.length := State.exhausted_iff_le.trans hr.ge_iff_eq
  refine ⟨?_, hend, State.exhausted_iff_rdBit⟩
  simp only [← hend]
  rfl

end Sys2Proof.Machine

/-! The writer commands (41_writer.md): what each gives as a function of ARG and the writer registers, said once, and the
statements derived from that. -/

namespace Sys2Proof.Machine

/-! ## What a writer command gives -/

/-- The state as a writer command leaves it: the writer registers and the code (41_writer.md R180). -/
def State.endWriter (w : Writer) (e : ResultCode) (s : State) : State := (s.withWriter w).withCode e

/-- An operation that ARG and the writer registers determine: from every state with these it leaves the same writer
registers and the same code, and where it fails the writer registers are as they were (41_writer.md R180). -/
def DependsOnlyOnWriter (f : State → Host.Outcome State Fault Refusal) : Prop :=
  ∀ v w, ∃ w' e, (e ≠ .ok → w' = w) ∧ ∀ s : State, s.arg = v → s.writer = w → f s = .next (s.endWriter w' e)

theorem done_dependsOnlyOnWriter (g : Writer → Writer) :
    DependsOnlyOnWriter fun s => .next (s.withWriter (g s.writer)).done := by
  refine fun _ w => ⟨g w, .ok, fun h => absurd rfl h, ?_⟩
  rintro s rfl rfl
  rfl

theorem raise_dependsOnlyOnWriter (e : ResultCode) : DependsOnlyOnWriter fun s => .next (s.raise e) := by
  refine fun _ w => ⟨w, e, fun _ => rfl, ?_⟩
  rintro s rfl rfl
  rfl

/-- Whether ARG fits is decided by ARG, and then the bits written are ARG's or none. -/
theorem writeArg_dependsOnlyOnWriter (n : Nat) : DependsOnlyOnWriter fun s => .next (s.writeArg n) := by
  intro v w
  rcases Nat.lt_or_ge v.toNat (2 ^ n) with h | h
  · refine ⟨w.pushBits (bitsOf n v.toNat), .ok, fun hc => absurd rfl hc, ?_⟩
    rintro s rfl rfl
    exact congrArg _ (State.writeArg_fits h)
  · refine ⟨w, .invalidArgument, fun _ => rfl, ?_⟩
    rintro s rfl rfl
    exact congrArg _ (State.writeArg_reject h)

/-- Every ARG fits 64 bits, so WR_INT64 ends as the other write commands do (41_writer.md R187). -/
theorem exec_wrInt64_eq_writeArg (s : State) : exec .wrInt64 s = .next (s.writeArg 64) := by
  rw [State.writeArg_fits s.arg.isLt]
  rfl

theorem exec_dependsOnlyOnWriter {i : Instr}
    (hi : i ∈ [.wrOpen, .wrBit, .wrByte, .wrInt32, .wrInt64, .wrFlush] ∨ ∃ w, i = .wrBits w) :
    DependsOnlyOnWriter (exec i) := by
  cases i with
  | wrOpen => exact done_dependsOnlyOnWriter fun _ => ⟨[], 0, 0⟩
  | wrBit => exact writeArg_dependsOnlyOnWriter 1
  | wrByte => exact writeArg_dependsOnlyOnWriter 8
  | wrInt32 => exact writeArg_dependsOnlyOnWriter 32
  | wrInt64 =>
    rw [funext exec_wrInt64_eq_writeArg]
    exact writeArg_dependsOnlyOnWriter 64
  | wrBits w =>
    by_cases hl : widthLegal w = true
    · rw [funext (exec_wrBits_legal hl)]
      exact writeArg_dependsOnlyOnWriter w
    · rw [funext (exec_wrBits_illegal hl)]
      exact raise_dependsOnlyOnWriter .invalidArgument
  | wrFlush => exact done_dependsOnlyOnWriter Writer.flush
  | nop | rdOpen | rdBit | rdByte | rdInt32 | rdInt64 | rdBits | rdExhausted | hufCompress | hufDecompress | lzwCompress
    | lzwDecompress | arcPack | arcUnpack => simp at hi

/-! ## The bits a write appends -/

theorem State.WriterInv.wf {s : State} (h : s.WriterInv) : s.writer.Wf := h

/-- How many bits are pending and how many bytes are complete after some bits are written (41_writer.md R181). -/
theorem Writer.pushBits_counts {w : Writer} (h : w.Wf) (bits : Bits) :
    (w.pushBits bits).wcnt = (w.wcnt + bits.length) % 8 ∧
      (w.pushBits bits).dst.length = w.dst.length + (w.wcnt + bits.length) / 8 := by
  have hcnt : (w.pushBits bits).wcnt < 8 := (Writer.pushBits_wf h bits).left
  have hlen := congrArg List.length (Writer.pushBits_bits h bits)
  rw [List.length_append, Writer.bits_length, Writer.bits_length] at hlen
  omega

/-- The pending output stream grows by the field written (41_writer.md R181). -/
theorem State.pendingOut_writeBits {s : State} (h : s.WriterInv) (v n : Nat) :
    (s.writeBits v n).pendingOut = s.pendingOut ++ fieldOf n v := by
  rw [State.pendingOut_eq, State.pendingOut_eq, State.writeBits, State.writeBitList_writer, Writer.pushBits_bits h.wf,
    fieldOf_eq]

/-- A command that ends as a write of ARG as `n` bits does what 41_writer.md R180 and R181 say. -/
theorem writesArg_of_writeArg {i : Instr} {n : Nat} {s : State} (hs : s.WriterInv)
    (h : exec i s = .next (s.writeArg n)) : WritesArg i n s := by
  refine ⟨fun hfits => ?_, fun hle => h.trans (congrArg _ (State.writeArg_reject hle))⟩
  obtain ⟨hcnt, hdst⟩ := Writer.pushBits_counts hs.wf (bitsOf n s.arg.toNat)
  obtain ⟨_, hacc⟩ := Writer.pushBits_wf hs.wf (bitsOf n s.arg.toNat)
  rw [bitsOf_length, State.writer_wcnt] at hcnt hdst
  rw [hcnt] at hacc
  refine ⟨_, _, ?_, hdst, hacc, ?_⟩
  · rw [h, State.writeArg_fits hfits, ← hcnt]
    rfl
  · rw [← State.pendingOut_writeBits hs, ← hcnt]
    rfl

theorem decode_wrBits {w : Nat} (hw : w < 64) : decode (BitVec.ofNat 32 (0x15000000 + w)) = .instr (.wrBits w) :=
  encode_wrBits w ▸ decode_encode (decide_eq_true hw)

theorem not_widthLegal {w : Nat} (h : w < 1 ∨ 32 < w) : ¬ widthLegal w = true := by
  rw [widthLegal, decide_eq_true_iff]
  omega

/-- STATUS.WCNT is bits 6:4 (10_state.md R36). -/
theorem State.statusWord_extractLsb'_wcnt (s : State) : s.statusWord.extractLsb' 4 3 = BitVec.ofNat 3 s.wcnt := by
  rw [State.statusWord, BitVec.extractLsb'_append_eq_of_le (Nat.le_refl 4)]
  exact BitVec.extractLsb'_append_eq_right

/-! ## The statements -/

/-- Settles O26: both runs give what the one ARG and the writer registers determine. -/
theorem writerCommandsTouchOnlyTheWriter : Obligations.WriterCommandsTouchOnlyTheWriter := by
  intro i s t hi h
  obtain ⟨w, e, hfail, hexec⟩ := exec_dependsOnlyOnWriter hi s.arg s.writer
  cases h.symm.trans (hexec s rfl rfl)
  refine ⟨rfl, fun hc => ?_, fun s' t' harg hd ha hn h' => ?_⟩
  · cases hfail hc
    exact ⟨rfl, rfl, rfl⟩
  · have hw : s'.writer = s.writer := by rw [State.writer, State.writer, hd, ha, hn]
    cases h'.symm.trans (hexec s' harg hw)
    exact ⟨rfl, rfl, rfl, rfl⟩

/-- Settles O28: each command ends as the write of ARG in its width. -/
theorem writeCommandsAppendTheBits : Obligations.WriteCommandsAppendTheBits :=
  ⟨⟨decode_encode (i := .wrBit) rfl, decode_encode (i := .wrByte) rfl, decode_encode (i := .wrInt32) rfl,
      decode_encode (i := .wrInt64) rfl⟩,
    fun s hs => ⟨writesArg_of_writeArg hs rfl, writesArg_of_writeArg hs rfl, writesArg_of_writeArg hs rfl,
      writesArg_of_writeArg hs (exec_wrInt64_eq_writeArg s)⟩⟩

/-- Settles O29: a legal width is a write of ARG in that many bits. -/
theorem wrBitsByWidth : Obligations.WrBitsByWidth := fun _ hw =>
  ⟨decode_wrBits hw, fun s hs =>
    ⟨fun hl => writesArg_of_writeArg hs (exec_wrBits_legal (decide_eq_true hl) s),
      fun hl => exec_wrBits_illegal (not_widthLegal hl) s⟩⟩

/-- Settles O30: what `Writer.flush_spec` says of the writer registers, and with nothing pending `Writer.flush_idle`. -/
theorem flushPadsWithZeros : Obligations.FlushPadsWithZeros := by
  refine ⟨decode_encode (i := .wrFlush) rfl, fun s hs => ?_⟩
  obtain ⟨hcnt, hacc, hdst⟩ := Writer.flush_spec hs.wf
  refine ⟨s.writer.flush.dst, ?_, ?_, fun h0 => ?_⟩
  · rw [← hacc, ← hcnt]
    rfl
  · rw [streamOf_eq, hdst, State.pendingOut_eq]
    rfl
  · rw [Writer.flush_idle h0, State.writer_dst]

/-- Settles O27: DST, WACC and WCNT are those of the empty writer, and STATUS.WCNT shows the 0. -/
theorem wrOpenEmptiesTheWriter : Obligations.WrOpenEmptiesTheWriter :=
  ⟨decode_encode (i := .wrOpen) rfl, fun _ => ⟨rfl, State.statusWord_extractLsb'_wcnt _⟩⟩

end Sys2Proof.Machine

/-! The build of the Huffman trie (42_huffman.md R212 to R215): which pair an extraction takes, the queue the build starts
from, what the trie takes over from it, and the statements derived from that. -/

namespace Sys2Proof.Machine

/-! ## Extraction -/

theorem pairBefore_iff {x y : WTrie × Nat} : pairBefore x y = true ↔ ComesBefore x y := decide_eq_true_iff

/-- Everything an extraction from a non-empty queue can do: it keeps the head, or a pair of the tail that comes before it. -/
theorem extractMin_cons {x m : WTrie × Nat} {pq rest : List (WTrie × Nat)} (h : extractMin (x :: pq) = some (m, rest)) :
    (m = x ∧ rest = pq ∧ ∀ n others, extractMin pq = some (n, others) → ¬ ComesBefore n x) ∨
      ∃ others, extractMin pq = some (m, others) ∧ rest = x :: others ∧ ComesBefore m x := by
  rw [extractMin] at h
  split at h
  · next hnone =>
    cases h
    exact .inl ⟨rfl, rfl, by simp [hnone]⟩
  · next n others hsome =>
    split at h
    · next hbefore =>
      cases h
      exact .inr ⟨others, hsome, rfl, pairBefore_iff.mp hbefore⟩
    · next hbefore =>
      cases h
      refine .inl ⟨rfl, rfl, fun n' others' h' => ?_⟩
      cases hsome.symm.trans h'
      exact fun hcomes => hbefore (pairBefore_iff.mpr hcomes)

/-- The order of the pairs is total: a pair that does not come before another has a greater weight, or the same weight and
no smaller number. -/
theorem not_comesBefore_iff {x m : WTrie × Nat} :
    ¬ ComesBefore x m ↔ m.1.weight < x.1.weight ∨ (m.1.weight = x.1.weight ∧ m.2 ≤ x.2) := by
  unfold ComesBefore
  omega

theorem not_comesBefore_trans {x y z : WTrie × Nat} (hx : ¬ ComesBefore y x) (hy : ¬ ComesBefore z y) :
    ¬ ComesBefore z x := by
  unfold ComesBefore at *
  omega

theorem ComesBefore.asymm {x y : WTrie × Nat} (h : ComesBefore x y) : ¬ ComesBefore y x := by
  unfold ComesBefore at *
  omega

/-- No other pair comes before the one extracted, whatever the numbers of the pairs. -/
theorem extractMin_least {pq rest : List (WTrie × Nat)} {m : WTrie × Nat} (h : extractMin pq = some (m, rest)) :
    ∀ z ∈ rest, ¬ ComesBefore z m := by
  induction pq generalizing m rest with
  | nil => cases h
  | cons x pq ih =>
    rcases extractMin_cons h with ⟨rfl, rfl, hkeep⟩ | ⟨others, htail, rfl, hbefore⟩
    · intro z hz
      obtain ⟨⟨n, others⟩, hn⟩ := Option.ne_none_iff_exists'.mp fun hnone =>
        List.ne_nil_of_mem hz (extractMin_none.mp hnone)
      rcases List.mem_cons.mp ((extractMin_perm hn).mem_iff.mp hz) with rfl | hz
      · exact hkeep _ _ hn
      · exact not_comesBefore_trans (hkeep _ _ hn) (ih hn z hz)
    · intro z hz
      rcases List.mem_cons.mp hz with rfl | hz
      · exact hbefore.asymm
      · exact ih htail z hz

/-- Settles O31. -/
theorem extractMinTakesTheLeast : Obligations.ExtractMinTakesTheLeast := by
  refine fun pq => ⟨fun hne => ?_, fun m rest h => ⟨(extractMin_perm h).symm, fun x hx => ?_⟩⟩
  · obtain ⟨⟨m, rest⟩, h⟩ := Option.ne_none_iff_exists'.mp (mt extractMin_none.mp hne)
    exact ⟨m, rest, h⟩
  · exact not_comesBefore_iff.mp (extractMin_least h x hx)

/-! ## The queue the build starts from -/

theorem occurring_ascending (data : Bytes) : (occurring data).Pairwise fun a b => a.toNat < b.toNat := by
  refine List.Pairwise.filter _ (List.pairwise_map.mpr (List.Pairwise.imp_of_mem ?_ List.pairwise_lt_range))
  intro a b ha hb hlt
  rwa [BitVec.toNat_ofNat, BitVec.toNat_ofNat, Nat.mod_eq_of_lt (List.mem_range.mp ha),
    Nat.mod_eq_of_lt (List.mem_range.mp hb)]

theorem leafQueue_length (data : Bytes) : (leafQueue data).length = (occurring data).length := by simp [leafQueue_eq]

theorem leafQueue_ne_nil {data : Bytes} (h : data ≠ []) : leafQueue data ≠ [] := by
  simpa [leafQueue_eq] using occurring_ne_nil h

/-- The leaves are numbered from 0 (42_huffman.md R214). -/
theorem leafQueue_numbers (data : Bytes) : (leafQueue data).map Prod.snd = List.range (leafQueue data).length := by
  rw [leafQueue_eq, List.zipIdx_map_snd, List.range_eq_range', List.length_zipIdx]

theorem mem_leafQueue {data : Bytes} {x : WTrie × Nat} (h : x ∈ leafQueue data) :
    ∃ s, x.1 = .leaf s (tally data s) := by
  have hfst : x.1 ∈ (occurring data).map fun s => WTrie.leaf s (tally data s) := by
    rw [← List.zipIdx_map_fst 0 ((occurring data).map _), ← leafQueue_eq]
    exact List.mem_map_of_mem h
  obtain ⟨s, _, hs⟩ := List.mem_map.mp hfst
  exact ⟨s, hs.symm⟩

/-- The build merges the queue in the order of 42_huffman.md R214. -/
theorem buildTrie_mergesTo {data : Bytes} (h : data ≠ []) :
    MergesTo (leafQueue data).length (leafQueue data) (buildTrie data) := by
  have hnumbers := leafQueue_numbers data
  obtain ⟨root, hroot, hmerges⟩ := mergeLoop_mergesTo (leafQueue data).length (leafQueue data).length _
    (leafQueue_ne_nil h) le_rfl (hnumbers ▸ List.nodup_range) fun x hx =>
      List.mem_range.mp (hnumbers ▸ List.mem_map_of_mem hx)
  rwa [buildTrie, hroot, Option.getD_some]

/-! ## What the trie takes over from the queue -/

theorem buildTrie_weightsAdd {data : Bytes} (h : data ≠ []) : (buildTrie data).WeightsAdd := by
  refine (buildTrie_builtFrom h).adds fun x hx => ?_
  obtain ⟨s, hs⟩ := mem_leafQueue hx
  rw [hs]
  trivial

theorem WTrie.WeightsAdd.weight_eq {w : WTrie} (h : w.WeightsAdd) : w.weight = (w.leaves.map Prod.snd).sum := by
  induction w with
  | leaf s n => simp [WTrie.weight, WTrie.leaves]
  | internal n l r hl hr =>
    obtain ⟨hn, hleft, hright⟩ := h
    rw [WTrie.leaves, List.map_append, List.sum_append, ← hl hleft, ← hr hright]
    exact hn

/-- The counts of the symbols that occur add up to the number of bytes (42_huffman.md R212). -/
theorem sum_tally_occurring (data : Bytes) : ((occurring data).map (tally data)).sum = data.length := by
  have hperm : (occurring data).Perm data.dedup :=
    (List.perm_ext_iff_of_nodup (occurring_nodup data) data.nodup_dedup).mpr fun b => by
      rw [mem_occurring, List.mem_dedup]
  exact (hperm.map _).sum_eq.trans data.sum_map_count_dedup_eq_length

theorem buildTrie_weight {data : Bytes} (h : data ≠ []) : (buildTrie data).weight = data.length := by
  have hperm := (buildTrie_leaves h).map Prod.snd
  rw [List.map_map] at hperm
  rw [(buildTrie_weightsAdd h).weight_eq, hperm.sum_eq]
  exact sum_tally_occurring data

theorem buildTrie_symbols_nodup {data : Bytes} (h : data ≠ []) : ((buildTrie data).leaves.map Prod.fst).Nodup := by
  have hperm := (buildTrie_leaves h).map Prod.fst
  rw [List.map_map] at hperm
  exact hperm.nodup_iff.mpr (by simpa [Function.comp_def] using occurring_nodup data)

theorem mem_buildTrie_leaves {data : Bytes} (h : data ≠ []) {e : Byte × Nat} (he : e ∈ (buildTrie data).leaves) :
    e.2 = data.count e.1 ∧ e.1 ∈ data := by
  obtain ⟨s, hs, rfl⟩ := List.mem_map.mp ((buildTrie_leaves h).mem_iff.mp he)
  exact ⟨rfl, mem_occurring.mp hs⟩

/-- Settles O32: the symbols queued are `occurring data`. -/
theorem builtTrieInvariants : Obligations.BuiltTrieInvariants := by
  refine ⟨buildTrie_nil, fun data => ?_, fun data h => ?_⟩
  · exact ⟨occurring data, occurring_ascending data, fun _ => mem_occurring, leafQueue_eq data,
      fun h => leafQueue_length data ▸ buildTrie_mergesTo h⟩
  · have hcount := (buildTrie data).shape_nodeCount
    exact ⟨buildTrie_weightsAdd h, buildTrie_weight h, buildTrie_symbols_nodup h, fun _ => mem_buildTrie_leaves h,
      fun _ => mem_buildTrie_symbols, by omega, buildTrie_nodeCount_le data⟩

end Sys2Proof.Machine

/-! The Huffman code table and the encoders' output (42_huffman.md R216 to R222): no code begins another, what HUF_COMPRESS
writes, and the inputs the encoders refuse. -/

namespace Sys2Proof.Machine

/-! ## The code table -/

/-- Two paths that part at a node: neither begins the other. -/
theorem not_prefix_of_branch {p q q' : Bits} {b c : Bool} (h : b ≠ c) : ¬ p ++ [b] ++ q <+: p ++ [c] ++ q' := by
  rw [List.append_assoc, List.append_assoc, List.prefix_append_right_inj, List.singleton_append, List.singleton_append,
    List.cons_prefix_cons]
  exact fun hpre => h hpre.1

/-- No code of a walk begins another (42_huffman.md R240): the codes of two leaves part where the leaves do. -/
theorem codeWalk_prefixFree (w : WTrie) (p : Bits) :
    (codeWalk w p).Pairwise fun e f => ¬ e.2 <+: f.2 ∧ ¬ f.2 <+: e.2 := by
  induction w generalizing p with
  | leaf s n => exact List.pairwise_singleton _ _
  | internal n l r hl hr =>
    refine List.pairwise_append.mpr ⟨hl _, hr _, fun e he f hf => ?_⟩
    obtain ⟨q, hq, _⟩ := codeWalk_path he
    obtain ⟨q', hq', _⟩ := codeWalk_path hf
    rw [hq, hq']
    exact ⟨not_prefix_of_branch Bool.false_ne_true, not_prefix_of_branch Bool.false_ne_true.symm⟩

theorem codeTable_path {root : WTrie} {e : Byte × Bits} (h : e ∈ codeTable root) : root.shape.leafAt e.2 = some e.1 := by
  obtain ⟨q, hq, hpath⟩ := codeWalk_path h
  rwa [hq]

/-- Settles O33. -/
theorem codeTableIsPrefixFree : Obligations.CodeTableIsPrefixFree :=
  fun root => ⟨codeWalk_symbols root [], codeWalk_prefixFree root [], fun _ => codeTable_path⟩

/-! ## The stream HUF_COMPRESS writes -/

/-- The codes of the bytes of an input are paths to their leaves, in every trie that has a leaf for each. -/
theorem map_leafAt_codeOf {root : WTrie} {data : Bytes} (h : ∀ b ∈ data, b ∈ root.leaves.map Prod.fst) :
    (data.map (codeOf (codeTable root))).map root.shape.leafAt = data.map some := by
  rw [List.map_map]
  exact List.map_congr_left fun b hb => codeOf_path (h b hb)

theorem hufEncode_eq (data : Bytes) :
    hufEncode data = (buildTrie data).shape.preamble ++ fieldOf 32 data.length ++
      (data.map (codeOf (codeTable (buildTrie data)))).flatten := by
  rw [hufEncode, serialize_eq, payload, fieldOf_eq, List.flatMap_def]

/-- Settles O34. -/
theorem hufCompressWritesTheStream : Obligations.HufCompressWritesTheStream := by
  refine fun s h => ⟨_, _, _, exec_hufCompress_accepted h, holdsLength_lengthValue _,
    map_leafAt_codeOf fun _ => mem_buildTrie_symbols, ?_⟩
  rw [← hufEncode_eq]
  exact packs_packBits _

/-! ## Refusals -/

/-- An encoder that refuses its input leaves an empty DST and RES as it was (42_huffman.md R222; 43_lzw.md R266). -/
theorem State.endCodec_refused (s : State) (p : Option Nat) :
    s.endCodec (encoderOutcome p none) =
      { s with rpos := p.getD s.rpos, dst := [], wacc := 0, wcnt := 0, code := .invalidArgument } := rfl

theorem hufOutput_refused {data : Bytes} (h : 2 ^ 32 - 1 < data.length) : hufOutput data = none := if_pos h

theorem not_inAlphabet {cfg : Config} {data : Bytes} (h : ∃ b ∈ data, cfg.R ≤ b.toNat) : inAlphabet cfg data = false := by
  obtain ⟨b, hb, hR⟩ := h
  exact Bool.eq_false_iff.mpr fun hall => absurd (inAlphabet_iff.mp hall b hb) (Nat.not_lt.mpr hR)

theorem lzwOutput_refused {cfg : Config} {data : Bytes} (h : ∃ b ∈ data, cfg.R ≤ b.toNat) : lzwOutput cfg data = none := by
  rw [lzwOutput, not_inAlphabet h, if_neg Bool.false_ne_true]

theorem not_all_entryFits {es : List Entry} (h : ∃ e ∈ es, 2 ^ 32 ≤ e.name.length ∨ 2 ^ 64 ≤ e.content.length) :
    es.all entryFits = false := by
  obtain ⟨e, he, hlong⟩ := h
  refine List.all_eq_false.mpr ⟨e, he, fun hfits => ?_⟩
  obtain ⟨hname, hcontent⟩ := of_decide_eq_true hfits
  omega

theorem packOutput_refused {cfg : Config} {ein : List Entry}
    (h : (∃ e ∈ ein, 2 ^ 32 ≤ e.name.length ∨ 2 ^ 64 ≤ e.content.length) ∨ ∃ b ∈ blobOf cfg ein, cfg.R ≤ b.toNat) :
    packOutput cfg ein = none := by
  refine if_neg (Bool.eq_false_iff.mp ?_)
  rcases h with h | h
  · rw [not_all_entryFits h, Bool.false_and]
  · rw [not_inAlphabet h, Bool.and_false]

/-- Settles O46. -/
theorem encodersRefuseTheseInputs : Obligations.EncodersRefuseTheseInputs := by
  refine fun s => ⟨fun h => ?_, fun h => ?_, fun h => ?_⟩
  · rw [exec_hufCompress, hufOutput_refused h, State.endCodec_refused, Option.getD_some]
  · rw [exec_lzwCompress, lzwOutput_refused h, State.endCodec_refused, Option.getD_some]
  · rw [exec_arcPack, packOutput_refused h, State.endCodec_refused, Option.getD_none]

end Sys2Proof.Machine

/-! The Huffman decoder (42_huffman.md R230 to R239): how HUF_DECOMPRESS ends, from what `hufDecode` makes of the stream,
where a stream that ends too early or passes the node limit stops it, and the round trip. -/

namespace Sys2Proof.Machine

/-! ## How HUF_DECOMPRESS ends -/

theorem exec_hufDecompress_ok {s : State} {out : Bytes} {rest : Bits}
    (h : hufDecode (streamOf s.src) = ⟨out, rest, none⟩) :
    exec .hufDecompress s =
      .next { s with rpos := 8 * s.src.length - rest.length, dst := out, wacc := 0, wcnt := 0,
                     res := lengthValue out.length, code := .ok } := by
  rw [exec_hufDecompress, ← streamOf_eq, h]
  rfl

theorem exec_hufDecompress_fail {s : State} {out : Bytes} {rest : Bits} {e : ResultCode}
    (h : hufDecode (streamOf s.src) = ⟨out, rest, some e⟩) :
    exec .hufDecompress s =
      .next { s with rpos := 8 * s.src.length - rest.length, dst := out, wacc := 0, wcnt := 0, code := .corruptData } := by
  rw [exec_hufDecompress, ← streamOf_eq, h]
  rfl

/-- A stream that ends too early leaves the reader exhausted (42_huffman.md R235; 40_reader.md R151). -/
theorem exec_hufDecompress_endOfStream {s : State} {out : Bytes}
    (h : hufDecode (streamOf s.src) = ⟨out, [], some .endOfStream⟩) :
    exec .hufDecompress s =
      .next { s with rpos := 8 * s.src.length, dst := out, wacc := 0, wcnt := 0, code := .corruptData } :=
  exec_hufDecompress_fail h

/-! ## The stages of the decoder -/

theorem hufDecode_of_readTrie_fail {bits rest : Bits} {e : ResultCode}
    (h : readTrie (hufMaxNodes + 1) 0 bits = .fail e rest) : hufDecode bits = ⟨[], rest, some e⟩ := by
  rw [hufDecode, h]

/-- The decoder reads the preamble of a trie within the node limit to its end. -/
theorem readTrie_preamble_start {t : Trie} (ht : t.nodeCount ≤ hufMaxNodes) (rest : Bits) :
    readTrie (hufMaxNodes + 1) 0 (t.preamble ++ rest) = .ok (t, 0 + t.nodeCount) rest :=
  readTrie_preamble t _ 0 rest (by omega) (by omega)

/-- After the preamble and the length field the decoder walks. -/
theorem hufDecode_length {t : Trie} (ht : t.nodeCount ≤ hufMaxNodes) {n : Nat} (hn : n < 2 ^ 32) (rest : Bits) :
    hufDecode (t.preamble ++ fieldOf 32 n ++ rest) = decodeSymbols t n rest := by
  rw [List.append_assoc, fieldOf_eq]
  simp only [hufDecode, readTrie_preamble_start ht, takeBits_field hn]

/-! ## A stream that ends too early -/

theorem hufDecode_cut_preamble {nodes : List (Option Byte)} {node : Option Byte} {cut missing : Bits}
    (hlen : nodes.length < hufMaxNodes) (hleft : 0 < subtreesLeft 1 nodes) (hmissing : missing ≠ [])
    (hcut : cut ++ missing = nodeBits node) :
    hufDecode (nodes.flatMap nodeBits ++ cut) = ⟨[], [], some .endOfStream⟩ := by
  rcases readTrie_cut hmissing hcut (hufMaxNodes + 1) 0 0 nodes (by omega) (by omega) hleft with
    ⟨_, left, hpos, _⟩ | hfail
  · cases left <;> exact absurd hpos (Nat.lt_irrefl 0)
  · exact hufDecode_of_readTrie_fail hfail

theorem hufDecode_cut_length {t : Trie} (ht : t.nodeCount ≤ hufMaxNodes) {part : Bits} (hpart : part.length < 32) :
    hufDecode (t.preamble ++ part) = ⟨[], [], some .endOfStream⟩ := by
  simp only [hufDecode, readTrie_preamble_start ht, takeBits_short hpart]

theorem decodeSymbols_inside {t : Trie} {part : Bits} (h : t.stopsInside part = true) (n : Nat) :
    decodeSymbols t (n + 1) part = ⟨[], [], some .endOfStream⟩ := by
  rw [decodeSymbols, walkSymbol_inside h]

theorem hufDecode_cut_walk {t : Trie} (ht : t.nodeCount ≤ hufMaxNodes) {n : Nat} (hn : n < 2 ^ 32)
    {codes : List (Bits × Byte)} (hlen : codes.length < n) (hcodes : ∀ e ∈ codes, t.leafAt e.1 = some e.2) {part : Bits}
    (hpart : t.stopsInside part = true) :
    hufDecode (t.preamble ++ fieldOf 32 n ++ codes.flatMap Prod.fst ++ part) =
      ⟨codes.map Prod.snd, [], some .endOfStream⟩ := by
  obtain ⟨k, rfl⟩ := Nat.exists_eq_add_of_lt hlen
  rw [List.append_assoc, hufDecode_length ht hn, Nat.add_assoc, decodeSymbols_paths t codes _ part hcodes,
    decodeSymbols_inside hpart, DecodeResult.emit, List.append_nil]

/-- Settles O37. -/
theorem hufDecompressTruncated : Obligations.HufDecompressTruncated := by
  refine fun s => ⟨fun nodes node cut missing hlen hleft hmissing hcut hs => ?_, fun t ht =>
    ⟨fun part hpart hs => ?_, fun n codes part hn hlen hcodes hpart hs => ?_⟩⟩
  · exact exec_hufDecompress_endOfStream (hs ▸ hufDecode_cut_preamble hlen hleft hmissing hcut)
  · exact exec_hufDecompress_endOfStream (hs ▸ hufDecode_cut_length ht hpart)
  · rw [← List.flatMap_def] at hs
    exact exec_hufDecompress_endOfStream (hs ▸ hufDecode_cut_walk ht hn hlen hcodes hpart)

/-! ## The node limit -/

/-- Reading a preamble whose nodes reach the limit with a subtree still to be read: either a whole trie is read and the
nodes left reach the limit in the same way, or the next node is refused before its tag bit is read (42_huffman.md R232). -/
theorem readTrie_at_limit (rest : Bits) (fuel count k : Nat) (nodes : List (Option Byte))
    (hf : hufMaxNodes < fuel + count) (hn : count + nodes.length = hufMaxNodes) (hs : 0 < subtreesLeft (k + 1) nodes) :
    (∃ t left, 0 < subtreesLeft k left ∧ left.length < nodes.length ∧
      readTrie fuel count (nodes.flatMap nodeBits ++ rest) =
        .ok (t, hufMaxNodes - left.length) (left.flatMap nodeBits ++ rest)) ∨
      readTrie fuel count (nodes.flatMap nodeBits ++ rest) = .fail .corruptData rest := by
  induction fuel generalizing count k nodes with
  | zero => omega
  | succ fuel ih =>
    match nodes with
    | [] => exact .inr (readTrie_limit fuel rest (by rw [List.length_nil] at hn; omega))
    | some sym :: nodes =>
      rw [List.length_cons] at hn
      refine .inl ⟨.leaf sym, nodes, hs, Nat.lt_succ_self _, ?_⟩
      have hleaf := readTrie_preamble (.leaf sym) (fuel + 1) count (nodes.flatMap nodeBits ++ rest)
        (Nat.le_add_left 1 fuel) (by simp only [Trie.nodeCount]; omega)
      rw [← List.append_assoc] at hleaf
      rw [show hufMaxNodes - nodes.length = count + 1 by omega]
      exact hleaf
    | none :: nodes =>
      rw [List.length_cons] at hn
      rw [List.flatMap_cons, List.append_assoc, nodeBits, List.singleton_append, readTrie_internal fuel _ (by omega)]
      rcases ih (count + 1) (k + 1) nodes (by omega) (by omega) hs with ⟨l, left, hk, hlt, hl⟩ | hl
      · rcases ih (hufMaxNodes - left.length) k left (by omega) (by omega) hk with ⟨r, left', hk', hlt', hr⟩ | hr
        · exact .inl ⟨.internal l r, left', hk', by rw [List.length_cons]; omega,
            by simp only [hl, hr, Parse.andThen]⟩
        · exact .inr (by simp only [hl, hr, Parse.andThen])
      · exact .inr (by rw [hl]; rfl)

theorem hufDecode_at_limit {nodes : List (Option Byte)} (hlen : nodes.length = hufMaxNodes)
    (hleft : 0 < subtreesLeft 1 nodes) (rest : Bits) :
    hufDecode (nodes.flatMap nodeBits ++ rest) = ⟨[], rest, some .corruptData⟩ := by
  rcases readTrie_at_limit rest (hufMaxNodes + 1) 0 0 nodes (by omega) (by omega) hleft with ⟨_, left, hpos, _⟩ | hfail
  · cases left <;> exact absurd hpos (Nat.lt_irrefl 0)
  · exact hufDecode_of_readTrie_fail hfail

/-- Settles O38. -/
theorem hufNodeLimit : Obligations.HufNodeLimit :=
  ⟨fun _ _ rest hlen hleft hs => exec_hufDecompress_fail (hs ▸ hufDecode_at_limit hlen hleft rest),
    buildTrie_nodeCount_le⟩

/-! ## Whole streams -/

/-- Settles O36: the decoding is that of `hufDecode_stream`. -/
theorem hufDecompressReadsAnyTrie : Obligations.HufDecompressReadsAnyTrie := by
  intro s t codes rest ht hlen hcodes hs
  rw [← List.flatMap_def, fieldOf_eq] at hs
  refine ⟨_, ?_, exec_hufDecompress_ok (hs ▸ hufDecode_stream ht hlen hcodes rest)⟩
  rw [List.length_map]
  exact holdsLength_lengthValue _

/-- The stream of any encoder trie within the node limit that has a leaf for each byte of the data decodes to the data,
whatever policy built the trie (42_huffman.md R239). -/
theorem hufDecode_codeTable {root : WTrie} {data : Bytes} (hroot : root.shape.nodeCount ≤ hufMaxNodes)
    (hlen : data.length ≤ 2 ^ 32 - 1) (hleaf : ∀ b ∈ data, b ∈ root.leaves.map Prod.fst) (pad : Bits) :
    hufDecode (root.shape.preamble ++ fieldOf 32 data.length ++ data.flatMap (codeOf (codeTable root)) ++ pad) =
      ⟨data, pad, none⟩ := by
  have hpath : ∀ e ∈ data.map fun b => (codeOf (codeTable root) b, b), root.shape.leafAt e.1 = some e.2 := by
    intro e he
    obtain ⟨b, hb, rfl⟩ := List.mem_map.mp he
    exact codeOf_path (hleaf b hb)
  have hstream := hufDecode_stream hroot (by rw [List.length_map]; omega) hpath pad
  rw [List.length_map, List.flatMap_map, List.map_map, ← fieldOf_eq] at hstream
  exact hstream.trans (congrArg (DecodeResult.mk · pad none) (List.map_id data))

theorem step_loadSrc {s : State} {data : Bytes} {rest : List HostAction} (hs : s.host = .loadSrc data :: rest) :
    step s = .next ((s.withHost rest).loadSrc data) := step_action hs

/-- The outcome of HUF_DECOMPRESS on what HUF_COMPRESS wrote. -/
theorem decoderOutcome_hufEncode {data : Bytes} (h : data.length ≤ 2 ^ 32 - 1) (n : Nat) :
    (decoderOutcome n (hufDecode (streamBits (packBits (hufEncode data))))).dst = data ∧
      (decoderOutcome n (hufDecode (streamBits (packBits (hufEncode data))))).last.code = .ok := by
  obtain ⟨pad, hpad⟩ := exists_streamBits_packBits (hufEncode data)
  rw [hpad, hufDecode_hufEncode h]
  exact ⟨rfl, rfl⟩

/-- `LOAD_SRC`, HUF_COMPRESS, `LOAD_SRC DST` and HUF_DECOMPRESS, as four steps of the machine. -/
theorem run_huf_roundTrip {s : State} {data : Bytes} {rest : List HostAction} (h : data.length ≤ 2 ^ 32 - 1)
    (hs : s.host = .loadSrc data :: command .hufCompress :: .loadSrcDst :: command .hufDecompress :: rest) :
    ∃ t : State, Sys2Proof.core.run 4 s = .next t ∧ t.code = .ok ∧ t.dst = data := by
  have hout : encoderOutcome (some (8 * data.length)) (hufOutput data) =
      encoderOutcome (some (8 * data.length)) (some (hufEncode data)) := by rw [hufOutput_accepted h]
  obtain ⟨t, ht, hdst, hcode⟩ := run_codec_loadSrcDst_codec (i := .hufCompress) (j := .hufDecompress) rfl rfl
    (s := (s.withHost (command .hufCompress :: .loadSrcDst :: command .hufDecompress :: rest)).loadSrc data) rfl
    (congrArg some hout) rfl 0
  obtain ⟨hdst', hcode'⟩ := decoderOutcome_hufEncode h (packBits (hufEncode data)).length
  exact ⟨t, (core_run_succ (step_loadSrc hs) 3).trans ht, hcode.trans hcode', hdst.trans hdst'⟩

/-- Settles O39: the encoder's stream, and that of any trie policy, decode to the data. -/
theorem hufRoundTrip : Obligations.HufRoundTrip :=
  ⟨fun _ _ _ => run_huf_roundTrip, fun _ _ _ pad hlen hroot hleaf hs =>
    ⟨_, exec_hufDecompress_ok (hs ▸ hufDecode_codeTable hroot hlen hleaf pad), rfl, rfl⟩⟩

end Sys2Proof.Machine

/-! The LZW decoder (43_lzw.md R270 to R279): how LZW_DECOMPRESS ends, from what `lzwDecode` makes of the stream, how much
the codecs can write, and the round trip. -/

namespace Sys2Proof.Machine

variable {cfg : Config}

/-! ## How LZW_DECOMPRESS ends -/

theorem exec_lzwDecompress_ok {s : State} {out : Bytes} {rest : Bits}
    (h : lzwDecode s.cfg (streamOf s.src) = ⟨out, rest, none⟩) :
    exec .lzwDecompress s =
      .next { s with rpos := 8 * s.src.length - rest.length, dst := out, wacc := 0, wcnt := 0,
                     res := lengthValue out.length, code := .ok } := by
  rw [exec_lzwDecompress, ← streamOf_eq, h]
  rfl

theorem exec_lzwDecompress_fail {s : State} {out : Bytes} {rest : Bits} {e : ResultCode}
    (h : lzwDecode s.cfg (streamOf s.src) = ⟨out, rest, some e⟩) :
    exec .lzwDecompress s =
      .next { s with rpos := 8 * s.src.length - rest.length, dst := out, wacc := 0, wcnt := 0, code := .corruptData } := by
  rw [exec_lzwDecompress, ← streamOf_eq, h]
  rfl

/-! ## Codewords that spell strings, then something else -/

theorem sentinel_fits (cfg : Config) : cfg.R < 2 ^ cfg.W := by
  obtain ⟨_, ⟨hlow, hhigh⟩, _⟩ := cfg.legal
  omega

/-- Settles O42: the sentinel is one of the two stops of `StopsAfter`. -/
theorem lzwDecompressReadsSpelledStreams : Obligations.LzwDecompressReadsSpelledStreams :=
  fun s _ _ _ hspells hs => ⟨_, holdsLength_lengthValue _,
    exec_lzwDecompress_ok (lzwDecode_stops hspells ⟨s.cfg.R, sentinel_fits _, .inl rfl, hs⟩)⟩

/-- Decoding emits the strings the codewords spell and goes on from where the decoder then stands. -/
theorem lzwDecode_spelled {codes : List Nat} {strings : List Bytes} (hs : Spells cfg codes strings) {rest : Bits}
    (h : codes = [] ∨ rest ≠ []) :
    ∃ d prev, DecoderAt cfg strings codes.length d prev ∧
      lzwDecode cfg (codes.flatMap (fieldOf cfg.W) ++ rest) = (lzwRun cfg d prev rest).emit strings.flatten := by
  rw [lzwDecode_eq_run, show fieldOf cfg.W = bitsOf cfg.W from funext (fieldOf_eq _)]
  rcases h with rfl | hne
  · obtain rfl := List.length_eq_zero_iff.mp hs.1.symm
    exact ⟨_, _, .start [], rfl⟩
  · exact lzwRun_spelled hs hne (Nat.zero_le _) (.start strings)

/-- Before codeword `j` the codewords above `R + j`, and those from `L` on, are unassigned (43_lzw.md R271, R272). -/
theorem DecoderAt.resolves_none {strings : List Bytes} {j c : Nat} {d : Dict} {prev : Option Bytes}
    (h : DecoderAt cfg strings j d prev) (hR : cfg.R < c) (hc : cfg.L ≤ c ∨ cfg.R + j < c) :
    resolveCode cfg d prev c = none := by
  have hnext := h.next
  have hprev := h.previous
  rw [resolveCode, if_neg (by omega)]
  split
  · next hself =>
    obtain ⟨hcode, hroom⟩ := Bool.and_eq_true_iff.mp hself
    have hcn := of_decide_eq_true hcode
    have hlt := of_decide_eq_true hroom
    rw [hprev, if_pos (by omega), Option.map_none]
  · rfl

/-- Settles O43. -/
theorem lzwDecompressOtherEnds : Obligations.LzwDecompressOtherEnds := by
  refine fun s codes strings hspells => ⟨fun c rest hR hfits hc hrest hs => ?_, fun c hfits hs => ?_,
    fun part hpart hne hs => ?_⟩
  · obtain ⟨d, prev, hat, hrun⟩ := lzwDecode_spelled hspells (rest := bitsOf s.cfg.W c ++ rest) (.inr (by simp [hrest]))
    rw [lzwRun_unassigned hfits (by rw [sentinel]; omega) hrest (hat.resolves_none hR hc), DecodeResult.emit,
      List.append_nil] at hrun
    rw [List.flatMap_append, List.flatMap_singleton, fieldOf_eq, List.append_assoc] at hs
    exact exec_lzwDecompress_fail (hs ▸ hrun)
  · have hstop : StopsAfter s.cfg codes [] (streamOf s.src) := ⟨c, hfits, .inr rfl, by rw [hs, List.append_nil]⟩
    exact ⟨_, holdsLength_lengthValue _, exec_lzwDecompress_ok (lzwDecode_stops hspells hstop)⟩
  · obtain ⟨d, prev, _, hrun⟩ := lzwDecode_spelled hspells hne
    rw [lzwRun_short hpart, DecodeResult.emit, List.append_nil] at hrun
    exact exec_lzwDecompress_fail (rest := []) (hs ▸ hrun)

/-! ## The round trip -/

/-- The input loaded, a codec command, its output loaded as the next input, and another codec command. -/
theorem run_loadSrc_codec_loadSrcDst_codec {i j : Instr} (hi : i.WellFormed) (hj : j.WellFormed) {s : State}
    {data : Bytes} {rest : List HostAction}
    (hs : s.host = .loadSrc data :: command i :: .loadSrcDst :: command j :: rest) {o o' : CodecOutcome}
    (ho : codecOutcome s.cfg data s.ein i = some o) (ho' : codecOutcome s.cfg o.dst s.ein j = some o') (k : Nat) :
    ∃ t : State, Sys2Proof.core.run (k + 4) s = Sys2Proof.core.run k t ∧ t.dst = o'.dst ∧ t.code = o'.last.code := by
  obtain ⟨t, ht, hend⟩ := run_codec_loadSrcDst_codec hi hj
    (s := (s.withHost (command i :: .loadSrcDst :: command j :: rest)).loadSrc data) rfl ho ho' k
  exact ⟨t, (core_run_succ (step_loadSrc hs) (k + 3)).trans ht, hend⟩

/-- The outcome of LZW_DECOMPRESS on what LZW_COMPRESS wrote. -/
theorem decoderOutcome_lzwEncode {data : Bytes} (h : ∀ b ∈ data, b.toNat < cfg.R) (n : Nat) :
    ∃ p, decoderOutcome n (lzwDecode cfg (streamBits (packBits (lzwEncode cfg data)))) =
      ⟨some p, data, none, .gives data.length⟩ := by
  obtain ⟨pad, hpad⟩ := exists_streamBits_packBits (lzwEncode cfg data)
  rw [hpad, lzwDecode_lzwEncode h]
  exact ⟨_, rfl⟩

/-- `LOAD_SRC`, LZW_COMPRESS, `LOAD_SRC DST` and LZW_DECOMPRESS, as four steps of the machine. -/
theorem run_lzw_roundTrip {s : State} {data : Bytes} {rest : List HostAction} (h : ∀ b ∈ data, b.toNat < s.cfg.R)
    (hs : s.host = .loadSrc data :: command .lzwCompress :: .loadSrcDst :: command .lzwDecompress :: rest) :
    ∃ t : State, Sys2Proof.core.run 4 s = .next t ∧ t.code = .ok ∧ t.dst = data := by
  have hcompress : codecOutcome s.cfg data s.ein .lzwCompress =
      some (encoderOutcome (some (8 * data.length)) (some (lzwEncode s.cfg data))) := by
    rw [codecOutcome, lzwOutput_accepted h]
  obtain ⟨p, hdecompress⟩ := decoderOutcome_lzwEncode h (packBits (lzwEncode s.cfg data)).length
  obtain ⟨t, ht, hdst, hcode⟩ := run_loadSrc_codec_loadSrcDst_codec (i := .lzwCompress) (j := .lzwDecompress) rfl rfl hs
    hcompress (congrArg some hdecompress) 0
  exact ⟨t, ht, hcode, hdst⟩

/-- Codewords below `R` spell their bytes. -/
theorem spells_bytes {data : Bytes} (h : ∀ b ∈ data, b.toNat < cfg.R) :
    Spells cfg (data.map BitVec.toNat) (data.map fun b => [b]) := by
  refine ⟨by simp, fun j c p hc hp => .inl ?_⟩
  rw [List.getElem?_map, Option.map_eq_some_iff] at hc hp
  obtain ⟨b, hb, rfl⟩ := hc
  obtain ⟨b', hb', rfl⟩ := hp
  cases hb.symm.trans hb'
  exact ⟨h b (List.mem_of_getElem? hb), by simp⟩

/-- The bytes as codewords and the sentinel decode to the bytes, as the source's scenario has it (43_lzw.md R279). -/
theorem lzwDecode_bytes {data : Bytes} (h : ∀ b ∈ data, b.toNat < cfg.R) (rest : Bits) :
    lzwDecode cfg (lzwBits cfg (data.map BitVec.toNat) ++ rest) = ⟨data, rest, none⟩ := by
  rw [lzwBits, lzwDecode_stops (spells_bytes h) ⟨cfg.R, sentinel_fits cfg, .inl rfl, rfl⟩, ← List.flatMap_def,
    List.flatMap_singleton']

/-- The input of the source's scenario, `"AAAA"` (43_lzw.md R279). -/
def scenarioInput : Bytes := [0x41, 0x41, 0x41, 0x41]

theorem scenarioInput_inAlphabet : ∀ b ∈ scenarioInput, b.toNat < Config.standard.R := by decide

theorem lzwCodes_scenarioInput :
    lzwCodes Config.standard scenarioInput.length (seedDict Config.standard) scenarioInput = [65, 257, 65] := by
  decide +kernel

theorem lzwEncode_scenarioInput :
    lzwEncode Config.standard scenarioInput = [65, 257, 65, 256].flatMap (fieldOf 12) := by
  rw [lzwEncode_eq, lzwCodes_scenarioInput]
  rfl

theorem exec_lzwCompress_packs {s : State} (h : ∀ b ∈ s.src, b.toNat < s.cfg.R) :
    ∃ t, exec .lzwCompress s = .next t ∧ t.code = .ok ∧ Packs t.dst (lzwEncode s.cfg s.src) :=
  ⟨_, exec_lzwCompress_accepted h, rfl, packs_packBits _⟩

/-- Settles O44: the first sequence of the scenario is what the encoder writes, the second the bytes themselves. -/
theorem lzwRoundTrip : Obligations.LzwRoundTrip := by
  refine ⟨fun s data rest => run_lzw_roundTrip, fun s hcfg => ⟨fun (hsrc : s.src = scenarioInput) => ?_, fun hsrc => ?_⟩⟩
  · have hrun := exec_lzwCompress_packs (s := s) (by rw [hcfg, hsrc]; exact scenarioInput_inAlphabet)
    rwa [hcfg, hsrc, lzwEncode_scenarioInput] at hrun
  · have hdecode : ∃ rest, lzwDecode s.cfg (streamOf s.src) = ⟨scenarioInput, rest, none⟩ := by
      rw [hcfg]
      rcases hsrc with ⟨k, _, hs⟩ | ⟨k, _, hs⟩ <;> rw [hs]
      · rw [← lzwEncode_scenarioInput]
        exact ⟨_, lzwDecode_lzwEncode scenarioInput_inAlphabet _⟩
      · exact ⟨_, lzwDecode_bytes scenarioInput_inAlphabet _⟩
    obtain ⟨rest, hdecode⟩ := hdecode
    exact ⟨_, exec_lzwDecompress_ok hdecode, rfl, rfl⟩

/-! ## How much LZW_DECOMPRESS can write -/

/-- Everything a codeword can resolve to: an entry of the dictionary, or the self-reference, with room in the table
(43_lzw.md R271, R272). -/
theorem resolveCode_cases {d : Dict} {prev : Option Bytes} {c : Nat} {s : Bytes}
    (h : resolveCode cfg d prev c = some s) :
    (c, s) ∈ d.entries ∨ (d.hasRoom cfg = true ∧ ∃ p, prev = some p ∧ s = selfReference p) := by
  rw [resolveCode] at h
  split at h
  · exact .inl (Dict.mem_of_stringOf h)
  · split at h
    · next hself =>
      obtain ⟨p, hp, rfl⟩ := Option.map_eq_some_iff.mp h
      exact .inr ⟨(Bool.and_eq_true_iff.mp hself).2, p, hp, rfl⟩
    · cases h

/-- The decoder's dictionary has its form and the previous string, where there is one, is as long as an entry may be. -/
structure DecoderWf (cfg : Config) (d : Dict) (prev : Option Bytes) : Prop where
  wf : d.Wf cfg
  previous : ∀ p, prev = some p → 1 ≤ p.length ∧ p.length ≤ d.next - cfg.R

theorem DecoderWf.start (cfg : Config) : DecoderWf cfg (seedDict cfg) none := ⟨seedDict_wf, nofun⟩

/-- Any codeword that resolves keeps the decoder's form; what it stands for is the next previous string. -/
theorem DecoderWf.next_codeword {d : Dict} {prev : Option Bytes} {c : Nat} {s : Bytes} (h : DecoderWf cfg d prev)
    (hr : resolveCode cfg d prev c = some s) : DecoderWf cfg (decoderInsert cfg d prev s) (some s) := by
  have hkeeps : (decoderInsert cfg d prev s).Wf cfg ∧ d.next ≤ (decoderInsert cfg d prev s).next := by
    cases prev with
    | none => exact ⟨h.wf, le_rfl⟩
    | some p =>
      obtain ⟨hp, hle⟩ := h.previous p rfl
      exact decoderInsert_keeps h.wf hp hle s
  refine ⟨hkeeps.1, ?_⟩
  rintro _ ⟨⟩
  rcases resolveCode_cases hr with hmem | ⟨hroom, p, rfl, rfl⟩
  · obtain ⟨hpos, hle⟩ := h.wf.strings _ hmem
    exact ⟨hpos, hle.trans (Nat.sub_le_sub_right hkeeps.2 _)⟩
  · obtain ⟨hpos, hle⟩ := h.previous p rfl
    have hlow := h.wf.next_low
    have hlen : (selfReference p).length = p.length + 1 := by
      rw [selfReference, List.length_append, List.length_take_of_le hpos]
    have hnext : (decoderInsert cfg d (some p) (selfReference p)).next = d.next + 1 := by
      simp only [decoderInsert, hroom, if_pos, Dict.add]
    omega

/-- No codeword stands for more than `L - R` bytes (43_lzw.md R277). -/
theorem DecoderWf.resolved_length_le {d : Dict} {prev : Option Bytes} {c : Nat} {s : Bytes} (h : DecoderWf cfg d prev)
    (hr : resolveCode cfg d prev c = some s) : s.length ≤ cfg.L - cfg.R := by
  have hafter := h.next_codeword hr
  exact (hafter.previous s rfl).2.trans (Nat.sub_le_sub_right hafter.wf.next_high _)

theorem lzwFrom_length_le {d : Dict} {prev : Option Bytes} (h : DecoderWf cfg d prev) (fuel : Nat) (bits : Bits) :
    (lzwFrom cfg fuel d prev bits).out.length ≤ (cfg.L - cfg.R) * (bits.length / cfg.W) := by
  induction fuel generalizing d prev bits with
  | zero =>
    rw [lzwFrom]
    split <;> exact Nat.zero_le _
  | succ fuel ih =>
    rw [lzwFrom]
    rcases takeBits_cases cfg.W bits with ⟨hlen, hread⟩ | ⟨_, hread⟩ <;> rw [hread] <;> simp only
    · rcases lzwLoop_succ fuel d prev (bitsVal (bits.take cfg.W)) (bits.drop cfg.W) with
        ⟨_, hend⟩ | ⟨_, _, hend⟩ | ⟨s, _, hr, hgo⟩
      · rw [hend]
        exact Nat.zero_le _
      · rw [hend]
        exact Nat.zero_le _
      · have hrest := ih (h.next_codeword hr) (bits.drop cfg.W)
        have hstring := h.resolved_length_le hr
        rw [List.length_drop] at hrest
        rw [hgo, DecodeResult.emit, List.length_append, Nat.div_eq_sub_div (width_pos cfg) hlen, Nat.mul_succ]
        omega
    · exact Nat.zero_le _

theorem lzwDecode_length_le (bits : Bits) :
    (lzwDecode cfg bits).out.length ≤ (cfg.L - cfg.R) * (bits.length / cfg.W) := by
  rw [lzwDecode_eq_run]
  exact lzwFrom_length_le (.start cfg) _ _

/-! ## How much HUF_COMPRESS can write -/

/-- Each step of a path to a leaf passes an internal node and leaves a subtree aside. -/
theorem Trie.leafAt_length {t : Trie} {path : Bits} {s : Byte} (h : t.leafAt path = some s) :
    2 * path.length + 1 ≤ t.nodeCount := by
  induction t generalizing path with
  | leaf _ =>
    cases path with
    | nil => exact le_rfl
    | cons b bs => cases h
  | internal l r hl hr =>
    cases path with
    | nil => cases h
    | cons b bs =>
      have hlpos := l.nodeCount_pos
      have hrpos := r.nodeCount_pos
      rw [List.length_cons, Trie.nodeCount]
      cases b with
      | false =>
        have hleft := hl h
        omega
      | true =>
        have hright := hr h
        omega

/-- No code is longer than 255 bits: a trie HUF_COMPRESS builds has at most 511 nodes (42_huffman.md R232). -/
theorem codeOf_length_le {data : Bytes} {b : Byte} (hb : b ∈ data) :
    (codeOf (codeTable (buildTrie data)) b).length ≤ 255 := by
  have hpath := Trie.leafAt_length (codeOf_path (mem_buildTrie_symbols hb))
  have hnodes := buildTrie_nodeCount_le data
  rw [hufMaxNodes] at hnodes
  omega

theorem hufEncode_length_le (data : Bytes) : (hufEncode data).length ≤ 10 * 256 - 1 + 32 + 255 * data.length := by
  have hcodes := List.sum_le_card_nsmul (data.map fun b => (codeOf (codeTable (buildTrie data)) b).length) 255 (by
    simpa using fun b hb => codeOf_length_le hb)
  have hsymbols := occurring_length data ▸ occurring_length_le data
  rw [List.length_map, smul_eq_mul] at hcodes
  rw [hufEncode_length]
  split <;> omega

theorem encoderOutcome_hufOutput_length_le (p : Option Nat) (data : Bytes) :
    (encoderOutcome p (hufOutput data)).dst.length ≤ (10 * 256 - 1 + 32 + 255 * data.length + 7) / 8 := by
  rw [hufOutput]
  split
  · exact Nat.zero_le _
  · rw [encoderOutcome_some_dst, (packs_packBits _).length_eq]
    exact Nat.div_le_div_right (Nat.add_le_add_right (hufEncode_length_le data) 7)

/-- Settles O45. -/
theorem outputBounds : Obligations.OutputBounds := by
  refine fun s t => ⟨fun h => ?_, fun h => ?_⟩
  · cases h.symm.trans (exec_lzwDecompress s)
    have hlen := lzwDecode_length_le (cfg := s.cfg) (streamBits s.src)
    rw [streamBits_length] at hlen
    rwa [← decoderOutcome_dst s.src.length] at hlen
  · cases h.symm.trans (exec_hufCompress s)
    exact encoderOutcome_hufOutput_length_le _ _

end Sys2Proof.Machine

/-! The archive parser (44_archive.md R320, R322 to R325): what a parse depends on, the frames it refuses, and what it
makes of the blob of an entry list with more bytes after it. -/

namespace Sys2Proof.Machine

variable {cfg : Config}

theorem entryFits_iff {e : Entry} : entryFits e = true ↔ e.name.length < 2 ^ 32 ∧ e.content.length < 2 ^ 64 :=
  decide_eq_true_iff

/-! ## One entry -/

/-- Any bytes with the layout of a frame parse, whatever follows them; the converse of `parseEntry_some`. -/
theorem parseEntry_fields {n size : Bytes} {e : Entry} (hn : n.length = 4) (hsize : size.length = 8)
    (hname : bytesVal n = e.name.length) (hcontent : bytesVal size = e.content.length) (rest : Bytes) :
    parseEntry cfg (n ++ [separator cfg] ++ e.name ++ [separator cfg] ++ size ++ [separator cfg] ++ e.content ++ rest) =
      some (e, rest) := by
  simp only [List.append_assoc, List.nil_append, List.cons_append, parseEntry, takeBytes_append hn, takeBytes_append hsize,
    Option.bind_some, expectSep_sep, hname, hcontent, takeBytes_append rfl, Option.map_some]

/-- An entry that parses does so with more bytes after it, and leaves them too. -/
theorem parseEntry_append {blob rest : Bytes} {e : Entry} (h : parseEntry cfg blob = some (e, rest)) (more : Bytes) :
    parseEntry cfg (blob ++ more) = some (e, rest ++ more) := by
  obtain ⟨n, size, hn, hsize, hname, hcontent, rfl⟩ := parseEntry_some h
  rw [List.append_assoc _ rest more]
  exact parseEntry_fields hn hsize hname hcontent _

/-- A frame cut short does not parse (44_archive.md R322): with its missing bytes put back, none of them would be read. -/
theorem parseEntry_cut {e : Entry} (h : entryFits e = true) {cut more : Bytes} (hmore : more ≠ [])
    (hcut : cut ++ more = frameOf cfg e) : parseEntry cfg cut = none := by
  refine Option.eq_none_iff_forall_ne_some.mpr fun ⟨e', rest⟩ hp => hmore ?_
  have hframe := parseEntry_frame (cfg := cfg) h []
  rw [List.append_nil, ← hcut, parseEntry_append hp, Option.some.injEq, Prod.mk.injEq] at hframe
  exact (List.append_eq_nil_iff.mp hframe.2).2

/-- The places of the three separators of a frame, after a name of `n` bytes (44_archive.md R312). -/
def separatorPlaces (n : Nat) : List Nat := [4, 5 + n, 14 + n]

theorem mem_separatorPlaces {k n : Nat} : k ∈ separatorPlaces n ↔ k = 4 ∨ k = 5 + n ∨ k = 14 + n := by
  simp [separatorPlaces]

theorem getElem?_append_of_length {xs : Bytes} {k : Nat} (h : xs.length = k) (b : Byte) (ys : Bytes) :
    (xs ++ ([b] ++ ys))[k]? = some b := by
  rw [List.getElem?_append_right h.le, h, Nat.sub_self]
  rfl

/-- What parses has the name its length field tells and a separator at each of the three places. -/
theorem parseEntry_separators {blob rest : Bytes} {e : Entry} (h : parseEntry cfg blob = some (e, rest)) :
    bytesVal (blob.take 4) = e.name.length ∧ ∀ k ∈ separatorPlaces e.name.length, blob[k]? = some (separator cfg) := by
  obtain ⟨n, size, hn, hsize, hname, _, rfl⟩ := parseEntry_some h
  refine ⟨by simp [List.take_left' hn, hname], fun k hk => ?_⟩
  rcases mem_separatorPlaces.mp hk with rfl | rfl | rfl
  · simpa only [List.append_assoc] using getElem?_append_of_length hn (separator cfg) _
  · simpa only [List.append_assoc] using
      getElem?_append_of_length (xs := n ++ [separator cfg] ++ e.name) (by simp; omega) (separator cfg) _
  · simpa only [List.append_assoc] using
      getElem?_append_of_length (xs := n ++ [separator cfg] ++ e.name ++ [separator cfg] ++ size) (by simp; omega)
        (separator cfg) _

theorem frameOf_take_four (e : Entry) : (frameOf cfg e).take 4 = bytesOf 4 e.name.length := by
  simp [frameOf, List.take_left' (bytesOf_length 4 e.name.length)]

/-- A frame one of whose three separators is another byte does not parse (44_archive.md R323). -/
theorem parseEntry_badSeparator {e : Entry} (h : entryFits e = true) {k : Nat} (hk : k ∈ separatorPlaces e.name.length)
    {b : Byte} (hb : b ≠ separator cfg) (more : Bytes) :
    parseEntry cfg ((frameOf cfg e).take k ++ b :: more) = none := by
  refine Option.eq_none_iff_forall_ne_some.mpr fun ⟨e', rest⟩ hp => hb ?_
  obtain ⟨hname, hsep⟩ := parseEntry_separators hp
  have hplace := mem_separatorPlaces.mp hk
  have hk4 : 4 ≤ k := by omega
  have hlen : ((frameOf cfg e).take k).length = k := List.length_take_of_le (by rw [frameOf_length]; omega)
  have hfield : bytesVal (bytesOf 4 e.name.length) = e.name.length := bytesVal_bytesOf (entryFits_iff.mp h).1
  rw [List.take_append_of_le_length (by rwa [hlen]), List.take_take, min_eq_left hk4, frameOf_take_four, hfield] at hname
  have hat := hsep k (hname ▸ hk)
  rw [List.getElem?_append_right hlen.le, hlen, Nat.sub_self] at hat
  exact Option.some.inj hat

/-! ## Blobs -/

theorem parseLoop_invalid {blob : Bytes} (h : parseEntry cfg blob = none) (fuel : Nat) :
    parseLoop cfg fuel blob = ⟨[], false⟩ := by
  cases fuel with
  | zero => rfl
  | succ fuel => rw [parseLoop, h]

/-- A tail that cannot follow a frame: bytes that are not a separator with an entry after it (44_archive.md R324). -/
def BadTail (cfg : Config) (tail : Bytes) : Prop :=
  tail ≠ [] ∧ ∀ next, tail = separator cfg :: next → parseEntry cfg next = none

/-- A frame with a tail that cannot follow it is an entry, and the parse fails. -/
theorem parseLoop_badTail {e : Entry} (h : entryFits e = true) {tail : Bytes} (ht : BadTail cfg tail) (fuel : Nat) :
    parseLoop cfg (fuel + 1) (frameOf cfg e ++ tail) = ⟨[e], false⟩ := by
  obtain ⟨hne, hnext⟩ := ht
  cases hs : expectSep cfg tail with
  | none => exact parseLoop_noSep h hne hs
  | some next =>
    obtain rfl := expectSep_some hs
    rw [parseLoop_more h, parseLoop_invalid (hnext next rfl)]

/-- The blob of entries that fit, with a tail that cannot follow it, gives the entries and fails (44_archive.md R325). -/
theorem parseLoop_blob_badTail {es : List Entry} (hne : es ≠ []) (hfit : ∀ e ∈ es, entryFits e = true) {tail : Bytes}
    (ht : BadTail cfg tail) {fuel : Nat} (hf : es.length ≤ fuel) :
    parseLoop cfg fuel (blobOf cfg es ++ tail) = ⟨es, false⟩ := by
  induction es generalizing fuel with
  | nil => exact absurd rfl hne
  | cons e es ih =>
    obtain ⟨fuel, rfl⟩ := Nat.exists_eq_add_one_of_ne_zero (Nat.ne_zero_of_lt hf)
    have he := hfit e (by simp)
    cases es with
    | nil => exact parseLoop_badTail he ht _
    | cons e' es =>
      have hrest := ih (by simp) (fun x hx => hfit x (by simp [hx])) (Nat.le_of_succ_le_succ hf)
      rw [blobOf_cons_cons, List.append_assoc, List.cons_append, parseLoop_more he, hrest]

/-- The bound of `parseBlob` is enough for the entries of a blob. -/
theorem length_le_blobOf_length (es : List Entry) : es.length ≤ (blobOf cfg es).length + 1 := by
  cases es with
  | nil => exact Nat.zero_le _
  | cons e es =>
    have hlen := blobOf_length (cfg := cfg) (List.cons_ne_nil e es)
    omega

theorem blobOf_ne_nil {es : List Entry} (h : es ≠ []) : blobOf cfg es ≠ [] := by
  cases es with
  | nil => exact absurd rfl h
  | cons e es => cases es <;> simp [blobOf, frameOf_ne_nil]

theorem parseBlob_of_ne_nil {blob : Bytes} (h : blob ≠ []) : parseBlob cfg blob = parseLoop cfg (blob.length + 1) blob :=
  if_neg h

/-- The blob of entries that fit parses to them (44_archive.md R320, R326). -/
theorem parseBlob_blobOf {es : List Entry} (hfit : ∀ e ∈ es, entryFits e = true) :
    parseBlob cfg (blobOf cfg es) = ⟨es, true⟩ := by
  by_cases h : es = []
  · subst h
    rfl
  · rw [parseBlob_of_ne_nil (blobOf_ne_nil h), parseLoop_blob h hfit (length_le_blobOf_length es)]

theorem parseBlob_badTail {es : List Entry} (hne : es ≠ []) (hfit : ∀ e ∈ es, entryFits e = true) {tail : Bytes}
    (ht : BadTail cfg tail) : parseBlob cfg (blobOf cfg es ++ tail) = ⟨es, false⟩ := by
  have hlen := length_le_blobOf_length (cfg := cfg) es
  rw [parseBlob_of_ne_nil (by simp [ht.1]), parseLoop_blob_badTail hne hfit ht (by rw [List.length_append]; omega)]

/-- Where the frame after the entries `es` starts does not parse, the parse gives them and fails (44_archive.md R325). -/
theorem parseBlob_badFrame {es : List Entry} (hfit : ∀ e ∈ es, entryFits e = true) {start frame : Bytes}
    (hstart : start = if es = [] then [] else blobOf cfg es ++ [separator cfg]) (hne : start ++ frame ≠ [])
    (hframe : parseEntry cfg frame = none) : parseBlob cfg (start ++ frame) = ⟨es, false⟩ := by
  by_cases h : es = []
  · rw [if_pos h] at hstart
    subst h hstart
    rw [parseBlob_of_ne_nil hne]
    exact parseLoop_invalid hframe _
  · rw [if_neg h] at hstart
    have ht : BadTail cfg (separator cfg :: frame) := ⟨by simp, by rintro _ ⟨⟩; exact hframe⟩
    rw [hstart, List.append_assoc]
    exact parseBlob_badTail h hfit ht

end Sys2Proof.Machine

/-! The archive commands (44_archive.md R311, R315, R320 to R328): how ARC_UNPACK ends, from what its two stages make of
the stream, what ARC_PACK writes, and the round trip. -/

namespace Sys2Proof.Machine

variable {cfg : Config}

/-! ## How ARC_UNPACK ends -/

theorem exec_arcUnpack_ok {s : State} {out : Bytes} {rest : Bits} {es : List Entry}
    (h : lzwDecode s.cfg (streamOf s.src) = ⟨out, rest, none⟩) (hp : parseBlob s.cfg out = ⟨es, true⟩) :
    exec .arcUnpack s =
      .next { s with rpos := 8 * s.src.length - rest.length, dst := [], wacc := 0, wcnt := 0, eout := es,
                     res := lengthValue es.length, code := .ok } := by
  rw [exec_arcUnpack, ← streamOf_eq, h, unpackOutcome]
  simp only [hp]
  rfl

theorem exec_arcUnpack_parseFails {s : State} {out : Bytes} {rest : Bits} {es : List Entry}
    (h : lzwDecode s.cfg (streamOf s.src) = ⟨out, rest, none⟩) (hp : parseBlob s.cfg out = ⟨es, false⟩) :
    exec .arcUnpack s =
      .next { s with rpos := 8 * s.src.length - rest.length, dst := [], wacc := 0, wcnt := 0, eout := es,
                     code := .corruptData } := by
  rw [exec_arcUnpack, ← streamOf_eq, h, unpackOutcome]
  simp only [hp]
  rfl

/-- Settles O49. -/
theorem arcUnpackGivesTheEntries : Obligations.ArcUnpackGivesTheEntries := by
  intro s es codes strings rest hfit hspells hblob hstop
  have hparse : parseBlob s.cfg strings.flatten = ⟨es, true⟩ := by
    rw [hblob]
    exact parseBlob_blobOf fun e he => entryFits_iff.mpr (hfit e he)
  exact ⟨_, holdsLength_lengthValue _, exec_arcUnpack_ok (lzwDecode_stops hspells hstop) hparse⟩

/-- Settles O50: a byte that is no separator is a tail that cannot follow a blob, and the other two are frames that do not
parse. -/
theorem arcUnpackKeepsCompletedEntries : Obligations.ArcUnpackKeepsCompletedEntries := by
  intro s es e codes strings rest start hfit hspells hstop hstart hbad
  have hes : ∀ x ∈ es, entryFits x = true := fun x hx => entryFits_iff.mpr (hfit x (by simp [hx]))
  have he : entryFits e = true := entryFits_iff.mpr (hfit e (by simp))
  refine exec_arcUnpack_parseFails (lzwDecode_stops hspells hstop) ?_
  rcases hbad with ⟨b, more, hne, hb, hblob⟩ | ⟨cut, more, hmore, hcut, hne, hblob⟩ | ⟨k, b, more, hk, hb, hblob⟩ <;>
    rw [hblob]
  · exact parseBlob_badTail hne hes ⟨by simp, by rintro _ ⟨⟩; exact absurd rfl hb⟩
  · exact parseBlob_badFrame hes hstart hne (parseEntry_cut he hmore hcut)
  · rw [List.append_assoc]
    exact parseBlob_badFrame hes hstart (by simp) (parseEntry_badSeparator he hk hb more)

/-- Settles O51: both commands run the same LZW stage. -/
theorem arcUnpackLzwStageFails : Obligations.ArcUnpackLzwStageFails := by
  intro s t h hcode
  cases h.symm.trans (exec_lzwDecompress s)
  rw [exec_arcUnpack]
  cases herr : (lzwDecode s.cfg (streamBits s.src)).err with
  | none =>
    simp only [decoderOutcome, herr] at hcode
    cases hcode
  | some _ =>
    simp only [decoderOutcome, unpackOutcome, herr]
    rfl

/-! ## What ARC_PACK writes -/

/-- Everything `packOutput` accepts: entries that fit their fields and whose blob is in the alphabet. -/
theorem packOutput_eq_some_iff {ein : List Entry} {bits : Bits} :
    packOutput cfg ein = some bits ↔
      ((∀ e ∈ ein, entryFits e = true) ∧ ∀ b ∈ blobOf cfg ein, b.toNat < cfg.R) ∧ lzwEncode cfg (blobOf cfg ein) = bits := by
  simp only [packOutput, Option.ite_none_right_eq_some, Bool.and_eq_true, List.all_eq_true, inAlphabet_iff,
    Option.some.injEq]

theorem exec_arcPack_accepted {s : State} {bits : Bits} (h : packOutput s.cfg s.ein = some bits) :
    exec .arcPack s =
      .next { s with dst := packBits bits, wacc := 0, wcnt := 0, res := lengthValue (packBits bits).length,
                     code := .ok } := by
  rw [exec_arcPack, h]
  rfl

/-- Settles O48. -/
theorem arcPackIsLzwOfTheBlob : Obligations.ArcPackIsLzwOfTheBlob := by
  intro s hfit halpha
  have hpack := packOutput_eq_some_iff.mpr ⟨⟨fun e he => entryFits_iff.mpr (hfit e he), halpha⟩, rfl⟩
  have hlzw := exec_lzwCompress_accepted (s := { s with src := blobOf s.cfg s.ein }) halpha
  exact ⟨_, _, _, exec_arcPack_accepted hpack, holdsLength_lengthValue _, hlzw, rfl, rfl⟩

/-! ## The round trip -/

theorem packOutput_of_ok {s u : State} (h : exec .arcPack s = .next u) (hcode : u.code = .ok) :
    ∃ bits, packOutput s.cfg s.ein = some bits := by
  cases h.symm.trans (exec_arcPack s)
  cases hpack : packOutput s.cfg s.ein with
  | some bits => exact ⟨bits, rfl⟩
  | none =>
    rw [hpack] at hcode
    cases hcode

/-- The outcome of ARC_UNPACK on what ARC_PACK wrote (44_archive.md R328). -/
theorem unpackOutcome_packOutput {es : List Entry} {bits : Bits} (h : packOutput cfg es = some bits) (n : Nat) :
    ∃ p, unpackOutcome cfg n (lzwDecode cfg (streamBits (packBits bits))) = ⟨some p, [], some es, .gives es.length⟩ := by
  obtain ⟨⟨hfit, halpha⟩, rfl⟩ := packOutput_eq_some_iff.mp h
  obtain ⟨pad, hpad⟩ := exists_streamBits_packBits (lzwEncode cfg (blobOf cfg es))
  rw [hpad, lzwDecode_lzwEncode halpha, unpackOutcome]
  simp only [parseBlob_blobOf hfit]
  exact ⟨_, rfl⟩

theorem step_loadEin {s : State} {es : List Entry} {rest : List HostAction} (hs : s.host = .loadEin es :: rest) :
    step s = .next ((s.withHost rest).withEin es) := step_action hs

/-- The output loaded as the next input, and a codec command, which ends the run in its outcome. -/
theorem run_loadSrcDst_codec_end {j : Instr} (hj : j.WellFormed) {s : State} {rest : List HostAction}
    (hs : s.host = .loadSrcDst :: command j :: rest) {o : CodecOutcome}
    (ho : codecOutcome s.cfg s.dst s.ein j = some o) (k : Nat) :
    ∃ u : State, Sys2Proof.core.run (k + 2) s = Sys2Proof.core.run k (u.endCodec o) := by
  obtain ⟨c, hc⟩ := step_codec hj (s := (s.withHost (command j :: rest)).loadSrc s.dst) rfl ho
  exact ⟨_, (core_run_succ (step_loadSrcDst hs) (k + 1)).trans (core_run_succ hc k)⟩

/-- Entries loaded, a codec command, its output loaded as the next input, and another codec command. -/
theorem run_loadEin_codec_loadSrcDst_codec {i j : Instr} (hi : i.WellFormed) (hj : j.WellFormed) {s : State}
    {es : List Entry} {rest : List HostAction}
    (hs : s.host = .loadEin es :: command i :: .loadSrcDst :: command j :: rest) {o o' : CodecOutcome}
    (ho : codecOutcome s.cfg s.src es i = some o) (ho' : codecOutcome s.cfg o.dst es j = some o') (k : Nat) :
    ∃ u : State, Sys2Proof.core.run (k + 4) s = Sys2Proof.core.run k (u.endCodec o') := by
  obtain ⟨c, hc⟩ := step_codec hi (s := (s.withHost (command i :: .loadSrcDst :: command j :: rest)).withEin es) rfl ho
  obtain ⟨u, hu⟩ := run_loadSrcDst_codec_end hj
    (s := (((s.withEin es).withHost (.loadSrcDst :: command j :: rest)).withCmd c).endCodec o) rfl ho' k
  exact ⟨u, (core_run_succ (step_loadEin hs) (k + 3)).trans ((core_run_succ hc (k + 2)).trans hu)⟩

/-- Settles O52. -/
theorem archiveRoundTrip : Obligations.ArchiveRoundTrip := by
  intro s u es rest hpack hcode hs
  obtain ⟨bits, hbits⟩ := packOutput_of_ok hpack hcode
  obtain ⟨p, hunpack⟩ := unpackOutcome_packOutput hbits (packBits bits).length
  have hpacked : codecOutcome s.cfg s.src es .arcPack = some (encoderOutcome none (some bits)) := by
    rw [codecOutcome, hbits]
  obtain ⟨t, ht⟩ := run_loadEin_codec_loadSrcDst_codec (i := .arcPack) (j := .arcUnpack) rfl rfl hs hpacked
    (congrArg some hunpack) 0
  exact ⟨_, ht, rfl, State.endCodec_eout rfl t⟩

end Sys2Proof.Machine

/-! The control command (45_control.md): NOP, and the statement derived from its meaning. -/

namespace Sys2Proof.Machine

theorem exec_nop (s : State) : exec .nop s = .next s.done := rfl

/-- The word 0x00000000 is NOP (30_encoding.md R104). -/
theorem decode_zero : decode 0x00000000#32 = .instr .nop := decode_encode (i := .nop) rfl

/-- CMD holds the word 0x00000000 after reset (10_state.md R60). -/
theorem reset_cmd : State.reset.cmd = 0x00000000#32 := rfl

/-- Settles O53: the word of NOP is the one that decodes to it, and `State.done` writes STATUS.CODE alone. -/
theorem nopClearsTheCode : Obligations.NopClearsTheCode :=
  ⟨decode_zero, (encode_of_decode decode_zero).trans reset_cmd.symm, exec_nop⟩

end Sys2Proof.Machine

/-! How a command and a step end (60_exceptions.md): that each completes (R400), which codes each command reports (R401 to
R403), what a codec command leaves of the writer (R412), and the statements derived from that. -/

namespace Sys2Proof.Machine

/-! ## Completion -/

theorem exec_completes (i : Instr) (s : State) : ∃ t, exec i s = .next t :=
  (exec_ends i s).imp fun _ h => h.left

theorem runCommand_completes (c : CmdWord) (s : State) : ∃ t, runCommand c s = .next t := by
  cases hd : decode c with
  | instr i => exact runCommand_instr hd s ▸ exec_completes i (s.withCmd c)
  | illegal why => exact ⟨_, runCommand_illegal hd s⟩

theorem hostAct_completes (a : HostAction) (s : State) : ∃ t, hostAct a s = .next t := by
  cases a with
  | writeCmd c => exact runCommand_completes c s
  | reset | setArg | loadSrc | loadSrcDst | loadEin | writeReadOnly | readReg | readDst | readEout => exact ⟨_, rfl⟩

theorem step_completes (s : State) : ∃ t, step s = .next t := by
  cases hh : s.host with
  | nil => exact ⟨s, step_idle hh⟩
  | cons a rest => exact step_action hh ▸ hostAct_completes a (s.withHost rest)

/-! ## The codes of the shared operations -/

theorem State.readToRes_code_mem (n : Nat) (s : State) : (s.readToRes n).code ∈ [.ok, .endOfStream] := by
  rcases s.readToRes_cases n with ⟨_, h⟩ | ⟨_, h⟩ <;> rw [h]
  · exact List.mem_cons_self
  · exact List.mem_cons_of_mem _ List.mem_cons_self

theorem State.writeArg_code_mem (n : Nat) (s : State) : (s.writeArg n).code ∈ [.ok, .invalidArgument] := by
  rcases Nat.lt_or_ge s.arg.toNat (2 ^ n) with h | h
  · rw [State.writeArg_fits h]
    exact List.mem_cons_self
  · rw [State.writeArg_reject h]
    exact List.mem_cons_of_mem _ List.mem_cons_self

theorem encoderOutcome_code_mem (p : Option Nat) (bits : Option Bits) :
    (encoderOutcome p bits).last.code ∈ [.ok, .invalidArgument] := by
  cases bits with
  | some bits => exact List.mem_cons_self
  | none => exact List.mem_cons_of_mem _ List.mem_cons_self

theorem decoderOutcome_code_mem (n : Nat) (r : DecodeResult) :
    (decoderOutcome n r).last.code ∈ [.ok, .corruptData] := by
  unfold decoderOutcome
  split
  · exact List.mem_cons_self
  · exact List.mem_cons_of_mem _ List.mem_cons_self

/-- ARC_UNPACK fails as corrupt in its LZW stage and in its parsing stage (44_archive.md R321, R325). -/
theorem unpackOutcome_code_mem (cfg : Config) (n : Nat) (r : DecodeResult) :
    (unpackOutcome cfg n r).last.code ∈ [.ok, .corruptData] := by
  unfold unpackOutcome
  split
  · exact List.mem_cons_of_mem _ List.mem_cons_self
  · dsimp only
    split
    · exact List.mem_cons_self
    · exact List.mem_cons_of_mem _ List.mem_cons_self

/-! ## The codes of the commands -/

theorem codecOutcome_code_mem {cfg : Config} {src : Bytes} {ein : List Entry} {i : Instr} {o : CodecOutcome}
    (h : codecOutcome cfg src ein i = some o) : o.last.code ∈ commandCodes i := by
  cases i <;> cases h
  case hufCompress | lzwCompress | arcPack => exact encoderOutcome_code_mem _ _
  case hufDecompress | lzwDecompress => exact decoderOutcome_code_mem _ _
  case arcUnpack => exact unpackOutcome_code_mem _ _ _

/-- The code a command ends with is one of its row of the cause table (60_exceptions.md R402). -/
theorem exec_code_mem {i : Instr} {s t : State} (h : exec i s = .next t) : t.code ∈ commandCodes i := by
  by_cases hc : isCodec i = true
  · obtain ⟨o, ho⟩ := codecOutcome_of_isCodec hc s.cfg s.src s.ein
    cases h.symm.trans (exec_codec ho)
    exact codecOutcome_code_mem ho
  cases i with
  | nop | rdOpen | rdExhausted | wrOpen | wrInt64 | wrFlush =>
    cases h
    exact List.mem_cons_self
  | rdBit | rdByte | rdInt32 | rdInt64 =>
    cases h
    exact s.readToRes_code_mem _
  | rdBits w =>
    by_cases hl : widthLegal w = true
    · cases (exec_rdBits_legal hl s).symm.trans h
      exact List.cons_subset_cons _ (List.subset_cons_self _ _) (s.readToRes_code_mem w)
    · cases (exec_rdBits_illegal hl s).symm.trans h
      exact List.mem_cons_of_mem _ List.mem_cons_self
  | wrBit | wrByte | wrInt32 =>
    cases h
    exact s.writeArg_code_mem _
  | wrBits w =>
    by_cases hl : widthLegal w = true
    · cases (exec_wrBits_legal hl s).symm.trans h
      exact s.writeArg_code_mem w
    · cases (exec_wrBits_illegal hl s).symm.trans h
      exact List.mem_cons_of_mem _ List.mem_cons_self
  | hufCompress | hufDecompress | lzwCompress | lzwDecompress | arcPack | arcUnpack => exact absurd rfl hc

/-- No row of the cause table names a host-side code (60_exceptions.md R402, R403). -/
theorem commandCodes_byEngine {i : Instr} {e : ResultCode} (h : e ∈ commandCodes i) : e.byEngine = true := by
  have hall : (commandCodes i).all ResultCode.byEngine = true := by cases i <;> rfl
  exact List.all_eq_true.mp hall e h

theorem exec_code_byEngine {i : Instr} {s t : State} (h : exec i s = .next t) : t.code.byEngine = true :=
  commandCodes_byEngine (exec_code_mem h)

theorem runCommand_code_byEngine {c : CmdWord} {s t : State} (h : runCommand c s = .next t) :
    t.code.byEngine = true := by
  cases hd : decode c with
  | instr i => exact exec_code_byEngine ((runCommand_instr hd s).symm.trans h)
  | illegal why =>
    cases (runCommand_illegal hd s).symm.trans h
    rfl

/-- A host action that starts no command leaves the code, or makes it OK where it is RESET. -/
theorem hostAct_code_byEngine {a : HostAction} {s t : State} (hs : s.code.byEngine = true)
    (h : hostAct a s = .next t) : t.code.byEngine = true := by
  cases a with
  | writeCmd c => exact runCommand_code_byEngine h
  | reset =>
    cases h
    rfl
  | setArg | loadSrc | loadSrcDst | loadEin | writeReadOnly | readReg | readDst | readEout =>
    cases h
    exact hs

theorem step_code_byEngine {s t : State} (hs : s.code.byEngine = true) (h : step s = .next t) :
    t.code.byEngine = true := by
  cases hh : s.host with
  | nil =>
    cases (step_idle hh).symm.trans h
    exact hs
  | cons a rest => exact hostAct_code_byEngine (s := s.withHost rest) hs ((step_action hh).symm.trans h)

/-! ## What a codec command leaves -/

/-- With no bit pending the output stream is the bits of DST (10_state.md R42). -/
theorem State.pendingOut_of_wcnt_zero {s : State} (h : s.wcnt = 0) : s.pendingOut = streamOf s.dst := by
  rw [State.pendingOut, h]
  exact List.append_nil _

theorem encoderOutcome_eout (p : Option Nat) (bits : Option Bits) : (encoderOutcome p bits).eout = none := by
  cases bits <;> rfl

theorem decoderOutcome_eout (n : Nat) (r : DecodeResult) : (decoderOutcome n r).eout = none := by
  unfold decoderOutcome
  split <;> rfl

/-- Of the codec commands only ARC_UNPACK writes EOUT (44_archive.md R320). -/
theorem codecOutcome_eout {cfg : Config} {src : Bytes} {ein : List Entry} {i : Instr} {o : CodecOutcome}
    (h : codecOutcome cfg src ein i = some o) (hi : i ≠ .arcUnpack) : o.eout = none := by
  cases i <;> cases h
  case hufCompress | lzwCompress | arcPack => exact encoderOutcome_eout _ _
  case hufDecompress | lzwDecompress => exact decoderOutcome_eout _ _
  case arcUnpack => exact absurd rfl hi

theorem State.endCodec_eout_kept {o : CodecOutcome} (h : o.eout = none) (s : State) :
    (s.endCodec o).eout = s.eout := by
  simp only [State.endCodec, h, Option.getD_none]

theorem State.endCodec_rpos_kept {o : CodecOutcome} (h : o.rpos = none) (s : State) :
    (s.endCodec o).rpos = s.rpos := by
  simp only [State.endCodec, h, Option.getD_none]

/-! ## The statements -/

/-- Settles O10. -/
theorem stepAlwaysCompletes : Obligations.StepAlwaysCompletes := ⟨step_completes, exec_completes⟩

/-- Settles O15. -/
theorem commandsReportOnlyTheirCodes : Obligations.CommandsReportOnlyTheirCodes := fun _ _ _ => exec_code_mem

/-- Settles O14: a command's code is one of its row, an illegal word's is `IllegalCommand`, and RESET's is OK. -/
theorem engineWritesOnlyItsCodes : Obligations.EngineWritesOnlyItsCodes :=
  ⟨fun _ _ _ => exec_code_byEngine, fun _ _ => step_code_byEngine⟩

/-- Settles O18: `State.endCodec` leaves the writer empty, and moves RPOS and EOUT where the command's outcome does. -/
theorem codecCommandsEndFlushed : Obligations.CodecCommandsEndFlushed := by
  intro i s t hi h
  obtain ⟨o, ho⟩ := codecOutcome_of_isCodec hi s.cfg s.src s.ein
  cases h.symm.trans (exec_codec ho)
  refine ⟨rfl, rfl, State.pendingOut_of_wcnt_zero rfl, fun hne => ?_, ?_⟩
  · exact State.endCodec_eout_kept (codecOutcome_eout ho hne) s
  · rintro rfl
    cases ho
    exact State.endCodec_rpos_kept (encoderOutcome_rpos _ _) s

end Sys2Proof.Machine

/-! The actions by which the host sets the engine up (70_reset_and_hazards.md R450, R461): RESET, SETARG and the loads, the
frame of each, and the statements derived from that. -/

namespace Sys2Proof.Machine

/-! ## RESET -/

theorem step_reset {s : State} {rest : List HostAction} (hs : s.host = .reset :: rest) :
    step s = .next (((State.resetOf s.cfg).withHost rest).withReturned s.returned) := step_action hs

theorem resetOf_cfg (cfg : Config) : (State.resetOf cfg).cfg = cfg := rfl

/-- After reset STATUS shows CODE and WCNT 0, and RDEXH, since SRC is empty (70_reset_and_hazards.md R450). -/
theorem resetOf_statusWord (cfg : Config) : (State.resetOf cfg).statusWord = 0x00000080#32 :=
  BitVec.eq_of_toNat_eq (State.statusWord_toNat (resetOf_inv cfg))

/-! ## The statements -/

/-- Settles O6: of the state before it RESET takes over the configuration, the actions still pending and the host's
record; the other values are those of `State.resetOf`. -/
theorem resetActionRestoresEverything : Obligations.ResetActionRestoresEverything :=
  ⟨fun s _ hs => ⟨s.returned, step_reset hs⟩, fun cfg => ⟨resetOf_statusWord cfg, resetOf_cfg cfg⟩, rfl, rfl, rfl, rfl⟩

/-- Settles O7: each action is an update of the one register or buffer it names, and a load of SRC rewinds RPOS. -/
theorem loadActionsWriteTheirBuffers : Obligations.LoadActionsWriteTheirBuffers :=
  fun _ _ => ⟨fun _ => step_setArg, fun _ => step_loadSrc, step_loadSrcDst, fun _ => step_loadEin⟩

end Sys2Proof.Machine
